-- ==== Sys2Proof/Word.lean ====
section
/-!
DEFINITION. The words that cross a port of the OSCEC block and the number format of its values
(spec/00_scope.md R7, R11; spec/30_encoding.md R91, R93, R99, R101).
-/

namespace Sys2Proof

/-- One byte of a byte-wide channel (R78). -/
abbrev Byte := BitVec 8

/-- A binary64 value, as its 64 bits: bit 63 sign, bits 62:52 biased exponent, bits 51:0 fraction (R11). -/
abbrev F64 := BitVec 64

/-- A host or producer command word `CMD`, `PCMD` (R91, R95). -/
abbrev CmdWord := BitVec 32

/-- An operand or a result, `OPND`, `POPND`, `RES` (R94, R95). -/
abbrev Wide := BitVec 128

/-- An event word, the hardware form of the source's `MidiEvent` (R99). -/
abbrev EventWord := BitVec 128

/-- A raw input record (R101). -/
abbrev RawRecord := BitVec 64

end Sys2Proof
end

