-- ==== Sys2Proof/Syntax.lean ====
section
/-!
DEFINITION. The commands of the OSCEC block (spec/opcode_table.json; spec/30_encoding.md R91 to R105):
one constructor per row of the table, carrying the operand fields the command takes (R105).
-/

namespace Sys2Proof

/-- The waveform mode (R25, R104). -/
inductive Mode where
  | sine | saw | square | triangle
  deriving DecidableEq, Repr

/-- The two command ports (R91, R95). -/
inductive Port where
  | host | producer
  deriving DecidableEq, Repr

/-- What a port is given in one transaction: a 32-bit command word and a 128-bit operand (R91, R95). -/
structure Request where
  /-- `CMD` or `PCMD`. -/
  cmd : CmdWord
  /-- `OPND` or `POPND`. -/
  opnd : Wide
  deriving DecidableEq, Repr

/-- Which command-word fields a host command uses (R97): none, `IDX`, `IDX` and `SEL`, `SEL`. -/
inductive Format where
  | n | i | is | s
  deriving DecidableEq, Repr

/-- Why a word is not a command, by the steps of R265 and R266. -/
inductive DecodeError where
  /-- The opcode is in no map: R265 step 1, R266. -/
  | reservedOpcode
  /-- A reserved bit of the command word is set: R265 step 2, R266. -/
  | reservedBits
  /-- `IDX` is not zero and the format has no `IDX`: R265 step 3. -/
  | unusedIdx
  /-- `SEL` is not zero and the format has no `SEL`: R265 step 4. -/
  | unusedSel
  /-- Fewer bytes than a command word and an operand on a byte-wide channel (R78, R108). -/
  | truncated
  deriving DecidableEq, Repr

/-- A command. `o` is an oscillator index and `n` a note number, both the 8-bit field `IDX`; `sel` is
the field `SEL`. -/
inductive Instr where
  /-- `NOP` (R231). -/
  | nop
  /-- `SETMODE o, m` (R133). -/
  | setmode (o : BitVec 8) (m : Mode)
  /-- `SETFREQ o, x` (R134). -/
  | setfreq (o : BitVec 8) (x : F64)
  /-- `SETPITCH o, x` (R135). -/
  | setpitch (o : BitVec 8) (x : F64)
  /-- `MUTE o` (R136). -/
  | mute (o : BitVec 8)
  /-- `UNMUTE o` (R137). -/
  | unmute (o : BitVec 8)
  /-- `USENAIVE o, b` (R138). -/
  | usenaive (o : BitVec 8) (b : Bool)
  /-- `NEXT o` (R140). -/
  | next (o : BitVec 8)
  /-- `SETSR x` (R139). -/
  | setsr (x : F64)
  /-- `DEQ` (R188). -/
  | deq
  /-- `TICK` (R189). -/
  | tick
  /-- `NOTEHELD n` (R195). -/
  | noteheld (n : BitVec 8)
  /-- `GETFREQ` (R196). -/
  | getfreq
  /-- `GETVEL` (R197). -/
  | getvel
  /-- `GETBEND` (R198). -/
  | getbend
  /-- `GETNOTE` (R199). -/
  | getnote
  /-- `RUNPERIOD n` (R234). -/
  | runperiod (n : BitVec 32)
  /-- `RDREG sel, o` (R232). -/
  | rdreg (sel o : BitVec 8)
  /-- `WRCSR sel, v` (R233). -/
  | wrcsr (sel : BitVec 8) (v : BitVec 64)
  /-- `P.ENQ tag, key, x` (R182). -/
  | penq (tag : BitVec 3) (key : BitVec 7) (x : F64)
  /-- `P.RAWIN rec` (R183). -/
  | prawin (rec : RawRecord)
  deriving DecidableEq, Repr

/-- The port a command is given on (R97, R98). -/
def Instr.port : Instr → Port
  | .penq _ _ _ => .producer
  | .prawin _ => .producer
  | .nop => .host
  | .setmode _ _ => .host
  | .setfreq _ _ => .host
  | .setpitch _ _ => .host
  | .mute _ => .host
  | .unmute _ => .host
  | .usenaive _ _ => .host
  | .next _ => .host
  | .setsr _ => .host
  | .deq => .host
  | .tick => .host
  | .noteheld _ => .host
  | .getfreq => .host
  | .getvel => .host
  | .getbend => .host
  | .getnote => .host
  | .runperiod _ => .host
  | .rdreg _ _ => .host
  | .wrcsr _ _ => .host

end Sys2Proof
end

