-- ==== Sys2Proof/Machine/Operands.lean ====
section
/-!
DEFINITION. The operand and field forms of spec/30_encoding.md: mode codes (R104), response codes (R93),
register selectors (R103), event words (R99, R100) and raw records (R101, R102).
-/

namespace Sys2Proof.Machine

/-! ### Mode codes (R104) -/

/-- The mode of a 2-bit code. -/
def modeOfCode (c : BitVec 2) : Mode :=
  if c = 0#2 then .sine else if c = 1#2 then .saw else if c = 2#2 then .square else .triangle

/-- The 2-bit code of a mode. -/
def modeCode : Mode → BitVec 2
  | .sine => 0#2
  | .saw => 1#2
  | .square => 2#2
  | .triangle => 3#2

/-! ### Register selectors (R103) -/

/-- A register that `RDREG` names. -/
inductive Selector where
  | sr | ctrl | status | drops | fifoLevel | errInfo | params | held
  | cFreq | cVel | cBend | cNote
  | oMode | oFreq | oPitch | oPhase | oInc | oFlags | oLast
  deriving DecidableEq, Repr

/-- The selector map of R103; `none` is a reserved selector. -/
def selectorOfCode (c : BitVec 8) : Option Selector :=
  match c.toNat with
  | 0x00 => some .sr
  | 0x01 => some .ctrl
  | 0x02 => some .status
  | 0x03 => some .drops
  | 0x04 => some .fifoLevel
  | 0x05 => some .errInfo
  | 0x06 => some .params
  | 0x07 => some .held
  | 0x09 => some .cFreq
  | 0x0A => some .cVel
  | 0x0B => some .cBend
  | 0x0C => some .cNote
  | 0x10 => some .oMode
  | 0x11 => some .oFreq
  | 0x12 => some .oPitch
  | 0x13 => some .oPhase
  | 0x14 => some .oInc
  | 0x15 => some .oFlags
  | 0x16 => some .oLast
  | _ => none

/-- The code of a selector (R103). -/
def selectorCode : Selector → BitVec 8
  | .sr => 0x00#8
  | .ctrl => 0x01#8
  | .status => 0x02#8
  | .drops => 0x03#8
  | .fifoLevel => 0x04#8
  | .errInfo => 0x05#8
  | .params => 0x06#8
  | .held => 0x07#8
  | .cFreq => 0x09#8
  | .cVel => 0x0A#8
  | .cBend => 0x0B#8
  | .cNote => 0x0C#8
  | .oMode => 0x10#8
  | .oFreq => 0x11#8
  | .oPitch => 0x12#8
  | .oPhase => 0x13#8
  | .oInc => 0x14#8
  | .oFlags => 0x15#8
  | .oLast => 0x16#8

/-- Scope `O` of R103: the register is one of an oscillator, chosen by `IDX`. -/
def perOscillator : Selector → Bool
  | .sr => false
  | .ctrl => false
  | .status => false
  | .drops => false
  | .fifoLevel => false
  | .errInfo => false
  | .params => false
  | .held => false
  | .cFreq => false
  | .cVel => false
  | .cBend => false
  | .cNote => false
  | .oMode => true
  | .oFreq => true
  | .oPitch => true
  | .oPhase => true
  | .oInc => true
  | .oFlags => true
  | .oLast => true

/-- The selectors `WRCSR` writes: `CTRL`, `STATUS`, `DROPS` (R103, R106). -/
def writableSelector (c : BitVec 8) : Bool := c == 0x01#8 || c == 0x02#8 || c == 0x03#8

/-- A selector and index `RDREG` accepts as an encoding: not reserved, and `IDX = 0` on a global
register (R106). An index out of range of the oscillators is not an encoding error (R265). -/
def readableSelector (sel o : BitVec 8) : Bool :=
  match selectorOfCode sel with
  | none => false
  | some r => perOscillator r || o == 0#8

/-! ### Event words (R99, R100) -/

/-- `TAG`, bits 2:0. -/
def eventTag (e : EventWord) : BitVec 3 := e.extractLsb' 0 3

/-- `KEY`, bits 14:8. -/
def eventKey (e : EventWord) : BitVec 7 := e.extractLsb' 8 7

/-- `VALUE`, bits 127:64. -/
def eventValue (e : EventWord) : F64 := e.extractLsb' 64 64

/-- `EV(tag, key, value) = {value, 49'b0, key, 5'b0, tag}` (R184, R105). -/
def eventWord (tag : BitVec 3) (key : BitVec 7) (value : F64) : EventWord :=
  value ++ 0#49 ++ key ++ 0#5 ++ tag

/-- The kinds of event `TICK` tells apart (R100). -/
inductive EventKind where
  | empty | noteOn | noteOff | pitchBend | controlChange | unhandled
  deriving DecidableEq, Repr

/-- The tag codes of R100. The reserved tags 6 and 7 are applied as Unhandled. -/
def eventKindOfTag (t : BitVec 3) : EventKind :=
  match t.toNat with
  | 0 => .empty
  | 1 => .noteOn
  | 2 => .noteOff
  | 3 => .pitchBend
  | 4 => .controlChange
  | _ => .unhandled

/-- `EMPTY_WORD`: the all-zero word (R100). -/
def EMPTY_WORD : EventWord := 0#128

/-! ### Raw records (R101, R102) -/

/-- `KIND`, bits 3:0. -/
def rawKind (r : RawRecord) : BitVec 4 := r.extractLsb' 0 4

/-- `NUM`, bits 14:8. -/
def rawNum (r : RawRecord) : BitVec 7 := r.extractLsb' 8 7

/-- `VAL7`, bits 22:16. -/
def rawVal7 (r : RawRecord) : BitVec 7 := r.extractLsb' 16 7

/-- `BEND`, bits 63:32, read as a signed number by its users. -/
def rawBend (r : RawRecord) : BitVec 32 := r.extractLsb' 32 32

/-- The kinds of raw record (R102). -/
inductive RawKind where
  | noteOn | noteOff | controller | bend | unrecognised
  deriving DecidableEq, Repr

/-- The kind codes of R102; every other code is an unrecognised record. -/
def rawKindOfCode (c : BitVec 4) : RawKind :=
  match c.toNat with
  | 1 => .noteOn
  | 2 => .noteOff
  | 3 => .controller
  | 4 => .bend
  | _ => .unrecognised

/-! ### Results (R94) -/

/-- A 64-bit value as a result: `RES[63:0]`, with `RES[127:64] = 0` (R94). -/
def resultOf64 (x : BitVec 64) : Wide := x.setWidth 128

end Sys2Proof.Machine
end

