-- ==== Sys2Proof/WellFormed.lean ====
section
/-!
DEFINITION. Which commands are encodings (spec/30_encoding.md R96, R106). `Instr` cannot hold a nonzero
reserved field or a field its format lacks, so what is left to check is the selector of `RDREG` and
`WRCSR`. A command that fails the check answers `ILLEGAL` (R232, R233).
-/

namespace Sys2Proof

/-- `i` is an encoding by R106. -/
def Instr.wellFormed : Instr → Bool
  | .rdreg sel o => Machine.readableSelector sel o
  | .wrcsr sel _ => Machine.writableSelector sel
  | .nop => true
  | .setmode _ _ => true
  | .setfreq _ _ => true
  | .setpitch _ _ => true
  | .mute _ => true
  | .unmute _ => true
  | .usenaive _ _ => true
  | .next _ => true
  | .setsr _ => true
  | .deq => true
  | .tick => true
  | .noteheld _ => true
  | .getfreq => true
  | .getvel => true
  | .getbend => true
  | .getnote => true
  | .runperiod _ => true
  | .penq _ _ _ => true
  | .prawin _ => true

end Sys2Proof
end

