-- ==== Sys2Proof/Decode.lean ====
section
/-!
DEFINITION. Decoding and encoding of commands (spec/30_encoding.md R91 to R98, R105 to R109;
spec/60_exceptions.md R265, R266) and the byte order of a serialised transaction
(spec/20_memory.md R78).
-/

namespace Sys2Proof

/-! ### Command word fields (R92, R95) -/

/-- `OPC` or `POPC`, bits 7:0. -/
def fieldOpc (c : CmdWord) : BitVec 8 := c.extractLsb' 0 8

/-- `IDX`, bits 15:8. -/
def fieldIdx (c : CmdWord) : BitVec 8 := c.extractLsb' 8 8

/-- `SEL`, bits 23:16. -/
def fieldSel (c : CmdWord) : BitVec 8 := c.extractLsb' 16 8

/-- The reserved bits 31:24 of a host command word. -/
def fieldTop (c : CmdWord) : BitVec 8 := c.extractLsb' 24 8

/-- `CMD = {8'h00, SEL, IDX, OPC}` (R109). -/
def commandWord (sel idx opc : BitVec 8) : CmdWord := 0#8 ++ sel ++ idx ++ opc

/-! ### Operand fields (R105) -/

/-- `OPND[63:0]`. -/
def opnd64 (w : Wide) : BitVec 64 := w.extractLsb' 0 64

/-- `OPND[31:0]`. -/
def opnd32 (w : Wide) : BitVec 32 := w.extractLsb' 0 32

/-! ### Opcode maps (R97, R98) -/

/-- A row of the host opcode map: its format, and the command its fields `IDX`, `SEL` and `OPND` give
(R97, R105). -/
def hostRow (opc : BitVec 8) : Option (Format × (BitVec 8 → BitVec 8 → Wide → Instr)) :=
  match opc.toNat with
  | 0x00 => some (.n, fun _ _ _ => .nop)
  | 0x01 => some (.i, fun o _ w => .setmode o (Machine.modeOfCode (w.extractLsb' 0 2)))
  | 0x02 => some (.i, fun o _ w => .setfreq o (opnd64 w))
  | 0x03 => some (.i, fun o _ w => .setpitch o (opnd64 w))
  | 0x04 => some (.i, fun o _ _ => .mute o)
  | 0x05 => some (.i, fun o _ _ => .unmute o)
  | 0x06 => some (.i, fun o _ w => .usenaive o (w.getLsbD 0))
  | 0x07 => some (.i, fun o _ _ => .next o)
  | 0x08 => some (.n, fun _ _ w => .setsr (opnd64 w))
  | 0x10 => some (.n, fun _ _ _ => .deq)
  | 0x11 => some (.n, fun _ _ _ => .tick)
  | 0x12 => some (.i, fun o _ _ => .noteheld o)
  | 0x13 => some (.n, fun _ _ _ => .getfreq)
  | 0x14 => some (.n, fun _ _ _ => .getvel)
  | 0x15 => some (.n, fun _ _ _ => .getbend)
  | 0x16 => some (.n, fun _ _ _ => .getnote)
  | 0x20 => some (.n, fun _ _ w => .runperiod (opnd32 w))
  | 0x30 => some (.is, fun o sel _ => .rdreg sel o)
  | 0x31 => some (.s, fun _ sel w => .wrcsr sel (opnd64 w))
  | _ => none

/-- The format has the field `IDX` (R97). -/
def Format.usesIdx : Format → Bool
  | .n => false
  | .i => true
  | .is => true
  | .s => false

/-- The format has the field `SEL` (R97). -/
def Format.usesSel : Format → Bool
  | .n => false
  | .i => false
  | .is => true
  | .s => true

/-- The host decoder: steps 1 to 4 of R265, in order. Step 5, the selectors of `RDREG` and `WRCSR`, is
in the rules of those two commands (R232, R233), which raise the same `ILLEGAL`. -/
def decodeHost (r : Request) : Except DecodeError Instr :=
  match hostRow (fieldOpc r.cmd) with
  | none => .error .reservedOpcode
  | some (f, build) =>
    if fieldTop r.cmd ≠ 0#8 then .error .reservedBits
    else if fieldIdx r.cmd ≠ 0#8 ∧ f.usesIdx = false then .error .unusedIdx
    else if fieldSel r.cmd ≠ 0#8 ∧ f.usesSel = false then .error .unusedSel
    else .ok (build (fieldIdx r.cmd) (fieldSel r.cmd) r.opnd)

/-- The producer decoder (R98, R266); operand bits are never checked. -/
def decodeProducer (r : Request) : Except DecodeError Instr :=
  match (fieldOpc r.cmd).toNat with
  | 0x01 =>
    if r.cmd.extractLsb' 8 24 ≠ 0#24 then .error .reservedBits
    else .ok (.penq (Machine.eventTag r.opnd) (Machine.eventKey r.opnd) (Machine.eventValue r.opnd))
  | 0x02 =>
    if r.cmd.extractLsb' 8 24 ≠ 0#24 then .error .reservedBits
    else .ok (.prawin (opnd64 r.opnd))
  | _ => .error .reservedOpcode

/-- The decoder of a port (R91, R95). -/
def decodeOn (p : Port) (r : Request) : Except DecodeError Instr :=
  match p with
  | .host => decodeHost r
  | .producer => decodeProducer r

/-! ### Encoding -/

/-- The transaction of a command on its port: the word by R97, R98 and R109, the operand by R105 with
every bit the command does not read at zero. -/
def encode (i : Instr) : Request :=
  match i with
  | .nop => ⟨commandWord 0#8 0#8 0x00#8, 0#128⟩
  | .setmode o m => ⟨commandWord 0#8 o 0x01#8, (Machine.modeCode m).setWidth 128⟩
  | .setfreq o x => ⟨commandWord 0#8 o 0x02#8, x.setWidth 128⟩
  | .setpitch o x => ⟨commandWord 0#8 o 0x03#8, x.setWidth 128⟩
  | .mute o => ⟨commandWord 0#8 o 0x04#8, 0#128⟩
  | .unmute o => ⟨commandWord 0#8 o 0x05#8, 0#128⟩
  | .usenaive o b => ⟨commandWord 0#8 o 0x06#8, if b then 1#128 else 0#128⟩
  | .next o => ⟨commandWord 0#8 o 0x07#8, 0#128⟩
  | .setsr x => ⟨commandWord 0#8 0#8 0x08#8, x.setWidth 128⟩
  | .deq => ⟨commandWord 0#8 0#8 0x10#8, 0#128⟩
  | .tick => ⟨commandWord 0#8 0#8 0x11#8, 0#128⟩
  | .noteheld n => ⟨commandWord 0#8 n 0x12#8, 0#128⟩
  | .getfreq => ⟨commandWord 0#8 0#8 0x13#8, 0#128⟩
  | .getvel => ⟨commandWord 0#8 0#8 0x14#8, 0#128⟩
  | .getbend => ⟨commandWord 0#8 0#8 0x15#8, 0#128⟩
  | .getnote => ⟨commandWord 0#8 0#8 0x16#8, 0#128⟩
  | .runperiod n => ⟨commandWord 0#8 0#8 0x20#8, n.setWidth 128⟩
  | .rdreg sel o => ⟨commandWord sel o 0x30#8, 0#128⟩
  | .wrcsr sel v => ⟨commandWord sel 0#8 0x31#8, v.setWidth 128⟩
  | .penq tag key x => ⟨commandWord 0#8 0#8 0x01#8, Machine.eventWord tag key x⟩
  | .prawin rec => ⟨commandWord 0#8 0#8 0x02#8, rec.setWidth 128⟩

/-- The command word of a command. Since decoding refuses every other bit (R96), it is the word the
command was decoded from, and `ERR_INFO` records it (R262). -/
def cmdOf (i : Instr) : CmdWord := (encode i).cmd

/-! ### Byte-wide channels (R78) -/

/-- The `n` bytes of a word, least significant byte first: byte `k` is bits `8k+7:8k` (R78). -/
def bytesOfWord {w : Nat} (n : Nat) (v : BitVec w) : List Byte :=
  (List.range n).map fun k => v.extractLsb' (8 * k) 8

/-- The number whose bytes, least significant first, are the list. -/
def natOfBytes : List Byte → Nat
  | [] => 0
  | b :: bs => b.toNat + 256 * natOfBytes bs

/-- A transaction on a byte-wide channel: the command word, then the operand (that order is
notes/assumptions/15.md; each word's bytes are R78's). -/
def bytesOfRequest (r : Request) : List Byte := bytesOfWord 4 r.cmd ++ bytesOfWord 16 r.opnd

/-- The transaction at the head of a byte stream, and the bytes after it. -/
def requestOfBytes (bs : List Byte) : Option (Request × List Byte) :=
  if bs.length < 20 then none
  else some (⟨BitVec.ofNat 32 (natOfBytes (bs.take 4)), BitVec.ofNat 128 (natOfBytes ((bs.drop 4).take 16))⟩,
    bs.drop 20)

/-- Decoding of any bytes on a port: every transaction has the same length (R108). -/
def decodeBytes (p : Port) (bs : List Byte) : Except DecodeError (Instr × List Byte) :=
  match requestOfBytes bs with
  | none => .error .truncated
  | some (r, rest) =>
    match decodeOn p r with
    | .error e => .error e
    | .ok i => .ok (i, rest)

/-! ### A table word (notes/assumptions/5.md) -/

/-- The port a numbered transaction is on: bit 160, the first bit above the command word and the
operand, is 0 for the host port and 1 for the producer port. A word of the opcode table is 32 bits
long, so it is read on the host command port. -/
def tablePort (v : Nat) : Port := if v.testBit 160 then .producer else .host

/-- A numbered transaction: bits 31:0 are the command word and bits 159:32 the operand. -/
def tableRequest (v : Nat) : Request := ⟨BitVec.ofNat 32 v, BitVec.ofNat 128 (v / 2 ^ 32)⟩

/-- The command the decoder reads from the table word `w` of `nbits` bits. -/
def decodeTableWord (nbits w : Nat) : Option Instr :=
  match decodeOn (tablePort (w % 2 ^ nbits)) (tableRequest (w % 2 ^ nbits)) with
  | .ok i => some i
  | .error _ => none

end Sys2Proof
end

