-- ==== Sys2Proof/Machine/Float.lean ====
section
/-!
DEFINITION. Binary64 arithmetic as spec/00_scope.md R11 to R17 gives it: one rounding function, and
every operation computed exactly before it is rounded.

A finite binary64 value is an integer number of *units*, one unit being 2^-1074, the smallest
subnormal. Every exact result is a ratio of two natural numbers of units with a sign, and
`roundRatio` is the only place where a value is rounded.
-/

namespace Sys2Proof.Machine

/-! ### Fields and classes (R11, R13) -/

/-- The biased exponent, bits 62:52 (R11). -/
def expField (x : F64) : BitVec 11 := x.extractLsb' 52 11

/-- The fraction, bits 51:0 (R11). -/
def fracField (x : F64) : BitVec 52 := x.extractLsb' 0 52

/-- The sign bit, bit 63 (R11). -/
def signBit (x : F64) : Bool := x.getLsbD 63

/-- True exactly for NaN encodings (R13). -/
def isNaN (x : F64) : Bool := expField x == 0x7FF#11 && fracField x != 0#52

/-- True exactly for the two infinities (R11). -/
def isInf (x : F64) : Bool := expField x == 0x7FF#11 && fracField x == 0#52

/-- True exactly for values that are neither infinite nor NaN (R11). -/
def isFinite (x : F64) : Bool := expField x != 0x7FF#11

/-- The magnitude in units of 2^-1074. Subnormals have exponent field 0 and no hidden bit (R11, R12).
On an infinity it is 2^2098 units, above every finite magnitude, so that comparison needs no case. -/
def magUnits (x : F64) : Nat :=
  if expField x = 0#11 then (fracField x).toNat
  else (2 ^ 52 + (fracField x).toNat) <<< ((expField x).toNat - 1)

/-- The signed value in units of 2^-1074. -/
def units (x : F64) : Int := if signBit x then -(magUnits x : Int) else (magUnits x : Int)

/-- `1.0` in units: a name, so that no proof meets the 1075-bit numeral by accident. -/
def oneUnits : Nat := 2 ^ 1074

/-! ### Constants (R14, R16) -/

/-- The canonical quiet NaN (R14). -/
def CNAN : F64 := 0x7FF8000000000000#64
/-- `+0.0`. -/
def PZERO : F64 := 0#64
/-- `−0.0`. -/
def NZERO : F64 := 0x8000000000000000#64
/-- `+infinity`. -/
def PINF : F64 := 0x7FF0000000000000#64
/-- `−infinity`. -/
def NINF : F64 := 0xFFF0000000000000#64
/-- `PI` (R16). -/
def PI : F64 := 0x400921FB54442D18#64
/-- `TWO_PI` (R16). -/
def TWO_PI : F64 := 0x401921FB54442D18#64
/-- `HALF = 0.5` (R16). -/
def HALF : F64 := 0x3FE0000000000000#64
/-- `ONE = 1.0` (R16). -/
def ONE : F64 := 0x3FF0000000000000#64
/-- `−1.0`, also `SILENT` (R16). -/
def MINUS_ONE : F64 := 0xBFF0000000000000#64
/-- `TWO = 2.0` (R16). -/
def TWO : F64 := 0x4000000000000000#64
/-- `FOURTEEN = 14.0` (R16). -/
def FOURTEEN : F64 := 0x402C000000000000#64
/-- `A4_HZ = 440.0` (R16). -/
def A4_HZ : F64 := 0x407B800000000000#64
/-- `TWELVE = 12.0` (R16). -/
def TWELVE : F64 := 0x4028000000000000#64
/-- `V_SCALE = 127.0` (R16). -/
def V_SCALE : F64 := 0x405FC00000000000#64
/-- `B_SCALE = 8192.0` (R16). -/
def B_SCALE : F64 := 0x40C0000000000000#64
/-- `SILENT = −1.0`, the silence sentinel of `C_FREQ` (R16, R34). -/
def SILENT : F64 := 0xBFF0000000000000#64
/-- `SR_RESET = 44100.0` (R16, R292). -/
def SR_RESET : F64 := 0x40E5888000000000#64
/-- The upper end of the range `SETSR` accepts, 4294967296.0 (R139). -/
def SR_MAX : F64 := 0x41F0000000000000#64

/-! ### Rounding (R12) -/

/-- `num / den` rounded to an integer, ties to even. -/
def divNearestEven (num den : Nat) : Nat :=
  let q := num / den
  let r := num % den
  if 2 * r < den then q
  else if den < 2 * r then q + 1
  else q + q % 2

/-- How many binary places above one unit the last kept bit of a magnitude of `q` whole units stands:
53 significant bits are kept (R11), and below 2^53 units the last bit is the unit itself. -/
def roundShift (q : Nat) : Nat := Nat.log2 q - 52

/-- The bits 62:0 of the binary64 value nearest to `num / den` units, ties to even, overflowing to
infinity, subnormals kept (R12). A rounding up to the next power of two carries into the exponent
field, which is the encoding of that power. -/
def roundMag (num den : Nat) : Nat :=
  let sh := roundShift (num / den)
  min (divNearestEven num (den <<< sh) + sh * 2 ^ 52) 0x7FF0000000000000

/-- `bits` with the sign bit set when `neg` holds. -/
def withSign (neg : Bool) (bits : Nat) : F64 :=
  BitVec.ofNat 64 (if neg then bits + 2 ^ 63 else bits)

/-- `RN` of the real number `±(num / den)` units (R12). -/
def roundRatio (neg : Bool) (num den : Nat) : F64 := withSign neg (roundMag num den)

/-! ### Operations (R12, R14, R15) -/

/-- Sign reversal: exact, and of the sign bit alone (R12). -/
def fneg (x : F64) : F64 := x ^^^ 0x8000000000000000#64

/-- `abs(x)` clears the sign bit (R13). -/
def fabs (x : F64) : F64 := x &&& 0x7FFFFFFFFFFFFFFF#64

/-- `RN` of a sum that is `u` units exactly. An exact zero is `−0.0` only when both operands are
negative (IEEE 754 in round-to-nearest, R12). -/
def roundSum (bothNegative : Bool) (u : Int) : F64 :=
  if u = 0 then (if bothNegative then NZERO else PZERO)
  else roundRatio (decide (u < 0)) u.natAbs 1

/-- `RN(x + y)` (R12, R14). -/
def fadd (x y : F64) : F64 :=
  if isNaN x || isNaN y then CNAN
  else if isInf x then (if isInf y && signBit x != signBit y then CNAN else x)
  else if isInf y then y
  else roundSum (signBit x && signBit y) (units x + units y)

/-- `RN(x − y)` (R12, R14). -/
def fsub (x y : F64) : F64 :=
  if isNaN y then CNAN else fadd x (fneg y)

/-- `RN(x × y)` (R12, R14). -/
def fmul (x y : F64) : F64 :=
  let neg := signBit x != signBit y
  if isNaN x || isNaN y then CNAN
  else if isInf x || isInf y then
    (if magUnits x = 0 || magUnits y = 0 then CNAN else withSign neg PINF.toNat)
  else roundRatio neg (magUnits x * magUnits y) oneUnits

/-- `RN(x / y)` (R12, R14). Division by zero cannot arise from the spec's rules (R49); the IEEE 754
result stands here so that the function is total. -/
def fdiv (x y : F64) : F64 :=
  let neg := signBit x != signBit y
  if isNaN x || isNaN y then CNAN
  else if isInf x then (if isInf y then CNAN else withSign neg PINF.toNat)
  else if isInf y then withSign neg 0
  else if magUnits y = 0 then (if magUnits x = 0 then CNAN else withSign neg PINF.toNat)
  else roundRatio neg (magUnits x * oneUnits) (magUnits y)

/-- `f64(k)`, exact for `|k| <= 2^53` (R15). -/
def ofInt (k : Int) : F64 := roundRatio (decide (k < 0)) (k.natAbs * oneUnits) 1

/-- The binary64 value `2^k` for `−1074 <= k <= 1023`: a subnormal with one fraction bit below
2^-1022, else exponent field `k + 1023` (R11, R19). -/
def pow2 (k : Int) : F64 :=
  if k < -1022 then BitVec.ofNat 64 (1 <<< (k + 1074).toNat)
  else BitVec.ofNat 64 ((k + 1023).toNat <<< 52)

/-! ### Comparisons (R13): ordered, false with a NaN operand, `−0.0 == +0.0` -/

/-- `x < y`. -/
def flt (x y : F64) : Bool := !isNaN x && !isNaN y && decide (units x < units y)

/-- `x <= y`. -/
def fle (x y : F64) : Bool := !isNaN x && !isNaN y && decide (units x ≤ units y)

/-- `x == y`. -/
def feq (x y : F64) : Bool := !isNaN x && !isNaN y && decide (units x = units y)

/-- `x > y`. -/
def fgt (x y : F64) : Bool := flt y x

/-- `x >= y`. -/
def fge (x y : F64) : Bool := fle y x

/-- `frac1(x)` for `x` in `[0, 2)` (R17). -/
def frac1 (x : F64) : F64 := if fge x ONE then fsub x ONE else x

/-! ### Exactness: what is representable is not changed by rounding -/

theorem expField_ofNat (b : Nat) : (expField (BitVec.ofNat 64 b)).toNat = b / 2 ^ 52 % 2 ^ 11 := by
  simp only [expField, BitVec.extractLsb'_toNat, BitVec.toNat_ofNat, Nat.shiftRight_eq_div_pow]
  omega

theorem fracField_ofNat (b : Nat) : (fracField (BitVec.ofNat 64 b)).toNat = b % 2 ^ 52 := by
  simp only [fracField, BitVec.extractLsb'_toNat, BitVec.toNat_ofNat, Nat.shiftRight_eq_div_pow]
  omega

theorem expField_eq_zero_iff (x : F64) : expField x = 0#11 ↔ (expField x).toNat = 0 :=
  ⟨fun h => by rw [h]; rfl, fun h => BitVec.eq_of_toNat_eq (by simpa using h)⟩

/-- The magnitude of `bits`, field by field. -/
theorem magUnits_ofNat (b : Nat) (h : b < 2 ^ 63) : magUnits (BitVec.ofNat 64 b) =
    if b / 2 ^ 52 = 0 then b % 2 ^ 52 else (2 ^ 52 + b % 2 ^ 52) * 2 ^ (b / 2 ^ 52 - 1) := by
  have he : b / 2 ^ 52 % 2 ^ 11 = b / 2 ^ 52 := by omega
  simp only [magUnits, expField_eq_zero_iff, expField_ofNat, fracField_ofNat, he, Nat.shiftLeft_eq]

/-- A magnitude encoded with `k` units of `2^sh` is `k * 2^sh` units, for `k` of at most 53 bits and
with its top bit set where `sh` is not 0. -/
theorem magUnits_encoded (k sh : Nat) (hk : k < 2 ^ 53) (hs : sh ≤ 2045)
    (hn : sh = 0 ∨ 2 ^ 52 ≤ k) : magUnits (BitVec.ofNat 64 (k + sh * 2 ^ 52)) = k * 2 ^ sh := by
  rw [magUnits_ofNat _ (by omega)]
  split
  · have : sh = 0 := by omega
    subst this
    omega
  · rw [show 2 ^ 52 + (k + sh * 2 ^ 52) % 2 ^ 52 = k by omega,
      show (k + sh * 2 ^ 52) / 2 ^ 52 - 1 = sh by omega]

theorem divNearestEven_exact (k d : Nat) (hd : 0 < d) : divNearestEven (k * d) d = k := by
  simp [divNearestEven, Nat.mul_div_cancel k hd, hd]

/-- A whole number of units of at most 53 significant bits is rounded to itself (R12). -/
theorem roundMag_exact (k sh : Nat) (hk : k < 2 ^ 53) (hs : sh ≤ 2045) (hn : sh = 0 ∨ 2 ^ 52 ≤ k) :
    roundMag (k * 2 ^ sh) 1 = k + sh * 2 ^ 52 := by
  have hlog : roundShift (k * 2 ^ sh) = sh := by
    unfold roundShift
    rcases hn with rfl | hn
    · have : Nat.log2 k < 53 := by
        rcases Nat.eq_zero_or_pos k with rfl | h0
        · decide
        · exact (Nat.log2_lt (by omega)).2 hk
      simp only [pow_zero, mul_one]; omega
    · have h1 : Nat.log2 (k * 2 ^ sh) = 52 + sh := by
        rw [Nat.log2_eq_iff (by positivity)]
        constructor
        · rw [pow_add]; exact Nat.mul_le_mul_right _ hn
        · rw [show 52 + sh + 1 = 53 + sh by omega, pow_add]
          exact Nat.mul_lt_mul_of_pos_right hk (by positivity)
      omega
  simp only [roundMag, Nat.div_one, hlog, Nat.shiftLeft_eq, one_mul,
    divNearestEven_exact k (2 ^ sh) (by positivity)]
  omega

theorem signBit_eq_decide (x : F64) : signBit x = decide (2 ^ 63 ≤ x.toNat) := by
  have := BitVec.msb_eq_decide x
  simpa [signBit, BitVec.msb_eq_getLsbD_last] using this

theorem signBit_withSign (neg : Bool) (b : Nat) (h : b < 2 ^ 63) : signBit (withSign neg b) = neg := by
  cases neg <;> simp [signBit_eq_decide, withSign] <;> omega

theorem magUnits_withSign (neg : Bool) (b : Nat) :
    magUnits (withSign neg b) = magUnits (BitVec.ofNat 64 b) := by
  cases neg
  · rfl
  · simp only [withSign, if_true, magUnits, expField_eq_zero_iff, expField_ofNat, fracField_ofNat]
    rw [show (b + 2 ^ 63) / 2 ^ 52 % 2 ^ 11 = b / 2 ^ 52 % 2 ^ 11 by omega,
      show (b + 2 ^ 63) % 2 ^ 52 = b % 2 ^ 52 by omega]

theorem units_withSign (neg : Bool) (b : Nat) (h : b < 2 ^ 63) : units (withSign neg b) =
    if neg then -(magUnits (BitVec.ofNat 64 b) : Int) else (magUnits (BitVec.ofNat 64 b) : Int) := by
  simp only [units, signBit_withSign neg b h, magUnits_withSign neg b]

theorem isNaN_withSign (neg : Bool) (b : Nat) (h : b ≤ 0x7FF0000000000000) :
    isNaN (withSign neg b) = false := by
  have key : ∀ c : Nat, c < 2 ^ 64 → c % 2 ^ 63 ≤ 0x7FF0000000000000 →
      isNaN (BitVec.ofNat 64 c) = false := by
    intro c hc hle
    by_cases he : expField (BitVec.ofNat 64 c) = 0x7FF#11
    · have h1 : (expField (BitVec.ofNat 64 c)).toNat = 2047 := by rw [he]; rfl
      have h2 : (fracField (BitVec.ofNat 64 c)).toNat = 0 := by
        rw [fracField_ofNat]; rw [expField_ofNat] at h1; omega
      have h3 : fracField (BitVec.ofNat 64 c) = 0#52 := BitVec.eq_of_toNat_eq (by simpa using h2)
      simp [isNaN, h3]
    · simp [isNaN, he]
  cases neg
  · exact key b (by omega) (by omega)
  · exact key (b + 2 ^ 63) (by omega) (by omega)

theorem normalised (m : Nat) (h0 : 0 < m) (hm : m < 2 ^ 53) : ∃ c sh, m * oneUnits = c * 2 ^ sh ∧
    2 ^ 52 ≤ c ∧ c < 2 ^ 53 ∧ sh < 1075 := by
  have hl : Nat.log2 m < 53 := (Nat.log2_lt (by omega)).2 hm
  have hb := (Nat.log2_eq_iff (by omega : m ≠ 0)).1 rfl
  refine ⟨m * 2 ^ (52 - Nat.log2 m), 1022 + Nat.log2 m, ?_, ?_, ?_, by omega⟩
  · rw [mul_assoc, ← pow_add, show 52 - Nat.log2 m + (1022 + Nat.log2 m) = 1074 by omega, oneUnits]
  · calc 2 ^ 52 = 2 ^ Nat.log2 m * 2 ^ (52 - Nat.log2 m) := by
          rw [← pow_add, show Nat.log2 m + (52 - Nat.log2 m) = 52 by omega]
      _ ≤ _ := Nat.mul_le_mul_right _ hb.1
  · calc m * 2 ^ (52 - Nat.log2 m) < 2 ^ (Nat.log2 m + 1) * 2 ^ (52 - Nat.log2 m) :=
          Nat.mul_lt_mul_of_pos_right hb.2 (by positivity)
      _ = 2 ^ 53 := by rw [← pow_add, show Nat.log2 m + 1 + (52 - Nat.log2 m) = 53 by omega]

theorem roundMag_integer (m : Nat) (hm : m < 2 ^ 53) : ∃ b, b < 0x7FE0000000000000 ∧
    roundMag (m * oneUnits) 1 = b ∧ magUnits (BitVec.ofNat 64 b) = m * oneUnits := by
  rcases Nat.eq_zero_or_pos m with rfl | h0
  · refine ⟨0, by omega, ?_, ?_⟩
    · rw [Nat.zero_mul]; decide
    · rw [Nat.zero_mul]; decide
  · obtain ⟨c, sh, e, h1, h2, h3⟩ := normalised m h0 hm
    rw [e]
    exact ⟨c + sh * 2 ^ 52, by omega, roundMag_exact c sh h2 (by omega) (Or.inr h1),
      magUnits_encoded c sh h2 (by omega) (Or.inr h1)⟩

/-- R15: the conversion of an integer below 2^53 in magnitude is exact. -/
theorem units_ofInt (k : Int) (h : k.natAbs < 2 ^ 53) :
    units (ofInt k) = k * (oneUnits : Int) ∧ isNaN (ofInt k) = false := by
  obtain ⟨b, hb, hr, hm⟩ := roundMag_integer k.natAbs h
  unfold ofInt roundRatio
  rw [hr, units_withSign _ _ (by omega), isNaN_withSign _ _ (by omega), hm, Nat.cast_mul]
  generalize oneUnits = u
  refine ⟨?_, rfl⟩
  rcases lt_or_ge k 0 with hk | hk
  · rw [decide_eq_true hk, if_pos rfl, Int.natCast_natAbs, abs_of_neg hk]; ring
  · rw [decide_eq_false (by omega), if_neg (by simp), Int.natCast_natAbs, abs_of_nonneg hk]

/-- `pow2 k` is `2^(k + 1074)` units (R19). -/
theorem units_pow2 (k : Int) (h1 : -1074 ≤ k) (h2 : k ≤ 1023) :
    units (pow2 k) = ((2 ^ (k + 1074).toNat : Nat) : Int) ∧ isNaN (pow2 k) = false := by
  have key : ∃ b, b ≤ 0x7FE0000000000000 ∧ pow2 k = withSign false b ∧
      magUnits (BitVec.ofNat 64 b) = 2 ^ (k + 1074).toNat := by
    unfold pow2
    split
    · have hlt : 2 ^ (k + 1074).toNat < 2 ^ 52 := Nat.pow_lt_pow_right (by omega) (by omega)
      rw [Nat.shiftLeft_eq, one_mul]
      generalize 2 ^ (k + 1074).toNat = c at hlt ⊢
      refine ⟨c, by omega, rfl, ?_⟩
      simpa using magUnits_encoded c 0 (by omega) (by omega) (Or.inl rfl)
    · refine ⟨2 ^ 52 + (k + 1022).toNat * 2 ^ 52, by omega, ?_, ?_⟩
      · simp only [withSign, Nat.shiftLeft_eq]
        rw [show (k + 1023).toNat * 2 ^ 52 = 2 ^ 52 + (k + 1022).toNat * 2 ^ 52 by omega]; simp
      · rw [magUnits_encoded (2 ^ 52) (k + 1022).toNat (by omega) (by omega) (Or.inr le_rfl), ← pow_add,
          show 52 + (k + 1022).toNat = (k + 1074).toNat by omega]
  obtain ⟨b, hb, he, hm⟩ := key
  rw [he, units_withSign _ _ (by omega), isNaN_withSign _ _ (by omega), hm]
  exact ⟨by simp, rfl⟩

end Sys2Proof.Machine
end

