-- ==== Sys2Proof/Config.lean ====
section
/-!
DEFINITION. What the configuration of a block fixes (spec/00_scope.md R7, R18, R19): the two functions
`SIN` and `EXP2`, of which a model assumes only the listed properties, and the default sizes.

`SIN` and `EXP2` are free: an opaque constant with no body, of the type of all functions with the
properties of R18 and R19. Nothing in Lean can evaluate one, so what is proved of the machine holds
for every admissible realisation (table, CORDIC, polynomial). See notes/assumptions/9.md.
-/

namespace Sys2Proof.Config

open Sys2Proof.Machine

/-- `NUM_OSC`, default 1 (R7). State carries the number itself; this is the value reset uses. -/
def defaultNumOsc : Nat := 1

/-- `FIFO_DEPTH`, default 64 (R7). State carries the number itself; this is the value reset uses. -/
def defaultFifoDepth : Nat := 64

/-- The legal values of `FIFO_DEPTH`: a power of two in `2..2^16` (R7). -/
def legalDepth (d : Nat) : Bool := (List.range 16).any fun k => d == 2 ^ (k + 1)

/-- The domain of `SIN`: binary64 `x` with `0 <= x < TWO_PI` (R18). -/
def inSinDomain (x : F64) : Bool := fle PZERO x && flt x TWO_PI

/-- A function with properties (a) and (b) of R18. -/
structure SinFun where
  /-- The function. -/
  fn : F64 → F64
  /-- R18(a): a non-NaN value in `[−1, 1]`, for every argument of the domain. -/
  range : ∀ x, inSinDomain x = true → fle MINUS_ONE (fn x) = true ∧ fle (fn x) ONE = true
  /-- R18(b). -/
  zero : fn PZERO = PZERO

/-- A function with properties (a), (b), (d) of R19 and the sign part of (c). -/
structure Exp2Fun where
  /-- The function. -/
  fn : F64 → F64
  /-- R19(a): exact powers of two at the integers. -/
  exact : ∀ k : Int, -1074 ≤ k → k ≤ 1023 → fn (ofInt k) = pow2 k
  /-- R19(b), at `+inf`. -/
  posInf : fn PINF = PINF
  /-- R19(b), at NaN. -/
  nan : ∀ x, isNaN x = true → fn x = CNAN
  /-- R19(c), first half: positive or `+inf` at every finite argument. -/
  pos : ∀ x, isFinite x = true → flt PZERO (fn x) = true
  /-- R19(d). -/
  mono : ∀ x y, fle x y = true → fle (fn x) (fn y) = true

/-- The configuration's `SIN` with its properties: free (R7, R18, D3). -/
opaque sinParam [Inhabited SinFun] : SinFun

/-- The configuration's `EXP2` with its properties: free (R7, R19, D4). -/
opaque exp2Param [Inhabited Exp2Fun] : Exp2Fun

/-! ### The properties can be met

`opaque` asks for proof that the type is inhabited. The two functions built here are that proof and
nothing else: the machine never calls them, and no theorem can tell `SIN` or `EXP2` from any other
admissible function. -/

/-- A function with the properties of R18. -/
def someSin : SinFun where
  fn := fun _ => PZERO
  range := fun _ _ => by decide
  zero := rfl

/-- The largest integer not above `x`, held in `−1074..1023`. -/
def clampedFloor (x : F64) : Int := max (-1074) (min 1023 (units x / (oneUnits : Int)))

/-- `2` to the floor of `x`, and `+inf` at `+inf`. -/
def floorExp2 (x : F64) : F64 :=
  if isNaN x then CNAN else if units PINF ≤ units x then PINF else pow2 (clampedFloor x)

theorem clampedFloor_lower (x : F64) : -1074 ≤ clampedFloor x := le_max_left _ _

theorem clampedFloor_upper (x : F64) : clampedFloor x ≤ 1023 := max_le (by decide) (min_le_left _ _)

theorem units_pinf : units PINF = ((2 ^ 2098 : Nat) : Int) := by decide +kernel

theorem pow2_le_pinf (k : Int) (h1 : -1074 ≤ k) (h2 : k ≤ 1023) : units (pow2 k) ≤ units PINF := by
  rw [(units_pow2 k h1 h2).1, units_pinf]
  exact_mod_cast Nat.pow_le_pow_right (n := 2) (by omega) (by omega)

theorem floorExp2_exact (k : Int) (h1 : -1074 ≤ k) (h2 : k ≤ 1023) :
    floorExp2 (ofInt k) = pow2 k := by
  obtain ⟨hu, hn⟩ := units_ofInt k (by omega)
  have hlt : ¬ units PINF ≤ units (ofInt k) := by
    rw [hu, units_pinf, not_le]
    have h : k * (oneUnits : Int) ≤ ((1023 * 2 ^ 1074 : Nat) : Int) := by
      push_cast [oneUnits]
      exact mul_le_mul_of_nonneg_right h2 (by positivity)
    refine lt_of_le_of_lt h ?_
    exact_mod_cast (by decide +kernel : 1023 * 2 ^ 1074 < 2 ^ 2098)
  have hf : clampedFloor (ofInt k) = k := by
    unfold clampedFloor
    rw [hu, Int.mul_ediv_cancel _ (by unfold oneUnits; positivity)]
    omega
  rw [floorExp2, hn, if_neg (by simp), if_neg hlt, hf]

/-- On a number, `floorExp2` is a number of at least one unit and at most `+inf`. -/
theorem floorExp2_bounds {x : F64} (hx : isNaN x = false) :
    isNaN (floorExp2 x) = false ∧ 0 < units (floorExp2 x) ∧ units (floorExp2 x) ≤ units PINF := by
  have hu := units_pow2 _ (clampedFloor_lower x) (clampedFloor_upper x)
  rw [floorExp2, hx, if_neg (by simp)]
  split
  · decide +kernel
  · exact ⟨hu.2, by rw [hu.1]; positivity, pow2_le_pinf _ (clampedFloor_lower x) (clampedFloor_upper x)⟩

theorem floorExp2_pos (x : F64) (h : isFinite x = true) : flt PZERO (floorExp2 x) = true := by
  have hn : isNaN x = false := by
    simp only [isFinite, bne_iff_ne, ne_eq] at h
    simp [isNaN, h]
  have hb := floorExp2_bounds hn
  rw [flt, hb.1, show isNaN PZERO = false by decide, show units PZERO = 0 by decide]
  simpa using hb.2.1

theorem floorExp2_mono (x y : F64) (h : fle x y = true) : fle (floorExp2 x) (floorExp2 y) = true := by
  simp only [fle, Bool.and_eq_true, Bool.not_eq_true', decide_eq_true_eq] at h ⊢
  obtain ⟨⟨hx, hy⟩, hu⟩ := h
  refine ⟨⟨(floorExp2_bounds hx).1, (floorExp2_bounds hy).1⟩, ?_⟩
  by_cases hyp : units PINF ≤ units y
  · rw [show floorExp2 y = PINF by rw [floorExp2, hy, if_neg (by simp), if_pos hyp]]
    exact (floorExp2_bounds hx).2.2
  have hxp : ¬ units PINF ≤ units x := by omega
  rw [floorExp2, hx, if_neg (by simp), if_neg hxp, floorExp2, hy, if_neg (by simp), if_neg hyp,
    (units_pow2 _ (clampedFloor_lower x) (clampedFloor_upper x)).1,
    (units_pow2 _ (clampedFloor_lower y) (clampedFloor_upper y)).1]
  have hd : units x / (oneUnits : Int) ≤ units y / (oneUnits : Int) :=
    Int.ediv_le_ediv (by unfold oneUnits; positivity) hu
  have hc : clampedFloor x ≤ clampedFloor y := by unfold clampedFloor; omega
  exact_mod_cast Nat.pow_le_pow_right (n := 2) (by omega) (by omega)

/-- A function with the properties of R19. -/
def someExp2 : Exp2Fun where
  fn := floorExp2
  exact := floorExp2_exact
  posInf := by decide +kernel
  nan := fun x h => by simp [floorExp2, h]
  pos := floorExp2_pos
  mono := floorExp2_mono

/-! ### The functions the machine calls -/

/-- `SIN` (R18). -/
def SIN (x : F64) : F64 := (@sinParam ⟨someSin⟩).fn x

/-- `EXP2` (R19). -/
def EXP2 (x : F64) : F64 := (@exp2Param ⟨someExp2⟩).fn x

/-! ### The named accuracies

`SIN_ERR` and `EXP2_ERR` are open non-negative reals (R18(c), R19(c)). The two properties are stated
for an accuracy that a claim takes as an argument; no accuracy is built into the machine. -/

/-- R18(c): `SIN` is within `sinErr` of the real sine on its domain. -/
def SinWithin (sinErr : ℝ) : Prop :=
  0 ≤ sinErr ∧ ∀ x : F64, inSinDomain x = true →
    |((units (SIN x) : ℤ) : ℝ) / oneUnits - Real.sin (((units x : ℤ) : ℝ) / oneUnits)| ≤ sinErr

/-- R19(c), second half: `EXP2` is within the relative error `exp2Err` of the real power of two at
every finite argument at which it is finite. -/
def Exp2Within (exp2Err : ℝ) : Prop :=
  0 ≤ exp2Err ∧ ∀ x : F64, isFinite x = true → isFinite (EXP2 x) = true →
    |((units (EXP2 x) : ℤ) : ℝ) / oneUnits - (2 : ℝ) ^ (((units x : ℤ) : ℝ) / oneUnits)|
      ≤ exp2Err * (2 : ℝ) ^ (((units x : ℤ) : ℝ) / oneUnits)

end Sys2Proof.Config
end

