-- ==== Sys2Proof/Machine/Numeric.lean ====
section
/-!
DEFINITION. The numeric functions of the rules, on binary64 values alone: the pitch path
(spec/40_oscillator.md R131, R132), the waveforms (R144 to R149), the phase advance (R150) and the note
frequency (spec/41_event_controller.md R190). Every operation is written in the order of the rule.
-/

namespace Sys2Proof.Machine

/-! ### Pitch (R131, R132) -/

/-- `DEVIATION(p)` (R131). -/
def deviation (p : F64) : F64 :=
  if isNaN p then CNAN
  else if feq p PZERO then PZERO
  else
    let g := fsub (Config.EXP2 (fmul (fabs p) FOURTEEN)) ONE
    if fgt p PZERO then g else fneg g

/-- The effective frequency of `UPDATE_INC`: the clamp of `FREQ + DEVIATION(PITCH)` to `0..SR/2` (R132). -/
def effectiveFreq (sr freq pitch : F64) : F64 :=
  let f := fadd freq (deviation pitch)
  let nyq := fmul sr HALF
  if !fgt f PZERO then PZERO
  else if fgt f nyq then nyq
  else f

/-- The increment `UPDATE_INC` computes: `RN(RN(eff × TWO_PI) / SR)` (R132). -/
def incrementOf (sr freq pitch : F64) : F64 :=
  fdiv (fmul (effectiveFreq sr freq pitch) TWO_PI) sr

/-- `NOTEFREQ(n)` (R190). -/
def noteFreq (n : BitVec 7) : F64 :=
  fmul A4_HZ (Config.EXP2 (fdiv (ofInt ((n.toNat : Int) - 69)) TWELVE))

/-! ### Waveforms (R141, R144 to R149) -/

/-- A phase or an increment in turns: `t` and `dt` of R141. -/
def turns (x : F64) : F64 := fdiv x TWO_PI

/-- The ramp from −1 to 1 over one period (R144). -/
def ramp (t : F64) : F64 := fsub (fmul TWO t) ONE

/-- `NAIVE(m, P, t)` (R144). -/
def naiveWave (m : Mode) (p t : F64) : F64 :=
  match m with
  | .sine => Config.SIN p
  | .saw => ramp t
  | .square => if flt p PI then ONE else MINUS_ONE
  | .triangle => fmul TWO (fsub (fabs (ramp t)) HALF)

/-- `BLEP(t, dt)` (R145). -/
def blep (t dt : F64) : F64 :=
  if flt t dt then
    let u := fdiv t dt
    fsub (fsub (fadd u u) (fmul u u)) ONE
  else if fgt t (fsub ONE dt) then
    let u := fdiv (fsub t ONE) dt
    fadd (fadd (fadd (fmul u u) u) u) ONE
  else PZERO

/-- `BL_SAW(t, dt)` (R146). -/
def blSaw (p t dt : F64) : F64 := fsub (naiveWave .saw p t) (blep t dt)

/-- `BL_SQUARE(P, t, dt)` (R148). -/
def blSquare (p t dt : F64) : F64 :=
  let v := fadd (naiveWave .square p t) (blep t dt)
  let s := frac1 (fadd t HALF)
  fsub v (blep s dt)

/-- The leaky integrator of `BL_TRIANGLE`: the new `LAST`, from `k = INC`, the corrected square value
and the old `LAST` (R149). -/
def leaky (k v last : F64) : F64 := fadd (fmul k v) (fmul (fsub ONE k) last)

/-! ### Phase advance (R150) -/

/-- More iterations than the loop of R150 can take before it ends or repeats a value for ever: below
2^55 every iteration lowers the value by at least 2, and from 2^57 on the value no longer changes. -/
def wrapFuel : Nat := 2 ^ 64

/-- The loop of R150, `while PHASE >= TWO_PI: PHASE <- RN(PHASE − TWO_PI)`, for at most `fuel` tests;
`none` when it has not ended by then. -/
def wrapPhase : Nat → F64 → Option F64
  | 0, _ => none
  | fuel + 1, x => if fge x TWO_PI then wrapPhase fuel (fsub x TWO_PI) else some x

/-- `ADVANCE`: the phase after one sample (R150); `none` only where the loop never ends, which no phase
and increment in the ranges of R28 and R29 reach (notes/assumptions/11.md). -/
def advancePhase (phase inc : F64) : Option F64 := wrapPhase wrapFuel (fadd phase inc)

end Sys2Proof.Machine
end

