-- ==== Sys2Proof/Machine/State.lean ====
section
/-!
DEFINITION. The state of the OSCEC block (spec/10_state.md R23 to R47; spec/20_memory.md R62;
spec/42_system_and_render.md R234, R236 to R238), the reasons a step can stop, and the state after reset
(spec/70_reset_and_hazards.md R292). Plain data throughout.
-/

namespace Sys2Proof.Machine

/-- One oscillator instance `O[i]` (R25 to R33). -/
structure Osc where
  /-- `MODE` (R25). -/
  mode : Mode
  /-- `FREQ` (R26). -/
  freq : F64
  /-- `PITCH` (R27). -/
  pitch : F64
  /-- `PHASE` (R28). -/
  phase : F64
  /-- `INC` (R29). -/
  inc : F64
  /-- `MUTED` (R30). -/
  muted : Bool
  /-- `NAIVE` (R31). -/
  naive : Bool
  /-- `LAST` (R32). -/
  last : F64
  /-- `STALE` (R33). -/
  stale : Bool
  deriving DecidableEq, Repr

/-- The oscillator instances. Instance 0, which `RUNPERIOD` renders, always exists, so `NUM_OSC >= 1`
(R7) holds by construction; `NUM_OSC` is the number of instances and nothing else holds it. -/
structure Bank where
  /-- `O[0]`. -/
  first : Osc
  /-- `O[1]`, `O[2]`, and so on. -/
  others : List Osc
  deriving DecidableEq, Repr

/-- `CTRL` (R40). Its reserved bits read 0 and ignore writes, so they are not held. -/
structure Ctrl where
  /-- `AUTO`, bit 0. -/
  auto : Bool
  /-- `PEN`, bit 1. -/
  pen : Bool
  /-- `IE[4:0]`, bits 12:8. -/
  ie : BitVec 5
  deriving DecidableEq, Repr

/-- The response codes (R93). -/
inductive Resp where
  | ok | illegal | badIndex | badValue | dropped
  deriving DecidableEq, Repr

/-- The errors of a host command (R263). -/
inductive HostError where
  | illegal | badIndex | badValue
  deriving DecidableEq, Repr

/-- The block's answer to a host command: `RESP` and `RES` (R91, R94). -/
structure HostResponse where
  /-- `RESP`. -/
  resp : Resp
  /-- `RES`. -/
  res : Wide
  deriving DecidableEq, Repr

/-- Where the render sequencer stands in a `RUNPERIOD` (R234, R236). `e` is the event the period's
`TICK` popped, which its response returns. -/
inductive Seq where
  /-- No period is in progress: `BUSY = 0` (R47, R238). -/
  | idle
  /-- The `TICK` is done and the coupling comes next, then `n` samples. -/
  | couple (n : BitVec 32) (e : EventWord)
  /-- `n` samples are left, then the response. -/
  | samples (n : BitVec 32) (e : EventWord)
  deriving DecidableEq, Repr

/-- What the environment's schedule lets happen next: a transaction is presented, one agent may take a
step (R61, R272), or reset is asserted (R291). -/
inductive Move where
  /-- The host presents a transaction on the host command port (R91). -/
  | presentHost (r : Request)
  /-- The producer presents a transaction on the producer port (R95). -/
  | presentProducer (r : Request)
  /-- `HOST`, with the render sequencer. -/
  | host
  /-- `PROD`. -/
  | producer
  /-- `SYNC_W`. -/
  | syncW
  /-- `SYNC_R`. -/
  | syncR
  /-- `SINK`. -/
  | sink
  /-- The reset input is asserted. -/
  | reset
  deriving DecidableEq, Repr

/-- The whole state. -/
structure State where
  /-- `SR` (R24). -/
  sr : F64
  /-- `O[i]` (R25 to R33); their number is `NUM_OSC` (R7). -/
  osc : Bank
  /-- `C_FREQ` (R34). -/
  cFreq : F64
  /-- `C_VEL` (R35). -/
  cVel : F64
  /-- `C_BEND` (R36). -/
  cBend : F64
  /-- `C_NOTE`, 8-bit two's complement (R37). -/
  cNote : BitVec 8
  /-- `HELD` (R38). -/
  held : BitVec 128
  /-- `QE`, oldest first (R62). -/
  qe : List EventWord
  /-- `WVIS` (R62). -/
  wvis : Nat
  /-- `RFREE` (R62). -/
  rfree : Nat
  /-- `FIFO_DEPTH` (R7), read through `PARAMS` (R44); no command writes it. -/
  fifoDepth : Nat
  /-- `CTRL` (R40). -/
  ctrl : Ctrl
  /-- `STATUS[4:0]`, the sticky bits (R41). -/
  sticky : BitVec 5
  /-- `ERR_INFO` (R42). -/
  errInfo : BitVec 64
  /-- `DROPS` (R43). -/
  drops : BitVec 32
  /-- `SOUT`: the sample not yet taken by the sink, if any (R45, R237). -/
  sout : Option F64
  /-- The render sequencer, whose `BUSY` flag (R47) is "not idle". -/
  seq : Seq
  /-- Model's own: the schedule, next move first (R61; notes/assumptions/1.md). -/
  sched : List Move
  /-- Model's own: host transactions presented and not yet started (notes/assumptions/2.md). -/
  hostPort : List Request
  /-- Model's own: producer transactions presented and not yet started (notes/assumptions/2.md). -/
  prodPort : List Request
  /-- Model's own: the answer to the last host command, none while one is in progress
  (notes/assumptions/3.md). -/
  hostResp : Option HostResponse
  /-- Model's own: the answer to the last producer command (notes/assumptions/3.md). -/
  prodResp : Option Resp
  /-- Model's own: the sink's record of samples, in order (R237; notes/assumptions/3.md). -/
  sinkLog : List F64
  deriving DecidableEq, Repr

/-- The reasons a step stops with a fault. The block has no trap (R261), and no command stops it. -/
inductive Fault where
  /-- Raised by `NEXT` and by a sample step of `RUNPERIOD` where the loop of R150 never ends: the phase
  is so large, or infinite, that subtracting `TWO_PI` leaves it as it is. The spec's machine would hold
  for ever. No state with phases and increments in the ranges of R28 and R29 gets there. Safe: the
  model stops where the hardware does not go on. -/
  | phaseLoopDiverges
  deriving DecidableEq, Repr

/-- The reasons a step is refused. -/
inductive Refusal where
  /-- Raised by an arm of `exec` whose command has no meaning yet; none is left. Safe: nothing is
  proved of a refused command. -/
  | notModelled (mnemonic : String)
  deriving DecidableEq, Repr

/-- An oscillator after reset (R292), its increment computed by `UPDATE_INC` (R293). -/
def Osc.reset : Osc where
  mode := .square
  freq := A4_HZ
  pitch := PZERO
  phase := PZERO
  inc := incrementOf SR_RESET A4_HZ PZERO
  muted := false
  naive := false
  last := PZERO
  stale := false

/-- The state after reset of a block with `extra + 1` oscillators and a FIFO of `depth` slots, with the
model's own fields empty (R292; notes/assumptions/1.md to 4.md). -/
def State.resetWith (extra depth : Nat) : State where
  sr := SR_RESET
  osc := ⟨Osc.reset, List.replicate extra Osc.reset⟩
  cFreq := SILENT
  cVel := PZERO
  cBend := PZERO
  cNote := 0xFF#8
  held := 0#128
  qe := []
  wvis := 0
  rfree := 0
  fifoDepth := depth
  ctrl := ⟨true, true, 0#5⟩
  sticky := 0#5
  errInfo := 0#64
  drops := 0#32
  sout := none
  seq := .idle
  sched := []
  hostPort := []
  prodPort := []
  hostResp := none
  prodResp := none
  sinkLog := []

/-- The machine right after reset, in the default configuration (R7, R292). -/
def State.reset : State := State.resetWith (Config.defaultNumOsc - 1) Config.defaultFifoDepth

end Sys2Proof.Machine
end

