-- ==== Sys2Proof/Machine/Flags.lean ====
section
/-!
DEFINITION. The control and status registers: their words, their bits and the interrupt line
(spec/10_state.md R40 to R44, R46; spec/60_exceptions.md R263, R268; spec/42_system_and_render.md R233).
-/

namespace Sys2Proof.Machine

/-! ### Sticky bits (R41) -/

/-- `OVF`, `STATUS[0]`. -/
def OVF : BitVec 5 := 0b00001#5
/-- `ILL`, `STATUS[1]`. -/
def ILL : BitVec 5 := 0b00010#5
/-- `BIDX`, `STATUS[2]`. -/
def BIDX : BitVec 5 := 0b00100#5
/-- `BVAL`, `STATUS[3]`. -/
def BVAL : BitVec 5 := 0b01000#5
/-- `PILL`, `STATUS[4]`. -/
def PILL : BitVec 5 := 0b10000#5

/-- The sticky bit of a host error (R262, R263). -/
def stickyOfError : HostError → BitVec 5
  | .illegal => ILL
  | .badIndex => BIDX
  | .badValue => BVAL

/-- The response of a host error (R263). -/
def respOfError : HostError → Resp
  | .illegal => .illegal
  | .badIndex => .badIndex
  | .badValue => .badValue

/-- The 4-bit code of a response; 5 to 15 are never returned (R93). -/
def respCode : Resp → BitVec 4
  | .ok => 0#4
  | .illegal => 1#4
  | .badIndex => 2#4
  | .badValue => 3#4
  | .dropped => 4#4

/-- Sets sticky bits. -/
def setSticky (b : BitVec 5) (s : State) : State := { s with sticky := s.sticky ||| b }

/-- Write-1-to-clear of the sticky bits (R233). -/
def clearSticky (b : BitVec 5) (s : State) : State := { s with sticky := s.sticky &&& ~~~b }

/-! ### Live status (R41, R67) -/

/-- `NUM_OSC` (R7). -/
def numOsc (s : State) : Nat := s.osc.others.length + 1

/-- `STATUS.EMPTY` (R67). -/
def statusEmpty (s : State) : Bool := s.wvis == 0

/-- `STATUS.FULL` (R67). -/
def statusFull (s : State) : Bool := s.qe.length + s.rfree == s.fifoDepth

/-- `STATUS.STALEANY` (R41). -/
def staleAny (s : State) : Bool := s.osc.first.stale || s.osc.others.any (·.stale)

/-- `BUSY` (R47, R238). -/
def busy (s : State) : Bool := s.seq != .idle

/-- `IRQ` (R46, R268). -/
def irq (s : State) : Bool := (s.sticky &&& s.ctrl.ie) != 0#5

/-! ### Register words -/

/-- `CTRL` as read: bit 0 `AUTO`, bit 1 `PEN`, bits 12:8 `IE`, the rest 0 (R40). -/
def ctrlWord (c : Ctrl) : BitVec 64 :=
  0#51 ++ c.ie ++ 0#6 ++ BitVec.ofBool c.pen ++ BitVec.ofBool c.auto

/-- `CTRL` as written: the other bits are ignored (R40, R233). -/
def ctrlOfWord (v : BitVec 64) : Ctrl := ⟨v.getLsbD 0, v.getLsbD 1, v.extractLsb' 8 5⟩

/-- `STATUS` as read: bits 4:0 sticky, bit 8 `EMPTY`, bit 9 `FULL`, bit 10 `STALEANY`, the rest 0 (R41). -/
def statusWord (s : State) : BitVec 64 :=
  0#53 ++ BitVec.ofBool (staleAny s) ++ BitVec.ofBool (statusFull s) ++ BitVec.ofBool (statusEmpty s)
    ++ 0#3 ++ s.sticky

/-- `PARAMS`: `[15:0] = NUM_OSC`, `[47:16] = FIFO_DEPTH`, `[63:48] = 0` (R44). -/
def paramsWord (s : State) : BitVec 64 :=
  0#16 ++ BitVec.ofNat 32 s.fifoDepth ++ BitVec.ofNat 16 (numOsc s)

/-- `O_FLAGS`: bit 0 `MUTED`, bit 1 `NAIVE`, bit 2 `STALE` (R103). -/
def oscFlags (o : Osc) : BitVec 3 :=
  BitVec.ofBool o.stale ++ BitVec.ofBool o.naive ++ BitVec.ofBool o.muted

/-- What `ERR_INFO` records of an error: `zext_64({code, CMD})` (R42, R262). -/
def errInfoWord (e : HostError) (cmd : CmdWord) : BitVec 64 :=
  0#28 ++ respCode (respOfError e) ++ cmd

/-- `DROPS + 1`, saturating at `0xFFFFFFFF` (R43, R64). -/
def saturatingSucc (d : BitVec 32) : BitVec 32 := if d = 0xFFFFFFFF#32 then d else d + 1#32

end Sys2Proof.Machine
end

