-- ==== Sys2Proof/Machine/Ops.lean ====
section
/-!
DEFINITION. The operations every meaning is built from: answering a command, the error response
(spec/60_exceptions.md R262, R266), the FIFO primitives (spec/20_memory.md R64, R65), access to the
oscillators and the application of an event (spec/41_event_controller.md R189 to R194).
-/

namespace Sys2Proof.Machine

/-! ### Answers and error responses -/

/-- `respond(code, res)` on the host port (R9, R91). -/
def respondHost (r : Resp) (res : Wide) (s : State) : State := { s with hostResp := some ⟨r, res⟩ }

/-- `respond(code)` on the producer port (R95). -/
def respondProducer (r : Resp) (s : State) : State := { s with prodResp := some r }

/-- `respond(OK, res)`, the end of a host command that executed. -/
def okHost (res : Wide) (s : State) : Host.Outcome State Fault Refusal := .next (respondHost .ok res s)

/-- The effect of `raise E(CMD)` on the host port: the response code with `RES = 0`, `ERR_INFO`, the
sticky bit of the error, and nothing else (R262). -/
def raiseHost (e : HostError) (cmd : CmdWord) (s : State) : State :=
  respondHost (respOfError e) 0#128 (setSticky (stickyOfError e) { s with errInfo := errInfoWord e cmd })

/-- `raise E(CMD)`: the command ends at once (R262). -/
def failHost (e : HostError) (cmd : CmdWord) (s : State) : Host.Outcome State Fault Refusal :=
  .next (raiseHost e cmd s)

/-- The producer port's answer to a word that is not an encoding: `ILLEGAL` and `STATUS.PILL`, nothing
else (R266). -/
def raiseProducer (s : State) : State := respondProducer .illegal (setSticky PILL s)

/-! ### The FIFO (R64, R65) -/

/-- The producer's view: a slot is free (R64). -/
def fifoHasRoom (s : State) : Bool := decide (s.qe.length + s.rfree < s.fifoDepth)

/-- `FifoPush(e)` (R64): whether the word was accepted, and the state after. -/
def fifoPush (e : EventWord) (s : State) : Bool × State :=
  if fifoHasRoom s then (true, { s with qe := s.qe ++ [e] })
  else (false, setSticky OVF { s with drops := saturatingSucc s.drops })

/-- `FifoPop()` (R65): the word popped, `EMPTY_WORD` when none is visible, and the state after. -/
def fifoPop (s : State) : EventWord × State :=
  match s.wvis, s.qe with
  | w + 1, e :: q => (e, { s with qe := q, wvis := w, rfree := s.rfree + 1 })
  | _, _ => (EMPTY_WORD, s)

/-- A producer command's push and its answer: `OK` or `DROPPED` (R182, R183). -/
def enqueue (e : EventWord) (s : State) : State :=
  respondProducer (if (fifoPush e s).1 then .ok else .dropped) (fifoPush e s).2

/-! ### Oscillators -/

/-- `O[i]`, for `i < NUM_OSC`. -/
def getOsc (b : Bank) (i : Nat) : Option Osc :=
  match i with
  | 0 => some b.first
  | k + 1 => b.others[k]?

/-- `O[i] <- o`. -/
def setOsc (b : Bank) (i : Nat) (o : Osc) : Bank :=
  match i with
  | 0 => { b with first := o }
  | k + 1 => { b with others := b.others.set k o }

/-- The same change to every instance. -/
def mapOsc (f : Osc → Osc) (b : Bank) : Bank := ⟨f b.first, b.others.map f⟩

/-- `O[i] <- o` in the state. -/
def putOsc (i : BitVec 8) (o : Osc) (s : State) : State := { s with osc := setOsc s.osc i.toNat o }

/-- The index check of an oscillator command: `BAD_INDEX` when `IDX >= NUM_OSC`, else the command's
effect on the instance (R265 step 6). `cmd` is the command word that an error records. -/
def onOscillator (cmd : CmdWord) (i : BitVec 8) (s : State)
    (effect : Osc → Host.Outcome State Fault Refusal) : Host.Outcome State Fault Refusal :=
  match getOsc s.osc i.toNat with
  | none => failHost .badIndex cmd s
  | some o => effect o

/-- `UPDATE_INC`: the increment under the present `SR`, and `STALE` cleared (R132). -/
def updateInc (sr : F64) (o : Osc) : Osc :=
  { o with inc := incrementOf sr o.freq o.pitch, stale := false }

/-! ### Applying an event (R189, R191 to R194) -/

/-- `HELD[n] <- 1`. -/
def setHeld (n : BitVec 7) (h : BitVec 128) : BitVec 128 := h ||| (1#128 <<< n.toNat)

/-- `HELD[n] <- 0`. -/
def clearHeld (n : BitVec 7) (h : BitVec 128) : BitVec 128 := h &&& ~~~(1#128 <<< n.toNat)

/-- `APPLY_NOTEON(e)` (R191). -/
def applyNoteOn (e : EventWord) (s : State) : State :=
  if fgt (eventValue e) PZERO then
    { s with
      cNote := (eventKey e).setWidth 8
      cFreq := noteFreq (eventKey e)
      cVel := eventValue e
      held := setHeld (eventKey e) s.held }
  else s

/-- `APPLY_NOTEOFF(e)` (R192). -/
def applyNoteOff (e : EventWord) (s : State) : State :=
  { s with held := clearHeld (eventKey e) s.held, cFreq := SILENT, cVel := PZERO }

/-- The `case e.TAG` of R189. -/
def applyEvent (e : EventWord) (s : State) : State :=
  match eventKindOfTag (eventTag e) with
  | .noteOn => applyNoteOn e s
  | .noteOff => applyNoteOff e s
  | .pitchBend => { s with cBend := eventValue e }
  | .empty => s
  | .controlChange => s
  | .unhandled => s

/-- `C_NOTE <- −1`, the start of every tick (R189). -/
def clearNote (s : State) : State := { s with cNote := 0xFF#8 }

/-- The body of `TICK`, without its response (R189, R234): the event popped and the state after it is
applied. -/
def tickBody (s : State) : EventWord × State :=
  ((fifoPop (clearNote s)).1, applyEvent (fifoPop (clearNote s)).1 (fifoPop (clearNote s)).2)

end Sys2Proof.Machine
end

