-- ==== Sys2Proof/Machine/Waveform.lean ====
section
/-!
DEFINITION. One sample of one oscillator (spec/40_oscillator.md R140 to R150): `SAMPLE`, which reads the
phase before the advance, and `ADVANCE`.
-/

namespace Sys2Proof.Machine

/-- `BL_TRIANGLE`'s value, which is also the new `LAST` (R149). -/
def triangleValue (o : Osc) : F64 :=
  leaky o.inc (blSquare o.phase (turns o.phase) (turns o.inc)) o.last

/-- `SAMPLE(o)`: the value (R141, R142, R143). -/
def sampleValue (o : Osc) : F64 :=
  if o.muted then PZERO
  else if o.naive then naiveWave o.mode o.phase (turns o.phase)
  else match o.mode with
    | .sine => naiveWave .sine o.phase (turns o.phase)
    | .saw => blSaw o.phase (turns o.phase) (turns o.inc)
    | .square => blSquare o.phase (turns o.phase) (turns o.inc)
    | .triangle => triangleValue o

/-- `LAST` after `SAMPLE(o)`: only the band-limited triangle path writes it (R142, R143, R149, R153). -/
def lastAfterSample (o : Osc) : F64 :=
  if o.muted then o.last
  else if o.naive then o.last
  else match o.mode with
    | .sine => o.last
    | .saw => o.last
    | .square => o.last
    | .triangle => triangleValue o

/-- `y = SAMPLE(o); ADVANCE(o)`: the sample and the instance after both (R140, R234); `none` only where
the loop of R150 never ends. -/
def nextSample (o : Osc) : Option (F64 × Osc) :=
  match advancePhase o.phase o.inc with
  | none => none
  | some p => some (sampleValue o, { o with last := lastAfterSample o, phase := p })

end Sys2Proof.Machine
end

