-- ==== Sys2Proof/Machine/Oscillator.lean ====
section
/-!
DEFINITION. The oscillator commands (spec/40_oscillator.md R133 to R140), one meaning each.
-/

namespace Sys2Proof.Machine

/-- `SETMODE o, m` (R133). -/
def execSetmode (o : BitVec 8) (m : Mode) (s : State) : Host.Outcome State Fault Refusal :=
  onOscillator (cmdOf (.setmode o m)) o s fun v => okHost 0#128 (putOsc o { v with mode := m } s)

/-- `SETFREQ o, x` (R134). -/
def execSetfreq (o : BitVec 8) (x : F64) (s : State) : Host.Outcome State Fault Refusal :=
  onOscillator (cmdOf (.setfreq o x)) o s fun v =>
    okHost 0#128 (putOsc o (updateInc s.sr { v with freq := x }) s)

/-- `SETPITCH o, x` (R135). -/
def execSetpitch (o : BitVec 8) (x : F64) (s : State) : Host.Outcome State Fault Refusal :=
  onOscillator (cmdOf (.setpitch o x)) o s fun v =>
    okHost 0#128 (putOsc o (updateInc s.sr { v with pitch := x }) s)

/-- `MUTE o` (R136). -/
def execMute (o : BitVec 8) (s : State) : Host.Outcome State Fault Refusal :=
  onOscillator (cmdOf (.mute o)) o s fun v => okHost 0#128 (putOsc o { v with muted := true } s)

/-- `UNMUTE o` (R137). -/
def execUnmute (o : BitVec 8) (s : State) : Host.Outcome State Fault Refusal :=
  onOscillator (cmdOf (.unmute o)) o s fun v => okHost 0#128 (putOsc o { v with muted := false } s)

/-- `USENAIVE o, b` (R138). -/
def execUsenaive (o : BitVec 8) (b : Bool) (s : State) : Host.Outcome State Fault Refusal :=
  onOscillator (cmdOf (.usenaive o b)) o s fun v => okHost 0#128 (putOsc o { v with naive := b } s)

/-- `NEXT o` (R140). -/
def execNext (o : BitVec 8) (s : State) : Host.Outcome State Fault Refusal :=
  onOscillator (cmdOf (.next o)) o s fun v =>
    match nextSample v with
    | none => .fault .phaseLoopDiverges
    | some (y, v') => okHost (resultOf64 y) (putOsc o v' s)

/-- The rates `SETSR` accepts: `1.0 <= x <= 4294967296.0` (R139). -/
def acceptableRate (x : F64) : Bool := fge x ONE && fle x SR_MAX

/-- `SETSR x` (R139). -/
def execSetsr (x : F64) (s : State) : Host.Outcome State Fault Refusal :=
  if acceptableRate x then
    okHost 0#128 { s with sr := x, osc := mapOsc (fun v => { v with stale := true }) s.osc }
  else failHost .badValue (cmdOf (.setsr x)) s

end Sys2Proof.Machine
end

