-- ==== Sys2Proof/Machine/Render.lean ====
section
/-!
DEFINITION. The render period (spec/42_system_and_render.md R234 to R238): `RUNPERIOD`'s first step, the
coupling, and the later steps of the render sequencer.
-/

namespace Sys2Proof.Machine

/-- `RUNPERIOD n`, its first step (R234, R236): `BUSY <- 1` and the body of `TICK`. The answer comes at
the end of the period, so none stands until then. -/
def execRunperiod (n : BitVec 32) (s : State) : Host.Outcome State Fault Refusal :=
  .next { (tickBody s).2 with seq := .couple n (tickBody s).1, hostResp := none }

/-- `COUPLE()` on oscillator 0 (R235). -/
def coupledOsc (sr cFreq cBend : F64) (o : Osc) : Osc :=
  if fgt cFreq PZERO then updateInc sr { o with freq := cFreq, muted := false, pitch := cBend }
  else updateInc sr { o with muted := true, pitch := cBend }

/-- `COUPLE()` (R235). -/
def couple (s : State) : State :=
  { s with osc := { s.osc with first := coupledOsc s.sr s.cFreq s.cBend s.osc.first } }

/-- One sample step on oscillator 0 (R236, R237): enabled only while `SOUT` holds no sample. -/
def sampleStep (left : BitVec 32) (e : EventWord) (s : State) : Host.Outcome State Fault Refusal :=
  match s.sout with
  | some _ => .next s
  | none =>
    match nextSample s.osc.first with
    | none => .fault .phaseLoopDiverges
    | some (y, v) => .next { s with osc := { s.osc with first := v }, sout := some y, seq := .samples left e }

/-- A step of the render sequencer (R234, R236): the coupling when `AUTO = 1`, then one step a sample,
then `BUSY <- 0` and the answer with the event the `TICK` popped. -/
def renderStep (s : State) : Host.Outcome State Fault Refusal :=
  match s.seq with
  | .idle => .next s
  | .couple n e => .next { (if s.ctrl.auto then couple s else s) with seq := .samples n e }
  | .samples n e =>
    if n = 0#32 then okHost e { s with seq := .idle }
    else sampleStep (n - 1#32) e s

end Sys2Proof.Machine
end

