-- ==== Sys2Proof/Machine/Controller.lean ====
section
/-!
DEFINITION. The event controller commands (spec/41_event_controller.md R182 to R199), one meaning each,
and the event parser (R184).
-/

namespace Sys2Proof.Machine

/-- `RN(f64(v7) / V_SCALE)` (R184). -/
def normalised7 (v : BitVec 7) : F64 := fdiv (ofInt (v.toNat : Int)) V_SCALE

/-- `RN(f64(bend) / B_SCALE)` of the signed field (R184). -/
def normalisedBend (b : BitVec 32) : F64 := fdiv (ofInt b.toInt) B_SCALE

/-- `CLASSIFY(rec)`, the event parser (R184). -/
def classify (r : RawRecord) : EventWord :=
  match rawKindOfCode (rawKind r) with
  | .noteOn =>
    if rawVal7 r = 0#7 then eventWord 5#3 0#7 PZERO
    else eventWord 1#3 (rawNum r) (normalised7 (rawVal7 r))
  | .noteOff => eventWord 2#3 (rawNum r) PZERO
  | .controller => eventWord 4#3 (rawNum r) (normalised7 (rawVal7 r))
  | .bend => eventWord 3#3 0#7 (normalisedBend (rawBend r))
  | .unrecognised => eventWord 5#3 0#7 PZERO

/-- `P.ENQ tag, key, x` (R182). -/
def execPenq (tag : BitVec 3) (key : BitVec 7) (x : F64) (s : State) : Host.Outcome State Fault Refusal :=
  .next (enqueue (eventWord tag key x) s)

/-- `P.RAWIN rec` (R183). -/
def execPrawin (r : RawRecord) (s : State) : Host.Outcome State Fault Refusal :=
  .next (enqueue (classify r) s)

/-- `DEQ` (R188). -/
def execDeq (s : State) : Host.Outcome State Fault Refusal := okHost (fifoPop s).1 (fifoPop s).2

/-- `TICK` (R189). -/
def execTick (s : State) : Host.Outcome State Fault Refusal := okHost (tickBody s).1 (tickBody s).2

/-- `NOTEHELD n` (R195). -/
def execNoteheld (n : BitVec 8) (s : State) : Host.Outcome State Fault Refusal :=
  if 127 < n.toNat then failHost .badIndex (cmdOf (.noteheld n)) s
  else okHost ((BitVec.ofBool (s.held.getLsbD n.toNat)).setWidth 128) s

/-- `GETFREQ` (R196). -/
def execGetfreq (s : State) : Host.Outcome State Fault Refusal := okHost (resultOf64 s.cFreq) s

/-- `GETVEL` (R197). -/
def execGetvel (s : State) : Host.Outcome State Fault Refusal := okHost (resultOf64 s.cVel) s

/-- `GETBEND` (R198). -/
def execGetbend (s : State) : Host.Outcome State Fault Refusal := okHost (resultOf64 s.cBend) s

/-- `C_NOTE` as read: `sext_64` (R37, R199). -/
def noteResult (s : State) : Wide := resultOf64 (s.cNote.signExtend 64)

/-- `GETNOTE` (R199). -/
def execGetnote (s : State) : Host.Outcome State Fault Refusal := okHost (noteResult s) s

end Sys2Proof.Machine
end

