-- ==== Sys2Proof/Machine/System.lean ====
section
/-!
DEFINITION. The system commands `NOP`, `RDREG` and `WRCSR` (spec/42_system_and_render.md R231 to R233;
the selector map of spec/30_encoding.md R103).
-/

namespace Sys2Proof.Machine

/-- `NOP` (R231). -/
def execNop (s : State) : Host.Outcome State Fault Refusal := okHost 0#128 s

/-- The `RDREG` result of a register, of instance `v` for a per-oscillator one (R103). -/
def registerValue (r : Selector) (v : Osc) (s : State) : Wide :=
  match r with
  | .sr => resultOf64 s.sr
  | .ctrl => resultOf64 (ctrlWord s.ctrl)
  | .status => resultOf64 (statusWord s)
  | .drops => s.drops.setWidth 128
  | .fifoLevel => BitVec.ofNat 128 s.wvis
  | .errInfo => resultOf64 s.errInfo
  | .params => resultOf64 (paramsWord s)
  | .held => s.held
  | .cFreq => resultOf64 s.cFreq
  | .cVel => resultOf64 s.cVel
  | .cBend => resultOf64 s.cBend
  | .cNote => noteResult s
  | .oMode => (modeCode v.mode).setWidth 128
  | .oFreq => resultOf64 v.freq
  | .oPitch => resultOf64 v.pitch
  | .oPhase => resultOf64 v.phase
  | .oInc => resultOf64 v.inc
  | .oFlags => (oscFlags v).setWidth 128
  | .oLast => resultOf64 v.last

/-- `RDREG sel, o` (R232): the checks in the order of R265, then the value. A global register passes the
encoding check only with `IDX = 0`, and oscillator 0 always exists, so the index check then passes. -/
def execRdreg (sel o : BitVec 8) (s : State) : Host.Outcome State Fault Refusal :=
  match selectorOfCode sel with
  | none => failHost .illegal (cmdOf (.rdreg sel o)) s
  | some r =>
    if !perOscillator r && o != 0#8 then failHost .illegal (cmdOf (.rdreg sel o)) s
    else onOscillator (cmdOf (.rdreg sel o)) o s fun v => okHost (registerValue r v s) s

/-- `WRCSR sel, v` (R233). -/
def execWrcsr (sel : BitVec 8) (v : BitVec 64) (s : State) : Host.Outcome State Fault Refusal :=
  if sel = 0x01#8 then okHost 0#128 { s with ctrl := ctrlOfWord v }
  else if sel = 0x02#8 then okHost 0#128 (clearSticky (v.extractLsb' 0 5) s)
  else if sel = 0x03#8 then okHost 0#128 { s with drops := v.extractLsb' 0 32 }
  else failHost .illegal (cmdOf (.wrcsr sel v)) s

end Sys2Proof.Machine
end

