-- ==== Sys2Proof/Machine/Dispatch.lean ====
section
/-!
DEFINITION. One arm per command: each calls its own meaning.
-/

namespace Sys2Proof.Machine

/-- The effect of a command on the state, as its rule gives it. -/
def exec (i : Instr) (s : State) : Host.Outcome State Fault Refusal :=
  match i with
  | .nop => Sys2Proof.Machine.execNop s
  | .setmode o m => Sys2Proof.Machine.execSetmode o m s
  | .setfreq o x => Sys2Proof.Machine.execSetfreq o x s
  | .setpitch o x => Sys2Proof.Machine.execSetpitch o x s
  | .mute o => Sys2Proof.Machine.execMute o s
  | .unmute o => Sys2Proof.Machine.execUnmute o s
  | .usenaive o b => Sys2Proof.Machine.execUsenaive o b s
  | .next o => Sys2Proof.Machine.execNext o s
  | .setsr x => Sys2Proof.Machine.execSetsr x s
  | .deq => Sys2Proof.Machine.execDeq s
  | .tick => Sys2Proof.Machine.execTick s
  | .noteheld n => Sys2Proof.Machine.execNoteheld n s
  | .getfreq => Sys2Proof.Machine.execGetfreq s
  | .getvel => Sys2Proof.Machine.execGetvel s
  | .getbend => Sys2Proof.Machine.execGetbend s
  | .getnote => Sys2Proof.Machine.execGetnote s
  | .runperiod n => Sys2Proof.Machine.execRunperiod n s
  | .rdreg sel o => Sys2Proof.Machine.execRdreg sel o s
  | .wrcsr sel v => Sys2Proof.Machine.execWrcsr sel v s
  | .penq tag key x => Sys2Proof.Machine.execPenq tag key x s
  | .prawin r => Sys2Proof.Machine.execPrawin r s

end Sys2Proof.Machine
end

