-- ==== Sys2Proof/Machine/Agents.lean ====
section
/-!
DEFINITION. The agents' steps (spec/20_memory.md R61, R66, R70, R72; spec/41_event_controller.md R187;
spec/42_system_and_render.md R236 to R238; spec/70_reset_and_hazards.md R291). An agent that is not
enabled when the schedule names it takes no step: the state stays as it is.
-/

namespace Sys2Proof.Machine

/-- A host transaction that starts: decoded and executed, or answered `ILLEGAL` (R265). -/
def runHost (r : Request) (s : State) : Host.Outcome State Fault Refusal :=
  match decodeHost r with
  | .error _ => failHost .illegal r.cmd s
  | .ok i => exec i s

/-- A producer transaction that starts: decoded and executed, or answered `ILLEGAL` (R266). -/
def runProducer (r : Request) (s : State) : Host.Outcome State Fault Refusal :=
  match decodeProducer r with
  | .error _ => .next (raiseProducer s)
  | .ok i => exec i s

/-- The step of `HOST`: while `BUSY`, the render sequencer's next step; else the oldest transaction that
waits, if any (R72a, R238). -/
def hostMove (s : State) : Host.Outcome State Fault Refusal :=
  match s.seq with
  | .couple _ _ => renderStep s
  | .samples _ _ => renderStep s
  | .idle =>
    match s.hostPort with
    | [] => .next s
    | r :: rest => runHost r { s with hostPort := rest }

/-- The step of `PROD`: the oldest transaction that waits, if any, unless `PEN = 0` holds the port
(R72b, R187). -/
def producerMove (s : State) : Host.Outcome State Fault Refusal :=
  if s.ctrl.pen then
    match s.prodPort with
    | [] => .next s
    | r :: rest => runProducer r { s with prodPort := rest }
  else .next s

/-- `SYNC_W` (R66). -/
def syncW (s : State) : State := if s.wvis < s.qe.length then { s with wvis := s.wvis + 1 } else s

/-- `SYNC_R` (R66). -/
def syncR (s : State) : State := if 0 < s.rfree then { s with rfree := s.rfree - 1 } else s

/-- The step of `SINK`: it takes the held sample into its record (R237). -/
def sinkMove (s : State) : State :=
  match s.sout with
  | none => s
  | some y => { s with sout := none, sinkLog := s.sinkLog ++ [y] }

/-- Reset asserted: every state element at its reset value, whatever the block was doing; transactions
not yet started are not started; what the sink took stays taken (R291). The configuration and the
environment's schedule are not state of the block. -/
def resetMove (s : State) : State :=
  { State.resetWith s.osc.others.length s.fifoDepth with sched := s.sched, sinkLog := s.sinkLog }

/-- What one entry of the schedule does. -/
def runMove (m : Move) (s : State) : Host.Outcome State Fault Refusal :=
  match m with
  | .presentHost r => .next { s with hostPort := s.hostPort ++ [r] }
  | .presentProducer r => .next { s with prodPort := s.prodPort ++ [r] }
  | .host => hostMove s
  | .producer => producerMove s
  | .syncW => .next (syncW s)
  | .syncR => .next (syncR s)
  | .sink => .next (sinkMove s)
  | .reset => .next (resetMove s)

/-- A step: the next entry of the schedule, if there is one. -/
def stepMachine (s : State) : Host.Outcome State Fault Refusal :=
  match s.sched with
  | [] => .next s
  | m :: rest => runMove m { s with sched := rest }

/-- The transaction `r` presented on port `p`, that port free to start it and the port's agent next. -/
def withRequest (p : Port) (r : Request) (s : State) : State :=
  match p with
  | .host => { s with seq := .idle, hostPort := r :: s.hostPort, sched := .host :: s.sched }
  | .producer =>
    { s with ctrl := { s.ctrl with pen := true }, prodPort := r :: s.prodPort, sched := .producer :: s.sched }

end Sys2Proof.Machine
end

