-- ==== Sys2Proof/Machine/Step.lean ====
section
/-!
DEFINITION. One step of the block under the schedule its state carries, and the placing of a numbered
transaction where the next step starts it (notes/assumptions/1.md, 5.md).
-/

namespace Sys2Proof.Machine

/-- One step. -/
def step : State → Host.Outcome State Fault Refusal := stepMachine

/-- `s` with the transaction numbered `w` presented on its port and that port's agent next. -/
def State.withFetchWord (s : State) (nbits w : Nat) : State :=
  withRequest (tablePort (w % 2 ^ nbits)) (tableRequest (w % 2 ^ nbits)) s

end Sys2Proof.Machine
end

