-- ==== Sys2Proof/Machine/Assembler.lean ====
section
/-!
DEFINITION. The textual form of commands (spec/30_encoding.md R109) and the pseudo-instructions (R110).
A line of text gives the port and the transaction it stands for. R109 gives no grammar of a number or of
white space: what is taken there is the model's choice (notes/assumptions/16.md).
-/

namespace Sys2Proof.Machine

/-! ### Pseudo-instructions (R110) -/

/-- `P.NOTEON n, v` is `P.ENQ noteon, n, v`. -/
def pseudoNoteOn (n : BitVec 7) (v : F64) : Instr := .penq 1#3 n v

/-- `P.NOTEOFF n` is `P.ENQ noteoff, n, 0.0`. -/
def pseudoNoteOff (n : BitVec 7) : Instr := .penq 2#3 n PZERO

/-- `P.BEND x` is `P.ENQ pitchbend, 0, x`. -/
def pseudoBend (x : F64) : Instr := .penq 3#3 0#7 x

/-- `P.CC p, x` is `P.ENQ control, p, x`. -/
def pseudoCC (p : BitVec 7) (x : F64) : Instr := .penq 4#3 p x

/-- `CLRSTATUS` is `WRCSR STATUS, 0x1F`. -/
def pseudoClrStatus : Instr := .wrcsr (selectorCode .status) 0x1F#64

/-- `RDSTATUS` is `RDREG STATUS`. -/
def pseudoRdStatus : Instr := .rdreg (selectorCode .status) 0#8

/-- `SILENCE o` is `MUTE o`. -/
def pseudoSilence (o : BitVec 8) : Instr := .mute o

/-! ### Lines, words and operands -/

/-- A line up to its comment, which starts at `;`. -/
def stripComment : List Char → List Char
  | [] => []
  | c :: cs => if c == ';' then [] else c :: stripComment cs

/-- White space inside a line. -/
def isBlank (c : Char) : Bool := c == ' ' || c == '\t' || c == '\r'

/-- Text without blanks at its ends. -/
def trimBlanks (cs : List Char) : List Char :=
  ((cs.dropWhile isBlank).reverse.dropWhile isBlank).reverse

/-- The pieces of a text between separators. -/
def splitAtChar (sep : Char) : List Char → List (List Char)
  | [] => [[]]
  | c :: cs =>
    if c == sep then [] :: splitAtChar sep cs
    else match splitAtChar sep cs with
      | [] => [[c]]
      | w :: ws => (c :: w) :: ws

/-- The operands of a line: the text after the mnemonic, cut at commas. -/
def operandsOf (cs : List Char) : List (List Char) :=
  if trimBlanks cs = [] then [] else (splitAtChar ',' cs).map trimBlanks

/-! ### Numbers: decimal, `0x` hex, binary64 (R109) -/

/-- The value of a digit. -/
def digitValue (c : Char) : Option Nat :=
  if '0' ≤ c ∧ c ≤ '9' then some (c.toNat - '0'.toNat)
  else if 'a' ≤ c ∧ c ≤ 'f' then some (c.toNat - 'a'.toNat + 10)
  else if 'A' ≤ c ∧ c ≤ 'F' then some (c.toNat - 'A'.toNat + 10)
  else none

/-- Digits in a base, after the digits read so far. -/
def digitsFrom (base acc : Nat) : List Char → Option Nat
  | [] => some acc
  | c :: cs =>
    match digitValue c with
    | none => none
    | some d => if d < base then digitsFrom base (base * acc + d) cs else none

/-- At least one digit. -/
def digitsOf (base : Nat) (cs : List Char) : Option Nat :=
  if cs = [] then none else digitsFrom base 0 cs

/-- A decimal or `0x` number (R109). Leading zeros, hex digits of either case, no `0X` and no `+` are the model's
choice (notes/assumptions/16.md). -/
def parseNat (cs : List Char) : Option Nat :=
  match cs with
  | '0' :: 'x' :: ds => digitsOf 16 ds
  | _ => digitsOf 10 cs

/-- A number that fits a field of `n` bits; one that does not is no operand, the model's choice
(notes/assumptions/16.md). -/
def parseField (n : Nat) (cs : List Char) : Option (BitVec n) :=
  match parseNat cs with
  | none => none
  | some v => if v < 2 ^ n then some (BitVec.ofNat n v) else none

/-- A signed number that fits a two's complement field of `n` bits. The minus sign, before a decimal or a hex
number, and a hex number read as its value and not as a bit pattern are the model's choice
(notes/assumptions/16.md). -/
def parseSigned (n : Nat) (cs : List Char) : Option (BitVec n) :=
  match cs with
  | '-' :: ds =>
    match parseNat ds with
    | none => none
    | some v => if 2 * v ≤ 2 ^ n then some (BitVec.ofInt n (-(v : Int))) else none
  | _ =>
    match parseNat cs with
    | none => none
    | some v => if 2 * v < 2 ^ n then some (BitVec.ofNat n v) else none

/-- `RN` of `±m × 10^e` (R12, R109). A minus sign on zero gives `−0.0` (notes/assumptions/16.md). -/
def roundDecimal (neg : Bool) (m : Nat) (e : Int) : F64 :=
  roundRatio neg (m * 10 ^ e.toNat * oneUnits) (10 ^ (-e).toNat)

/-- The exponent of a decimal literal, after its `e`: a sign if any, and at least one digit, the model's choice
(notes/assumptions/16.md). -/
def parseExponent (cs : List Char) : Option Int :=
  match cs with
  | '-' :: ds => (digitsOf 10 ds).map fun v => -(v : Int)
  | '+' :: ds => (digitsOf 10 ds).map fun v => (v : Int)
  | _ => (digitsOf 10 cs).map fun v => (v : Int)

/-- An unsigned decimal literal: digits, a point and digits if any, an exponent if any. R109 gives no grammar of
it. The model's choice (notes/assumptions/16.md): at least one digit, on either side of the point; `e` or `E`; and
an exponent letter with nothing after it (`1e`, `2.5E`) is read as exponent 0, not as a syntax error. -/
def parseDecimal (neg : Bool) (cs : List Char) : Option F64 :=
  let mantissa := cs.takeWhile fun c => c != 'e' && c != 'E'
  let exponent := (cs.dropWhile fun c => c != 'e' && c != 'E').drop 1
  let whole := mantissa.takeWhile (· != '.')
  let fraction := (mantissa.dropWhile (· != '.')).drop 1
  match digitsOf 10 (whole ++ fraction), (if exponent = [] then some 0 else parseExponent exponent) with
  | some m, some e => some (roundDecimal neg m (e - (fraction.length : Int)))
  | _, _ => none

/-- A binary64 operand: `f64:0x…` for an exact pattern, else a decimal literal (R109). A minus sign before the
literal, and a pattern of any number of hex digits below 2^64, are the model's choice
(notes/assumptions/16.md). -/
def parseF64 (cs : List Char) : Option F64 :=
  match cs with
  | 'f' :: '6' :: '4' :: ':' :: '0' :: 'x' :: ds =>
    match digitsOf 16 ds with
    | none => none
    | some v => if v < 2 ^ 64 then some (BitVec.ofNat 64 v) else none
  | '-' :: ds => parseDecimal true ds
  | _ => parseDecimal false cs

/-! ### Names (R103, R104, R109) -/

/-- A mode by name or number. -/
def parseMode (cs : List Char) : Option Mode :=
  match String.ofList cs with
  | "sine" => some .sine
  | "saw" => some .saw
  | "square" => some .square
  | "triangle" => some .triangle
  | _ => (parseField 2 cs).map modeOfCode

/-- A tag by name or number. -/
def parseTag (cs : List Char) : Option (BitVec 3) :=
  match String.ofList cs with
  | "empty" => some 0#3
  | "noteon" => some 1#3
  | "noteoff" => some 2#3
  | "pitchbend" => some 3#3
  | "control" => some 4#3
  | "unhandled" => some 5#3
  | _ => parseField 3 cs

/-- A register's name (R103). -/
def selectorName : Selector → String
  | .sr => "SR"
  | .ctrl => "CTRL"
  | .status => "STATUS"
  | .drops => "DROPS"
  | .fifoLevel => "FIFO_LEVEL"
  | .errInfo => "ERR_INFO"
  | .params => "PARAMS"
  | .held => "HELD"
  | .cFreq => "C_FREQ"
  | .cVel => "C_VEL"
  | .cBend => "C_BEND"
  | .cNote => "C_NOTE"
  | .oMode => "O_MODE"
  | .oFreq => "O_FREQ"
  | .oPitch => "O_PITCH"
  | .oPhase => "O_PHASE"
  | .oInc => "O_INC"
  | .oFlags => "O_FLAGS"
  | .oLast => "O_LAST"

/-- Every selector, in the order of R103. -/
def allSelectors : List Selector :=
  [.sr, .ctrl, .status, .drops, .fifoLevel, .errInfo, .params, .held, .cFreq, .cVel, .cBend, .cNote,
    .oMode, .oFreq, .oPitch, .oPhase, .oInc, .oFlags, .oLast]

/-- A selector by name or number. -/
def parseSelector (cs : List Char) : Option (BitVec 8) :=
  match allSelectors.find? fun r => selectorName r == String.ofList cs with
  | some r => some (selectorCode r)
  | none => parseField 8 cs

/-! ### Commands -/

/-- The raw record with the given fields, other bits zero (R101, R109). -/
def rawRecordOf (kind : BitVec 4) (num val7 : BitVec 7) (bend : BitVec 32) : RawRecord :=
  bend ++ 0#9 ++ val7 ++ 0#1 ++ num ++ 0#4 ++ kind

/-- The command of a mnemonic and its operands, pseudo-instructions expanded (R109, R110). R109 writes `RDREG
name` for a global register and `RDREG name, o` for one of an oscillator; the other two texts are the model's
choice (notes/assumptions/16.md): `RDREG name` of a per-oscillator register reads instance 0, and `RDREG name, o`
of a global one puts `o` in `IDX`, a word that answers `ILLEGAL` unless `o` is 0. -/
def parseInstr (name : String) (ops : List (List Char)) : Option Instr :=
  match name, ops with
  | "NOP", [] => some .nop
  | "SETMODE", [o, m] => (parseField 8 o).bind fun o => (parseMode m).map fun m => .setmode o m
  | "SETFREQ", [o, x] => (parseField 8 o).bind fun o => (parseF64 x).map fun x => .setfreq o x
  | "SETPITCH", [o, x] => (parseField 8 o).bind fun o => (parseF64 x).map fun x => .setpitch o x
  | "MUTE", [o] => (parseField 8 o).map .mute
  | "UNMUTE", [o] => (parseField 8 o).map .unmute
  | "USENAIVE", [o, b] =>
    (parseField 8 o).bind fun o => (parseField 1 b).map fun b => .usenaive o (b == 1#1)
  | "NEXT", [o] => (parseField 8 o).map .next
  | "SETSR", [x] => (parseF64 x).map .setsr
  | "DEQ", [] => some .deq
  | "TICK", [] => some .tick
  | "NOTEHELD", [n] => (parseField 8 n).map .noteheld
  | "GETFREQ", [] => some .getfreq
  | "GETVEL", [] => some .getvel
  | "GETBEND", [] => some .getbend
  | "GETNOTE", [] => some .getnote
  | "RUNPERIOD", [n] => (parseField 32 n).map .runperiod
  | "RDREG", [r] => (parseSelector r).map fun r => .rdreg r 0#8
  | "RDREG", [r, o] => (parseSelector r).bind fun r => (parseField 8 o).map fun o => .rdreg r o
  | "WRCSR", [r, v] => (parseSelector r).bind fun r => (parseField 64 v).map fun v => .wrcsr r v
  | "P.ENQ", [t, k, x] =>
    (parseTag t).bind fun t => (parseField 7 k).bind fun k => (parseF64 x).map fun x => .penq t k x
  | "P.RAWIN", [r] => (parseField 64 r).map .prawin
  | "P.RAWIN", [k, n, v, b] =>
    (parseField 4 k).bind fun k => (parseField 7 n).bind fun n => (parseField 7 v).bind fun v =>
      (parseSigned 32 b).map fun b => .prawin (rawRecordOf k n v b)
  | "P.NOTEON", [n, v] => (parseField 7 n).bind fun n => (parseF64 v).map fun v => pseudoNoteOn n v
  | "P.NOTEOFF", [n] => (parseField 7 n).map pseudoNoteOff
  | "P.BEND", [x] => (parseF64 x).map pseudoBend
  | "P.CC", [p, x] => (parseField 7 p).bind fun p => (parseF64 x).map fun x => pseudoCC p x
  | "CLRSTATUS", [] => some pseudoClrStatus
  | "RDSTATUS", [] => some pseudoRdStatus
  | "SILENCE", [o] => (parseField 8 o).map pseudoSilence
  | _, _ => none

/-- The transaction of a mnemonic and its operands: a command, or a raw word with its operand zero
(R109). -/
def parseStatement (name : String) (ops : List (List Char)) : Option (Port × Request) :=
  match name, ops with
  | ".word", [w] => (parseField 32 w).map fun w => (.host, ⟨w, 0#128⟩)
  | ".pword", [w] => (parseField 32 w).map fun w => (.producer, ⟨w, 0#128⟩)
  | _, _ => (parseInstr name ops).map fun i => (i.port, encode i)

/-- What a line of text stands for. -/
inductive Line where
  /-- A line that is blank or only a comment. -/
  | blank
  /-- A transaction on a port. -/
  | transaction (p : Port) (r : Request)
  /-- A line that is not of the syntax. -/
  | invalid
  deriving DecidableEq, Repr

/-- Assembles one line (R109). -/
def assembleChars (line : List Char) : Line :=
  let body := trimBlanks (stripComment line)
  if body = [] then .blank
  else
    match parseStatement (String.ofList (body.takeWhile (! isBlank ·)))
        (operandsOf (body.dropWhile (! isBlank ·))) with
    | some (p, r) => .transaction p r
    | none => .invalid

/-- Assembles one line (R109). -/
def assembleLine (line : String) : Line := assembleChars line.toList

/-- Assembles a text, one command per line (R109). -/
def assembleText (text : String) : List Line := (splitAtChar '\n' text.toList).map assembleChars

end Sys2Proof.Machine
end

