-- ==== Sys2Proof/Machine/Fairness.lean ====
section
/-!
DEFINITION. Weak fairness of `SYNC_W`, `SYNC_R` and `SINK` (spec/20_memory.md R61, R66;
spec/42_system_and_render.md R237; spec/00_scope.md R7). The schedule is free but for it. It speaks of
infinite runs, so it is a condition on executions, and the schedules the spec admits are those of the fair
executions (notes/assumptions/17.md).
-/

namespace Sys2Proof.Machine

/-- The agent an entry of the schedule names can take a step: `HOST` has a transaction to start, or a step
of the period that `SOUT` does not hold up (R72, R237, R238); `PROD` has a transaction and `PEN = 1` (R187);
the synchronisers by R66; `SINK` has a sample to take (R237). The environment's entries always can. -/
def enabled (m : Move) (s : State) : Bool :=
  match m with
  | .presentHost _ => true
  | .presentProducer _ => true
  | .host =>
    match s.seq with
    | .idle => !s.hostPort.isEmpty
    | .couple _ _ => true
    | .samples n _ => n == 0#32 || s.sout.isNone
  | .producer => s.ctrl.pen && !s.prodPort.isEmpty
  | .syncW => decide (s.wvis < s.qe.length)
  | .syncR => decide (0 < s.rfree)
  | .sink => s.sout.isSome
  | .reset => true

/-- An infinite run of the block: the state before each step, and the entry of the schedule it takes. -/
structure Execution where
  /-- The state before step `k`. -/
  states : Nat → State
  /-- The entry of the schedule that step `k` takes. -/
  moves : Nat → Move
  /-- Every step is a step of the machine under that entry. -/
  steps : ∀ k, step { states k with sched := [moves k] } = .next (states (k + 1))

/-- The state before step `k` with that step's entry next. -/
def Execution.scheduled (x : Execution) (k : Nat) : State := { x.states k with sched := [x.moves k] }

/-- A step of `m` that stays enabled is eventually taken (R66, R237). -/
def Execution.weaklyFair (x : Execution) (m : Move) : Prop :=
  ∀ k, (∀ j, k ≤ j → enabled m (x.states j) = true) → ∃ j, k ≤ j ∧ x.moves j = m

/-- The executions the spec admits: both synchronisers and the sink are weakly fair (R66, R237). -/
def Execution.fair (x : Execution) : Prop :=
  x.weaklyFair .syncW ∧ x.weaklyFair .syncR ∧ x.weaklyFair .sink

end Sys2Proof.Machine
end

