-- ==== Sys2Proof/Safety.lean ====
section
/-!
DEFINITION. The terms that claims about the block use: the invariants the spec states, the conditions of
the host and producer checks written from spec/30_encoding.md R97, R98, R103, R106 and
spec/60_exceptions.md R265 without the decoder, and the words a run accepts into and pops from the FIFO.
-/

namespace Sys2Proof.Machine

/-! ### Invariants -/

/-- The configuration is one R7 allows. -/
def configLegal (s : State) : Prop := Config.legalDepth s.fifoDepth = true ∧ numOsc s ≤ 256

/-- R62 and R63. -/
def fifoBounded (s : State) : Prop :=
  s.wvis ≤ s.qe.length ∧ s.rfree ≤ s.fifoDepth ∧ s.qe.length + s.rfree ≤ s.fifoDepth

/-- The reserved bits 7:3 and 63:15 of an event word are zero (R99, R105). -/
def canonicalWord (e : EventWord) : Prop := e.extractLsb' 3 5 = 0#5 ∧ e.extractLsb' 15 49 = 0#49

/-- `SR` is a rate `SETSR` accepts (R24). -/
def rateLegal (s : State) : Prop := acceptableRate s.sr = true

/-- `+0.0 <= PHASE < TWO_PI` (R28, R152). -/
def phaseInRange (o : Osc) : Prop := fle PZERO o.phase = true ∧ flt o.phase TWO_PI = true

/-- `INC` is non-negative and below 3.15 (R29). -/
def incInRange (o : Osc) : Prop :=
  fle PZERO o.inc = true ∧ units o.inc * 100 < 315 * (oneUnits : Int)

/-- `i` names an instance, `i < NUM_OSC`, and `v` is that instance. -/
def IsOsc (s : State) (i : Nat) (v : Osc) : Prop := getOsc s.osc i = some v

/-- `C_FREQ` and `C_VEL` are both positive, or the silence sentinel and `+0.0` (R201). -/
def voiceConsistent (s : State) : Prop :=
  (fgt s.cFreq PZERO = true ∧ fgt s.cVel PZERO = true) ∨ (s.cFreq = SILENT ∧ s.cVel = PZERO)

/-- `C_NOTE` is in `−1..127` (R37). -/
def noteInRange (s : State) : Prop := s.cNote = 0xFF#8 ∨ s.cNote.toNat ≤ 127

/-- Bits 63:36 of `ERR_INFO` read 0 (R42). -/
def errInfoCanonical (s : State) : Prop := s.errInfo.extractLsb' 36 28 = 0#28

/-- The invariant of the block: every range and reserved field the spec states of its state. -/
structure Inv (s : State) : Prop where
  /-- R7. -/
  config : configLegal s
  /-- R62, R63. -/
  fifo : fifoBounded s
  /-- R99, R105. -/
  words : ∀ e ∈ s.qe, canonicalWord e
  /-- R24. -/
  rate : rateLegal s
  /-- R28, R152. -/
  phases : ∀ i v, IsOsc s i v → phaseInRange v
  /-- R29. -/
  incs : ∀ i v, IsOsc s i v → incInRange v
  /-- R201. -/
  voice : voiceConsistent s
  /-- R37. -/
  note : noteInRange s
  /-- R42. -/
  errInfo : errInfoCanonical s

/-! ### The checks of a command word, from the tables of the spec -/

/-- The host opcodes of R97. -/
def hostOpcodes : List Nat :=
  [0x00, 0x01, 0x02, 0x03, 0x04, 0x05, 0x06, 0x07, 0x08, 0x10, 0x11, 0x12, 0x13, 0x14, 0x15, 0x16, 0x20,
    0x30, 0x31]

/-- The host opcodes whose format uses `IDX` (R97). -/
def idxOpcodes : List Nat := [0x01, 0x02, 0x03, 0x04, 0x05, 0x06, 0x07, 0x12, 0x30]

/-- The host opcodes whose format uses `SEL` (R97). -/
def selOpcodes : List Nat := [0x30, 0x31]

/-- The opcodes of the oscillator commands (R97). -/
def oscOpcodes : List Nat := [0x01, 0x02, 0x03, 0x04, 0x05, 0x06, 0x07]

/-- The global selectors of R103. -/
def globalSelectors : List Nat :=
  [0x00, 0x01, 0x02, 0x03, 0x04, 0x05, 0x06, 0x07, 0x09, 0x0A, 0x0B, 0x0C]

/-- The per-oscillator selectors of R103. -/
def oscSelectors : List Nat := [0x10, 0x11, 0x12, 0x13, 0x14, 0x15, 0x16]

/-- A host command word is `ILLEGAL` (R106; R265 steps 1 to 5). -/
def hostIllegal (c : CmdWord) : Prop :=
  (fieldOpc c).toNat ∉ hostOpcodes ∨ fieldTop c ≠ 0#8 ∨
  (fieldIdx c ≠ 0#8 ∧ (fieldOpc c).toNat ∉ idxOpcodes) ∨
  (fieldSel c ≠ 0#8 ∧ (fieldOpc c).toNat ∉ selOpcodes) ∨
  ((fieldOpc c).toNat = 0x30 ∧
    ((fieldSel c).toNat ∉ globalSelectors ++ oscSelectors ∨
      ((fieldSel c).toNat ∈ globalSelectors ∧ fieldIdx c ≠ 0#8))) ∨
  ((fieldOpc c).toNat = 0x31 ∧ (fieldSel c).toNat ∉ [0x01, 0x02, 0x03])

/-- A host command word, not `ILLEGAL`, is `BAD_INDEX` (R265 step 6). -/
def hostBadIndex (c : CmdWord) (s : State) : Prop :=
  ((fieldOpc c).toNat ∈ oscOpcodes ∧ numOsc s ≤ (fieldIdx c).toNat) ∨
  ((fieldOpc c).toNat = 0x30 ∧ (fieldSel c).toNat ∈ oscSelectors ∧ numOsc s ≤ (fieldIdx c).toNat) ∨
  ((fieldOpc c).toNat = 0x12 ∧ 127 < (fieldIdx c).toNat)

/-- A host transaction, neither `ILLEGAL` nor `BAD_INDEX`, is `BAD_VALUE` (R265 step 7, R139). -/
def hostBadValue (r : Request) : Prop :=
  (fieldOpc r.cmd).toNat = 0x08 ∧
    ¬ (fge (opnd64 r.opnd) ONE = true ∧ fle (opnd64 r.opnd) SR_MAX = true)

/-- A producer command word is `ILLEGAL` (R106, R266). -/
def producerIllegal (c : CmdWord) : Prop :=
  ((fieldOpc c).toNat ≠ 0x01 ∧ (fieldOpc c).toNat ≠ 0x02) ∨ c.extractLsb' 8 24 ≠ 0#24

/-! ### What a run accepts and pops (R68) -/

/-- The word a producer command pushes. -/
def pushedWord (i : Instr) : Option EventWord :=
  match i with
  | .penq tag key x => some (eventWord tag key x)
  | .prawin r => some (classify r)
  | _ => none

/-- The command pops the FIFO: `DEQ`, `TICK`, `RUNPERIOD` (R70, R71). -/
def popsFifo (i : Instr) : Bool :=
  match i with
  | .deq => true
  | .tick => true
  | .runperiod _ => true
  | _ => false

/-- The producer command the next step of `s` starts, if it starts one. -/
def startsProducer (s : State) : Option Instr :=
  match s.sched, s.prodPort with
  | .producer :: _, r :: _ => if s.ctrl.pen then (decodeProducer r).toOption else none
  | _, _ => none

/-- The host command the next step of `s` starts, if it starts one. -/
def startsHost (s : State) : Option Instr :=
  match s.sched, s.seq, s.hostPort with
  | .host :: _, .idle, r :: _ => (decodeHost r).toOption
  | _, _, _ => none

/-- The word the next step of `s` accepts into the FIFO, if any. -/
def acceptsNow (s : State) : List EventWord :=
  if fifoHasRoom s then ((startsProducer s).bind pushedWord).toList else []

/-- The word the next step of `s` pops from the FIFO, if any. -/
def popsNow (s : State) : List EventWord :=
  match startsHost s with
  | none => []
  | some i => if popsFifo i ∧ 0 < s.wvis then s.qe.take 1 else []

/-- The words `k` steps from `s` accept, in order. -/
def acceptedBy : Nat → State → List EventWord
  | 0, _ => []
  | k + 1, s =>
    match step s with
    | .next t => acceptsNow s ++ acceptedBy k t
    | .fault _ => []
    | .refused _ => []

/-- The words `k` steps from `s` pop, in order. -/
def poppedBy : Nat → State → List EventWord
  | 0, _ => []
  | k + 1, s =>
    match step s with
    | .next t => popsNow s ++ poppedBy k t
    | .fault _ => []
    | .refused _ => []

/-! ### What an execution does in a span of steps (R66, R297, R298) -/

/-- The words queued and not yet visible to the consumer side (R62). -/
def hiddenWords (s : State) : List EventWord := s.qe.drop s.wvis

/-- The words `n` steps of an execution accept from step `k` on, in order. -/
def acceptedFrom (x : Execution) (k : Nat) : Nat → List EventWord
  | 0 => []
  | n + 1 => acceptedFrom x k n ++ acceptsNow (x.scheduled (k + n))

/-- The words `n` steps of an execution pop from step `k` on, in order. -/
def poppedFrom (x : Execution) (k : Nat) : Nat → List EventWord
  | 0 => []
  | n + 1 => poppedFrom x k n ++ popsNow (x.scheduled (k + n))

/-- Reset is asserted in one of the `n` steps of an execution from step `k` on. -/
def resetFrom (x : Execution) (k n : Nat) : Prop := ∃ j, j < n ∧ x.moves (k + j) = .reset

/-! ### A whole period (R234, R305) -/

/-- `n` samples of an oscillator in a row, and the oscillator after them. -/
def renderSamples : Nat → Osc → Option (List F64 × Osc)
  | 0, o => some ([], o)
  | n + 1, o =>
    match nextSample o with
    | none => none
    | some (y, o') =>
      match renderSamples n o' with
      | none => none
      | some (ys, o'') => some (y :: ys, o'')

/-- `n` sample steps, the sink taking each sample at once. -/
def sampleMoves : Nat → List Move
  | 0 => []
  | n + 1 => .host :: .sink :: sampleMoves n

end Sys2Proof.Machine
end

