-- ==== Sys2Proof/Certificates/Slice0/Obligations.lean ====
section
/-!
DEFINITION. The statements about the OSCEC model, each from the rules of spec/ that its docstring names.
-/

open Sys2Proof Sys2Proof.Machine

/-! ### Decoding and encoding -/

/-- R105, R97, R98: encoding a command and decoding it on its port gives the command back, every operand
field included. `RDREG` and `WRCSR` are among them with every `SEL` and `IDX`: that a word with a reserved or
unwritable selector decodes to a command, which then answers `ILLEGAL`, is the model's choice (R106 calls the
word `ILLEGAL`; notes/assumptions/6.md). -/
def Obligations.DecodeOfEncodeIsTheCommand : Prop :=
  ∀ i : Instr, decodeOn i.port (encode i) = .ok i

/-- R96: no bit of a decoded command word is ignored: the word is the one its command encodes to. -/
def Obligations.DecodedWordHasNoOtherBits : Prop :=
  ∀ (p : Port) (r : Request) (i : Instr), decodeOn p r = .ok i → i.port = p ∧ cmdOf i = r.cmd

/-- Words of spec/95_test_vectors.md decode to the commands they stand for, one of each family. -/
def Obligations.ListedWordsDecode : Prop :=
  decodeHost ⟨0x00000000#32, 0#128⟩ = .ok .nop ∧
  decodeHost ⟨0x00000001#32, 3#128⟩ = .ok (.setmode 0#8 .triangle) ∧
  decodeHost ⟨0x00000002#32, 0x408F400000000000#128⟩ = .ok (.setfreq 0#8 0x408F400000000000#64) ∧
  decodeHost ⟨0x00000107#32, 0#128⟩ = .ok (.next 1#8) ∧
  decodeHost ⟨0x00004512#32, 0#128⟩ = .ok (.noteheld 69#8) ∧
  decodeHost ⟨0x00000020#32, 3#128⟩ = .ok (.runperiod 3#32) ∧
  decodeHost ⟨0x00140030#32, 0#128⟩ = .ok (.rdreg 0x14#8 0#8) ∧
  decodeHost ⟨0x00020031#32, 0x1F#128⟩ = .ok (.wrcsr 0x02#8 0x1F#64) ∧
  decodeProducer ⟨0x00000001#32, 0x3FF00000000000000000000000004501#128⟩
    = .ok (.penq 1#3 69#7 0x3FF0000000000000#64) ∧
  decodeProducer ⟨0x00000002#32, 0x7F4501#128⟩ = .ok (.prawin 0x7F4501#64)

/-- R78: byte `k` of a serialised word is its bits `8k+7:8k`, and a serialised transaction followed by
anything is read back whole. That the command word goes before the operand is the model's choice
(notes/assumptions/15.md). -/
def Obligations.SerialisedTransactionIsLittleEndian : Prop :=
  (∀ (r : Request) (k : Nat), k < 4 → (bytesOfRequest r)[k]? = some (r.cmd.extractLsb' (8 * k) 8)) ∧
  (∀ (r : Request) (k : Nat), k < 16 →
    (bytesOfRequest r)[4 + k]? = some (r.opnd.extractLsb' (8 * k) 8)) ∧
  (∀ (r : Request) (rest : List Byte), requestOfBytes (bytesOfRequest r ++ rest) = some (r, rest))

/-! ### A step runs the decoded command -/

/-- A host step, while no period is in progress, takes the oldest waiting transaction (R72a) and runs the
command it decodes to; a producer step, while `PEN = 1`, does the same on its port (R72b, R187). That the
schedule and the waiting transactions are lists of the state is the model's choice
(notes/assumptions/1.md, 2.md). -/
def Obligations.StepRunsTheDecodedCommand : Prop :=
  (∀ (s : State) (rest : List Move) (r : Request) (ps : List Request) (i : Instr),
    s.sched = .host :: rest → s.seq = .idle → s.hostPort = r :: ps → decodeHost r = .ok i →
    step s = exec i { s with sched := rest, hostPort := ps }) ∧
  (∀ (s : State) (rest : List Move) (r : Request) (ps : List Request) (i : Instr),
    s.sched = .producer :: rest → s.ctrl.pen = true → s.prodPort = r :: ps → decodeProducer r = .ok i →
    step s = exec i { s with sched := rest, prodPort := ps })

/-- A numbered transaction placed by `withFetchWord` is the one the next step runs: on the host port the
state it runs in differs from `s` only in an idle sequencer. The numbering is the model's choice
(notes/assumptions/5.md). -/
def Obligations.PlacedWordRunsNext : Prop :=
  ∀ (s : State) (nbits w : Nat) (i : Instr), tablePort (w % 2 ^ nbits) = .host →
    decodeTableWord nbits w = some i → step (s.withFetchWord nbits w) = exec i { s with seq := .idle }

/-- R265: the checks of a host transaction in their order, the first that applies being the response, and
a transaction that passes them all is executed and answers no error. -/
def Obligations.HostChecksInOrder : Prop :=
  ∀ (s : State) (rest : List Move) (r : Request) (ps : List Request),
    s.sched = .host :: rest → s.seq = .idle → s.hostPort = r :: ps →
    (hostIllegal r.cmd →
      step s = .next (raiseHost .illegal r.cmd { s with sched := rest, hostPort := ps })) ∧
    (¬ hostIllegal r.cmd → hostBadIndex r.cmd s →
      step s = .next (raiseHost .badIndex r.cmd { s with sched := rest, hostPort := ps })) ∧
    (¬ hostIllegal r.cmd → ¬ hostBadIndex r.cmd s → hostBadValue r →
      step s = .next (raiseHost .badValue r.cmd { s with sched := rest, hostPort := ps })) ∧
    (¬ hostIllegal r.cmd → ¬ hostBadIndex r.cmd s → ¬ hostBadValue r →
      ∃ i, decodeHost r = .ok i ∧ step s = exec i { s with sched := rest, hostPort := ps } ∧
        ∀ t, step s = .next t → t.hostResp = none ∨ ∃ res, t.hostResp = some ⟨.ok, res⟩)

/-- R266: a producer word that is not an encoding answers `ILLEGAL`, sets `STATUS.PILL` and changes
nothing else; any other executes. -/
def Obligations.ProducerChecks : Prop :=
  ∀ (s : State) (rest : List Move) (r : Request) (ps : List Request),
    s.sched = .producer :: rest → s.ctrl.pen = true → s.prodPort = r :: ps →
    (producerIllegal r.cmd → step s = .next { s with
      sched := rest, prodPort := ps, prodResp := some .illegal, sticky := s.sticky ||| 0b10000#5 }) ∧
    (¬ producerIllegal r.cmd → ∃ i, decodeProducer r = .ok i ∧
      step s = exec i { s with sched := rest, prodPort := ps })

/-- R262: what `raise E(CMD)` writes, for each of the three errors, and that it writes nothing else. -/
def Obligations.ErrorResponseEffect : Prop :=
  ∀ (cmd : CmdWord) (s : State),
    raiseHost .illegal cmd s = { s with
      hostResp := some ⟨.illegal, 0#128⟩, errInfo := 0#28 ++ 1#4 ++ cmd, sticky := s.sticky ||| 0b00010#5 } ∧
    raiseHost .badIndex cmd s = { s with
      hostResp := some ⟨.badIndex, 0#128⟩, errInfo := 0#28 ++ 2#4 ++ cmd, sticky := s.sticky ||| 0b00100#5 } ∧
    raiseHost .badValue cmd s = { s with
      hostResp := some ⟨.badValue, 0#128⟩, errInfo := 0#28 ++ 3#4 ++ cmd, sticky := s.sticky ||| 0b01000#5 }

/-- R262, R264: a host command answered with an error leaves every state element unchanged but the error
bookkeeping, whichever command it is, and the error recorded is the response's. -/
def Obligations.RefusedCommandHasNoPartialEffect : Prop :=
  ∀ (i : Instr) (s t : State) (x : HostResponse), i.port = .host → exec i s = .next t →
    t.hostResp = some x → x.resp ≠ .ok →
    ∃ e : HostError, x = ⟨respOfError e, 0#128⟩ ∧ t = raiseHost e (cmdOf i) s

/-- R264: only the listed responses. `BAD_VALUE` comes from `SETSR` alone, `BAD_INDEX` from the commands
with an index alone, `DROPPED` from the producer port alone, and a producer command gives no host
response. -/
def Obligations.ResponsesOfEachCommand : Prop :=
  (∀ (i : Instr) (s t : State) (x : HostResponse), i.port = .host → exec i s = .next t →
    t.hostResp = some x →
    x.resp ≠ .dropped ∧
    (x.resp = .badValue → ∃ v, i = .setsr v) ∧
    (x.resp = .badIndex → (∃ o m, i = .setmode o m) ∨ (∃ o v, i = .setfreq o v) ∨
      (∃ o v, i = .setpitch o v) ∨ (∃ o, i = .mute o) ∨ (∃ o, i = .unmute o) ∨
      (∃ o b, i = .usenaive o b) ∨ (∃ o, i = .next o) ∨ (∃ n, i = .noteheld n) ∨
      (∃ sel o, i = .rdreg sel o)) ∧
    (x.resp = .illegal → i.wellFormed = false)) ∧
  (∀ (i : Instr) (s t : State), i.port = .producer → exec i s = .next t →
    t.hostResp = s.hostResp ∧ (t.prodResp = some .ok ∨ t.prodResp = some .dropped))

/-- R261: no command is refused by the model, and the only fault is the endless loop of R150 in `NEXT`, which
the model's step cannot finish (notes/assumptions/11.md). That no run gets there rests on R150's "the loop body
runs at most once" and R153, which the spec marks as its own inferences; the statement does not use them. -/
def Obligations.NoRefusalAndOnlyNextFaults : Prop :=
  ∀ (i : Instr) (s : State),
    (∀ r, exec i s ≠ .refused r) ∧
    (∀ f, exec i s = .fault f → ∃ o v, i = .next o ∧ IsOsc s o.toNat v ∧ advancePhase v.phase v.inc = none)

/-! ### Agents -/

/-- R187, R237, R238 and the empty ports: an agent that is not enabled takes no step. `PROD` is held
while `PEN = 0`; `HOST` has nothing to start; a sample step waits while `SOUT` holds a sample; `SINK` has
nothing to take. That such an entry of the schedule passes without effect is the model's choice
(notes/assumptions/1.md). -/
def Obligations.DisabledAgentsHold : Prop :=
  (∀ (s : State) (rest : List Move), s.sched = .producer :: rest → s.ctrl.pen = false →
    step s = .next { s with sched := rest }) ∧
  (∀ (s : State) (rest : List Move), s.sched = .producer :: rest → s.prodPort = [] →
    step s = .next { s with sched := rest }) ∧
  (∀ (s : State) (rest : List Move), s.sched = .host :: rest → s.seq = .idle → s.hostPort = [] →
    step s = .next { s with sched := rest }) ∧
  (∀ (s : State) (rest : List Move) (n : BitVec 32) (e : EventWord) (y : F64),
    s.sched = .host :: rest → s.seq = .samples n e → n ≠ 0#32 → s.sout = some y →
    step s = .next { s with sched := rest }) ∧
  (∀ (s : State) (rest : List Move), s.sched = .sink :: rest → s.sout = none →
    step s = .next { s with sched := rest })

/-- R66, R237, R91, R95: each synchroniser step, where enabled and where not; the sink takes the held
sample into its record, in order; and a transaction presented goes behind those that wait. The entries that
find their agent not enabled, the ports' queues and the sink's record are the model's choice
(notes/assumptions/1.md, 2.md, 3.md). -/
def Obligations.SynchroniserSinkAndPortSteps : Prop :=
  ∀ (s : State) (rest : List Move),
    (s.sched = .syncW :: rest → s.wvis < s.qe.length →
      step s = .next { s with sched := rest, wvis := s.wvis + 1 }) ∧
    (s.sched = .syncW :: rest → s.qe.length ≤ s.wvis → step s = .next { s with sched := rest }) ∧
    (s.sched = .syncR :: rest → 0 < s.rfree →
      step s = .next { s with sched := rest, rfree := s.rfree - 1 }) ∧
    (s.sched = .syncR :: rest → s.rfree = 0 → step s = .next { s with sched := rest }) ∧
    (∀ y : F64, s.sched = .sink :: rest → s.sout = some y →
      step s = .next { s with sched := rest, sout := none, sinkLog := s.sinkLog ++ [y] }) ∧
    (∀ r : Request, s.sched = .presentHost r :: rest →
      step s = .next { s with sched := rest, hostPort := s.hostPort ++ [r] }) ∧
    (∀ r : Request, s.sched = .presentProducer r :: rest →
      step s = .next { s with sched := rest, prodPort := s.prodPort ++ [r] })

/-- R69, R186: a producer transaction completes in its one step whether the FIFO is full or not: it leaves
the port and is answered. -/
def Obligations.ProducerNeverWaitsOnTheFifo : Prop :=
  ∀ (s : State) (rest : List Move) (r : Request) (ps : List Request),
    s.sched = .producer :: rest → s.ctrl.pen = true → s.prodPort = r :: ps →
    ∃ t x, step s = .next t ∧ t.prodPort = ps ∧ t.prodResp = some x ∧
      (x = .dropped → s.qe.length + s.rfree ≥ s.fifoDepth)

/-- R48: a step of the producer side writes the FIFO, `STATUS.OVF`, `STATUS.PILL` and `DROPS`, and no
consumer-side state. -/
def Obligations.ProducerSideLeavesConsumerState : Prop :=
  ∀ (s t : State) (m : Move) (rest : List Move),
    (m = .producer ∨ m = .syncW ∨ m = .syncR ∨ ∃ r, m = .presentProducer r) →
    s.sched = m :: rest → step s = .next t →
    t.sr = s.sr ∧ t.osc = s.osc ∧ t.cFreq = s.cFreq ∧ t.cVel = s.cVel ∧ t.cBend = s.cBend ∧
    t.cNote = s.cNote ∧ t.held = s.held ∧ t.ctrl = s.ctrl ∧ t.errInfo = s.errInfo ∧ t.sout = s.sout ∧
    t.seq = s.seq ∧ t.hostPort = s.hostPort ∧ t.hostResp = s.hostResp ∧ t.sinkLog = s.sinkLog ∧
    t.fifoDepth = s.fifoDepth ∧
    (∀ j, (j = 1 ∨ j = 2 ∨ j = 3) → t.sticky.getLsbD j = s.sticky.getLsbD j)

/-- R181: a producer step reads no consumer-side state but `CTRL.PEN`: two blocks that agree on the FIFO,
`DROPS`, `PEN` and the producer port answer alike and leave the same FIFO and `DROPS`, and the same
`STATUS.OVF` and the same `STATUS.PILL` where that bit was the same before. -/
def Obligations.ProducerReadsNoConsumerState : Prop :=
  ∀ (s s' t t' : State) (rest rest' : List Move),
    s.sched = .producer :: rest → s'.sched = .producer :: rest' →
    s.prodPort = s'.prodPort → s.ctrl.pen = s'.ctrl.pen → s.qe = s'.qe → s.rfree = s'.rfree →
    s.fifoDepth = s'.fifoDepth → s.drops = s'.drops → s.prodResp = s'.prodResp →
    step s = .next t → step s' = .next t' →
    t.prodPort = t'.prodPort ∧ t.qe = t'.qe ∧ t.rfree = t'.rfree ∧ t.drops = t'.drops ∧
      t.prodResp = t'.prodResp ∧
      ∀ j, (j = 0 ∨ j = 4) → s.sticky.getLsbD j = s'.sticky.getLsbD j →
        t.sticky.getLsbD j = t'.sticky.getLsbD j

/-- R70, R236: while a period is in progress, a step of the render sequencer and a step of the producer
side, in either order, lead to the same state. An inference the spec marks as its own (R70: "so their
interleaving with producer and synchroniser steps cannot be observed"). -/
def Obligations.RenderAndProducerStepsCommute : Prop :=
  ∀ (s t u : State) (m : Move),
    (m = .producer ∨ m = .syncW ∨ m = .syncR ∨ ∃ r, m = .presentProducer r) →
    busy s = true → hostMove s = .next t → runMove m s = .next u →
    ∃ v, runMove m t = .next v ∧ hostMove u = .next v

/-! ### Reset -/

/-- R292: the state after reset, every element, for every number of oscillators and depth; and the words
the registers read in the default configuration. The model's own fields are not spoken of. -/
def Obligations.ResetLeavesTheListedValues : Prop :=
  (∀ extra depth : Nat,
    (State.resetWith extra depth).sr = 0x40E5888000000000#64 ∧
    numOsc (State.resetWith extra depth) = extra + 1 ∧
    (∀ i v, IsOsc (State.resetWith extra depth) i v →
      v = { mode := .square, freq := 0x407B800000000000#64, pitch := 0#64, phase := 0#64,
            inc := 0x3FB00C6938F15E29#64, muted := false, naive := false, last := 0#64, stale := false }) ∧
    (State.resetWith extra depth).cFreq = 0xBFF0000000000000#64 ∧
    (State.resetWith extra depth).cVel = 0#64 ∧ (State.resetWith extra depth).cBend = 0#64 ∧
    (State.resetWith extra depth).cNote = 0xFF#8 ∧ (State.resetWith extra depth).held = 0#128 ∧
    (State.resetWith extra depth).qe = [] ∧ (State.resetWith extra depth).wvis = 0 ∧
    (State.resetWith extra depth).rfree = 0 ∧
    ctrlWord (State.resetWith extra depth).ctrl = 0x0000000000000003#64 ∧
    (State.resetWith extra depth).sticky = 0#5 ∧ (State.resetWith extra depth).errInfo = 0#64 ∧
    (State.resetWith extra depth).drops = 0#32 ∧ (State.resetWith extra depth).sout = none ∧
    busy (State.resetWith extra depth) = false ∧ irq (State.resetWith extra depth) = false) ∧
  State.reset = State.resetWith 0 64 ∧ statusWord State.reset = 0x0000000000000100#64 ∧
  paramsWord State.reset = 0x0000000000400001#64

/-- R291: reset asserted, whatever the block was doing, sets every element to its reset value, starts no
waiting transaction, abandons a period without a response, loses the FIFO and a held sample, and leaves
what the sink took. That the model keeps the transactions that wait, the last answers and the sink's record
in its state, and what reset does to them, is notes/assumptions/2.md, 3.md and 18.md. -/
def Obligations.ResetStepFromAnyState : Prop :=
  ∀ (s : State) (rest : List Move), s.sched = .reset :: rest →
    step s = .next { State.resetWith s.osc.others.length s.fifoDepth with
      sched := rest, sinkLog := s.sinkLog } ∧
    (State.resetWith s.osc.others.length s.fifoDepth).hostPort = [] ∧
    (State.resetWith s.osc.others.length s.fifoDepth).prodPort = [] ∧
    (State.resetWith s.osc.others.length s.fifoDepth).hostResp = none ∧
    (State.resetWith s.osc.others.length s.fifoDepth).seq = .idle ∧
    (State.resetWith s.osc.others.length s.fifoDepth).sout = none ∧
    (State.resetWith s.osc.others.length s.fifoDepth).qe = [] ∧
    numOsc (State.resetWith s.osc.others.length s.fifoDepth) = numOsc s

/-! ### Oscillator commands -/

/-- R133: `SETMODE` reads `OPND[1:0]` alone, stores it and changes nothing else; `BAD_INDEX` beyond the
instances. -/
def Obligations.SetmodeStoresTheMode : Prop :=
  ∀ (s : State) (o : BitVec 8) (w : Wide), ∃ m : Mode,
    decodeHost ⟨0#8 ++ 0#8 ++ o ++ 0x01#8, w⟩ = .ok (.setmode o m) ∧ modeCode m = w.extractLsb' 0 2 ∧
    (∀ v, IsOsc s o.toNat v → exec (.setmode o m) s = .next { s with
      osc := setOsc s.osc o.toNat { v with mode := m }, hostResp := some ⟨.ok, 0#128⟩ }) ∧
    (numOsc s ≤ o.toNat →
      exec (.setmode o m) s = .next (raiseHost .badIndex (0#8 ++ 0#8 ++ o ++ 0x01#8) s))

/-- R134, R135: `SETFREQ` and `SETPITCH` store `OPND[63:0]` verbatim, recompute the increment in the same
step under the present `SR`, clear `STALE` and change nothing else, the phase included. -/
def Obligations.SetfreqAndSetpitchRecomputeTheIncrement : Prop :=
  ∀ (s : State) (o : BitVec 8) (w : Wide),
    decodeHost ⟨0#8 ++ 0#8 ++ o ++ 0x02#8, w⟩ = .ok (.setfreq o (w.extractLsb' 0 64)) ∧
    decodeHost ⟨0#8 ++ 0#8 ++ o ++ 0x03#8, w⟩ = .ok (.setpitch o (w.extractLsb' 0 64)) ∧
    (∀ (x : F64) (v : Osc), IsOsc s o.toNat v →
      exec (.setfreq o x) s = .next { s with
        osc := setOsc s.osc o.toNat { v with freq := x, inc := incrementOf s.sr x v.pitch, stale := false },
        hostResp := some ⟨.ok, 0#128⟩ } ∧
      exec (.setpitch o x) s = .next { s with
        osc := setOsc s.osc o.toNat { v with pitch := x, inc := incrementOf s.sr v.freq x, stale := false },
        hostResp := some ⟨.ok, 0#128⟩ }) ∧
    (∀ x : F64, numOsc s ≤ o.toNat →
      exec (.setfreq o x) s = .next (raiseHost .badIndex (0#8 ++ 0#8 ++ o ++ 0x02#8) s) ∧
      exec (.setpitch o x) s = .next (raiseHost .badIndex (0#8 ++ 0#8 ++ o ++ 0x03#8) s))

/-- R136, R137, R138: `MUTE`, `UNMUTE` and `USENAIVE` write their one flag and nothing else; `USENAIVE`
reads `OPND[0]` alone. -/
def Obligations.FlagCommandsWriteTheirFlag : Prop :=
  ∀ (s : State) (o : BitVec 8) (w : Wide),
    decodeHost ⟨0#8 ++ 0#8 ++ o ++ 0x04#8, w⟩ = .ok (.mute o) ∧
    decodeHost ⟨0#8 ++ 0#8 ++ o ++ 0x05#8, w⟩ = .ok (.unmute o) ∧
    decodeHost ⟨0#8 ++ 0#8 ++ o ++ 0x06#8, w⟩ = .ok (.usenaive o (w.getLsbD 0)) ∧
    (∀ v, IsOsc s o.toNat v →
      exec (.mute o) s = .next { s with
        osc := setOsc s.osc o.toNat { v with muted := true }, hostResp := some ⟨.ok, 0#128⟩ } ∧
      exec (.unmute o) s = .next { s with
        osc := setOsc s.osc o.toNat { v with muted := false }, hostResp := some ⟨.ok, 0#128⟩ } ∧
      ∀ b, exec (.usenaive o b) s = .next { s with
        osc := setOsc s.osc o.toNat { v with naive := b }, hostResp := some ⟨.ok, 0#128⟩ }) ∧
    (numOsc s ≤ o.toNat →
      exec (.mute o) s = .next (raiseHost .badIndex (0#8 ++ 0#8 ++ o ++ 0x04#8) s) ∧
      exec (.unmute o) s = .next (raiseHost .badIndex (0#8 ++ 0#8 ++ o ++ 0x05#8) s) ∧
      ∀ b, exec (.usenaive o b) s = .next (raiseHost .badIndex (0#8 ++ 0#8 ++ o ++ 0x06#8) s))

/-- R139: `SETSR` accepts `1.0 <= x <= 4294967296.0` and nothing else, a NaN included. Accepted, it
stores the rate, marks every instance stale and leaves every increment; rejected, it is `BAD_VALUE`. -/
def Obligations.SetsrMarksEveryInstanceStale : Prop :=
  ∀ (s : State) (w : Wide),
    decodeHost ⟨0x00000008#32, w⟩ = .ok (.setsr (w.extractLsb' 0 64)) ∧
    (∀ x : F64, fle 0x3FF0000000000000#64 x = true → fle x 0x41F0000000000000#64 = true →
      ∃ b : Bank, exec (.setsr x) s = .next { s with sr := x, osc := b, hostResp := some ⟨.ok, 0#128⟩ } ∧
        b.others.length = s.osc.others.length ∧
        ∀ i v, getOsc s.osc i = some v → getOsc b i = some { v with stale := true }) ∧
    (∀ x : F64, ¬ (fle 0x3FF0000000000000#64 x = true ∧ fle x 0x41F0000000000000#64 = true) →
      exec (.setsr x) s = .next (raiseHost .badValue 0x00000008#32 s))

/-- R140, R150: for a phase and an increment in their ranges, `NEXT` answers the sample of the phase
before the advance, advances the phase with at most one subtraction of `TWO_PI`, keeps `LAST` or replaces
it as the sample path says, and changes nothing else. "At most one" is an inference the spec marks as its own
(R150: "the loop body runs at most once"). -/
def Obligations.NextSamplesThenAdvances : Prop :=
  ∀ (s : State) (o : BitVec 8) (w : Wide),
    decodeHost ⟨0#8 ++ 0#8 ++ o ++ 0x07#8, w⟩ = .ok (.next o) ∧
    (∀ v, IsOsc s o.toNat v → phaseInRange v → incInRange v →
      exec (.next o) s = .next { s with
        osc := setOsc s.osc o.toNat { v with
          last := lastAfterSample v
          phase := if fge (fadd v.phase v.inc) TWO_PI then fsub (fadd v.phase v.inc) TWO_PI
            else fadd v.phase v.inc }
        hostResp := some ⟨.ok, (sampleValue v).setWidth 128⟩ }) ∧
    (numOsc s ≤ o.toNat →
      exec (.next o) s = .next (raiseHost .badIndex (0#8 ++ 0#8 ++ o ++ 0x07#8) s))

/-- R141 to R149: the sample and the new `LAST` on each path: muted, naive, Sine, and the three
band-limited waveforms, written out. -/
def Obligations.SampleOnEachPath : Prop :=
  ∀ v : Osc,
    let p := v.phase
    let t := fdiv v.phase TWO_PI
    let dt := fdiv v.inc TWO_PI
    let saw := fsub (fmul TWO t) ONE
    let sq := if flt p PI then ONE else MINUS_ONE
    let tri := fmul TWO (fsub (fabs saw) HALF)
    let half := fadd t HALF
    let blsq := fsub (fadd sq (blep t dt)) (blep (if fge half ONE then fsub half ONE else half) dt)
    let w := fadd (fmul v.inc blsq) (fmul (fsub ONE v.inc) v.last)
    (v.muted = true → sampleValue v = 0#64 ∧ lastAfterSample v = v.last) ∧
    (v.muted = false → v.mode = .sine → sampleValue v = Config.SIN p ∧ lastAfterSample v = v.last) ∧
    (v.muted = false → v.naive = true → v.mode = .saw → sampleValue v = saw ∧ lastAfterSample v = v.last) ∧
    (v.muted = false → v.naive = true → v.mode = .square → sampleValue v = sq ∧ lastAfterSample v = v.last) ∧
    (v.muted = false → v.naive = true → v.mode = .triangle →
      sampleValue v = tri ∧ lastAfterSample v = v.last) ∧
    (v.muted = false → v.naive = false → v.mode = .saw →
      sampleValue v = fsub saw (blep t dt) ∧ lastAfterSample v = v.last) ∧
    (v.muted = false → v.naive = false → v.mode = .square →
      sampleValue v = blsq ∧ lastAfterSample v = v.last) ∧
    (v.muted = false → v.naive = false → v.mode = .triangle → sampleValue v = w ∧ lastAfterSample v = w)

/-- R145: the PolyBLEP correction, its two polynomials operation by operation: below `dt` with `u = t / dt`,
above `1 − dt` with `u = (t − 1) / dt`, and `+0.0` where neither comparison holds. So it is −1 at `t = 0`,
`+0.0` on the whole window `[dt, 1 − dt]`, and `+0.0` everywhere in `[0, 1)` when `dt = 0`. -/
def Obligations.BlepAtTheWindow : Prop :=
  (∀ t dt : F64, flt t dt = true →
    let u := fdiv t dt
    blep t dt = fsub (fsub (fadd u u) (fmul u u)) ONE) ∧
  (∀ t dt : F64, flt t dt = false → fgt t (fsub ONE dt) = true →
    let u := fdiv (fsub t ONE) dt
    blep t dt = fadd (fadd (fadd (fmul u u) u) u) ONE) ∧
  (∀ t dt : F64, flt t dt = false → fgt t (fsub ONE dt) = false → blep t dt = PZERO) ∧
  (∀ dt : F64, flt PZERO dt = true → blep PZERO dt = MINUS_ONE) ∧
  (∀ t dt : F64, fle dt t = true → fle t (fsub ONE dt) = true → blep t dt = PZERO) ∧
  (∀ t : F64, fle PZERO t = true → flt t ONE = true → blep t PZERO = PZERO)

/-- R147, R18: where the phase is in range, a Sine sample is a number in `[−1, 1]`, and it is `+0.0` at
phase `+0.0`. -/
def Obligations.SineSampleIsInRange : Prop :=
  ∀ v : Osc, v.muted = false → v.mode = .sine → phaseInRange v →
    fle MINUS_ONE (sampleValue v) = true ∧ fle (sampleValue v) ONE = true ∧
    (v.phase = PZERO → sampleValue v = PZERO)

/-- R131: the frequency deviation of a pitch offset, its formula and its corner cases. -/
def Obligations.DeviationOfPitch : Prop :=
  (∀ p, isNaN p = true → deviation p = CNAN) ∧
  deviation PZERO = PZERO ∧ deviation NZERO = PZERO ∧
  (∀ p, fgt p PZERO = true → deviation p = fsub (Config.EXP2 (fmul (fabs p) FOURTEEN)) ONE) ∧
  (∀ p, flt p PZERO = true → deviation p = fneg (fsub (Config.EXP2 (fmul (fabs p) FOURTEEN)) ONE)) ∧
  deviation ONE = 0x40CFFF8000000000#64 ∧ deviation MINUS_ONE = 0xC0CFFF8000000000#64 ∧
  deviation HALF = 0x405FC00000000000#64 ∧ deviation 0xBFE0000000000000#64 = 0xC05FC00000000000#64 ∧
  deviation PINF = PINF ∧ deviation NINF = NINF

/-- R132: the clamp of the effective frequency: a sum that is negative, zero or NaN gives `+0.0`, one
above `SR / 2` gives `SR / 2`, and the increment is `RN(RN(eff × TWO_PI) / SR)`. -/
def Obligations.IncrementClampsTheFrequency : Prop :=
  ∀ sr freq pitch : F64,
    let f := fadd freq (deviation pitch)
    let nyq := fmul sr HALF
    (fgt f PZERO = false → incrementOf sr freq pitch = fdiv (fmul PZERO TWO_PI) sr) ∧
    (fgt f PZERO = true → fgt f nyq = true → incrementOf sr freq pitch = fdiv (fmul nyq TWO_PI) sr) ∧
    (fgt f PZERO = true → fgt f nyq = false → incrementOf sr freq pitch = fdiv (fmul f TWO_PI) sr)

/-- R29: at every rate `SETSR` accepts, whatever the frequency and pitch, the increment is a non-negative
number below 3.15. An inference the spec marks as its own (R29: "always a non-negative value below
`3.15`"). -/
def Obligations.IncrementIsBounded : Prop :=
  ∀ sr freq pitch : F64, fle ONE sr = true → fle sr SR_MAX = true →
    fle PZERO (incrementOf sr freq pitch) = true ∧
    units (incrementOf sr freq pitch) * 100 < 315 * (oneUnits : Int)

/-! ### Event controller commands -/

/-- R182, R183, R64, R267: `P.ENQ` pushes its word with the reserved bits zero and `P.RAWIN` its classified
record. When a slot is free the word goes to the end of the queue and the answer is `OK`; with none free
it is discarded, `STATUS.OVF` is set, `DROPS` counts without wrapping, and the answer is `DROPPED`. Nothing
else changes. -/
def Obligations.ProducerCommandsPushOrDrop : Prop :=
  ∀ (s : State) (w : Wide) (i : Instr) (e : EventWord),
    decodeProducer ⟨0x00000001#32, w⟩
      = .ok (.penq (w.extractLsb' 0 3) (w.extractLsb' 8 7) (w.extractLsb' 64 64)) ∧
    decodeProducer ⟨0x00000002#32, w⟩ = .ok (.prawin (w.extractLsb' 0 64)) ∧
    ((∃ (tag : BitVec 3) (key : BitVec 7) (x : F64),
        i = .penq tag key x ∧ e = x ++ 0#49 ++ key ++ 0#5 ++ tag) ∨
      (∃ r : RawRecord, i = .prawin r ∧ e = classify r) →
      (s.qe.length + s.rfree < s.fifoDepth →
        exec i s = .next { s with qe := s.qe ++ [e], prodResp := some .ok }) ∧
      (s.fifoDepth ≤ s.qe.length + s.rfree → exec i s = .next { s with
        sticky := s.sticky ||| 0b00001#5,
        drops := if s.drops = 0xFFFFFFFF#32 then s.drops else s.drops + 1#32,
        prodResp := some .dropped }))

/-- R184: the event parser on every record: each kind, note-on with velocity 0, and unrecognised kinds. -/
def Obligations.ClassifyEveryRecord : Prop :=
  ∀ r : RawRecord,
    let kind := r.extractLsb' 0 4
    let num := r.extractLsb' 8 7
    let v7 := r.extractLsb' 16 7
    let bend := r.extractLsb' 32 32
    (kind = 1#4 → v7 = 0#7 → classify r = PZERO ++ 0#49 ++ 0#7 ++ 0#5 ++ 5#3) ∧
    (kind = 1#4 → v7 ≠ 0#7 → classify r = fdiv (ofInt v7.toNat) V_SCALE ++ 0#49 ++ num ++ 0#5 ++ 1#3) ∧
    (kind = 2#4 → classify r = PZERO ++ 0#49 ++ num ++ 0#5 ++ 2#3) ∧
    (kind = 3#4 → classify r = fdiv (ofInt v7.toNat) V_SCALE ++ 0#49 ++ num ++ 0#5 ++ 4#3) ∧
    (kind = 4#4 → classify r = fdiv (ofInt bend.toInt) B_SCALE ++ 0#49 ++ 0#7 ++ 0#5 ++ 3#3) ∧
    (kind ≠ 1#4 → kind ≠ 2#4 → kind ≠ 3#4 → kind ≠ 4#4 →
      classify r = PZERO ++ 0#49 ++ 0#7 ++ 0#5 ++ 5#3)

/-- R185: the bend division is exact for every 32-bit bend, and the listed velocities have the listed
values. An inference the spec marks as its own (R185: "The bend division by `8192.0 = 2^13` is exact for every
32-bit `bend`"). -/
def Obligations.NormalisedValues : Prop :=
  (∀ b : BitVec 32, isNaN (normalisedBend b) = false ∧
    units (normalisedBend b) * 8192 = b.toInt * (oneUnits : Int)) ∧
  normalised7 0#7 = 0#64 ∧ normalised7 127#7 = 0x3FF0000000000000#64 ∧
  normalised7 1#7 = 0x3F80204081020408#64 ∧ normalised7 100#7 = 0x3FE93264C993264D#64 ∧
  normalisedBend 4096#32 = 0x3FE0000000000000#64 ∧ normalisedBend 0xFFFFE000#32 = 0xBFF0000000000000#64 ∧
  normalisedBend 8191#32 = 0x3FEFFF0000000000#64 ∧ normalisedBend 16384#32 = 0x4000000000000000#64 ∧
  normalisedBend 0#32 = 0#64

/-- R188, R65: `DEQ` answers the oldest visible word and frees its slot, or `EMPTY_WORD` at once; it
applies nothing. -/
def Obligations.DeqPopsTheOldestVisibleWord : Prop :=
  ∀ (s : State) (w : Wide),
    decodeHost ⟨0x00000010#32, w⟩ = .ok .deq ∧
    (∀ (k : Nat) (e : EventWord) (q : List EventWord), s.wvis = k + 1 → s.qe = e :: q →
      exec .deq s = .next { s with
        qe := q, wvis := k, rfree := s.rfree + 1, hostResp := some ⟨.ok, e⟩ }) ∧
    (s.wvis = 0 → exec .deq s = .next { s with hostResp := some ⟨.ok, 0#128⟩ })

/-- R189, R191 to R194: `TICK` on each tag: it clears the active note, pops one visible word,
applies it and answers it; with none visible it clears the note and answers `EMPTY_WORD`. -/
def Obligations.TickAppliesOneEvent : Prop :=
  ∀ (s : State) (w : Wide),
    decodeHost ⟨0x00000011#32, w⟩ = .ok .tick ∧
    (s.wvis = 0 → exec .tick s = .next { s with cNote := 0xFF#8, hostResp := some ⟨.ok, 0#128⟩ }) ∧
    (∀ (k : Nat) (e : EventWord) (q : List EventWord), s.wvis = k + 1 → s.qe = e :: q →
      let base := { s with
        cNote := 0xFF#8, qe := q, wvis := k, rfree := s.rfree + 1, hostResp := some ⟨.ok, e⟩ }
      (eventTag e = 1#3 → fgt (eventValue e) PZERO = true → exec .tick s = .next { base with
        cNote := (eventKey e).setWidth 8, cFreq := noteFreq (eventKey e), cVel := eventValue e,
        held := s.held ||| (1#128 <<< (eventKey e).toNat) }) ∧
      (eventTag e = 1#3 → fgt (eventValue e) PZERO = false → exec .tick s = .next base) ∧
      (eventTag e = 2#3 → exec .tick s = .next { base with
        cFreq := 0xBFF0000000000000#64, cVel := 0#64,
        held := s.held &&& ~~~(1#128 <<< (eventKey e).toNat) }) ∧
      (eventTag e = 3#3 → exec .tick s = .next { base with cBend := eventValue e }) ∧
      (eventTag e ≠ 1#3 → eventTag e ≠ 2#3 → eventTag e ≠ 3#3 → exec .tick s = .next base))

/-- R200: each note's held bit moves on its own: a `TICK` that pops `e` sets the bit of a NoteOn with
velocity above 0, clears the bit of a NoteOff, and leaves every other bit. An inference the spec marks as its
own (R200: "Per-note state machine, independent per note number"). -/
def Obligations.HeldBitOfEachNote : Prop :=
  ∀ (s t : State) (k : Nat) (e : EventWord) (q : List EventWord) (n : Nat),
    s.wvis = k + 1 → s.qe = e :: q → exec .tick s = .next t → n < 128 →
    t.held.getLsbD n =
      if eventTag e = 1#3 ∧ fgt (eventValue e) PZERO = true ∧ (eventKey e).toNat = n then true
      else if eventTag e = 2#3 ∧ (eventKey e).toNat = n then false
      else s.held.getLsbD n

/-- R190: the note frequency, exact at the octaves of A4 under every configuration, and positive for
every note. That it is positive is an inference the spec marks as its own (R190: "`NOTEFREQ(n) > 0` for every
`n`"). -/
def Obligations.NoteFrequency : Prop :=
  (∀ n : BitVec 7, noteFreq n = fmul A4_HZ (Config.EXP2 (fdiv (ofInt ((n.toNat : Int) - 69)) TWELVE)) ∧
    fgt (noteFreq n) PZERO = true) ∧
  noteFreq 69#7 = 0x407B800000000000#64 ∧ noteFreq 81#7 = 0x408B800000000000#64 ∧
  noteFreq 57#7 = 0x406B800000000000#64 ∧ noteFreq 21#7 = 0x403B800000000000#64 ∧
  noteFreq 9#7 = 0x402B800000000000#64

/-- R195: `NOTEHELD n` answers the held bit of a note and changes nothing else; a number above 127 is
`BAD_INDEX`. -/
def Obligations.NoteheldAnswersTheBit : Prop :=
  ∀ (s : State) (n : BitVec 8) (w : Wide),
    decodeHost ⟨0#8 ++ 0#8 ++ n ++ 0x12#8, w⟩ = .ok (.noteheld n) ∧
    (n.toNat ≤ 127 → exec (.noteheld n) s = .next { s with
      hostResp := some ⟨.ok, if s.held.getLsbD n.toNat then 1#128 else 0#128⟩ }) ∧
    (127 < n.toNat →
      exec (.noteheld n) s = .next (raiseHost .badIndex (0#8 ++ 0#8 ++ n ++ 0x12#8) s))

/-- R196 to R199, R231: `NOP` answers 0 and the accessors answer their register, the note sign-extended to
64 bits; none changes anything else. -/
def Obligations.NopAndAccessorsOnlyAnswer : Prop :=
  ∀ (s : State) (w : Wide),
    decodeHost ⟨0x00000000#32, w⟩ = .ok .nop ∧
    exec .nop s = .next { s with hostResp := some ⟨.ok, 0#128⟩ } ∧
    decodeHost ⟨0x00000013#32, w⟩ = .ok .getfreq ∧ decodeHost ⟨0x00000014#32, w⟩ = .ok .getvel ∧
    decodeHost ⟨0x00000015#32, w⟩ = .ok .getbend ∧ decodeHost ⟨0x00000016#32, w⟩ = .ok .getnote ∧
    exec .getfreq s = .next { s with hostResp := some ⟨.ok, 0#64 ++ s.cFreq⟩ } ∧
    exec .getvel s = .next { s with hostResp := some ⟨.ok, 0#64 ++ s.cVel⟩ } ∧
    exec .getbend s = .next { s with hostResp := some ⟨.ok, 0#64 ++ s.cBend⟩ } ∧
    exec .getnote s = .next { s with hostResp := some ⟨.ok, 0#64 ++ s.cNote.signExtend 64⟩ }

/-! ### System commands -/

/-- R232, R103: `RDREG` of every selector answers its register and changes nothing else; a reserved
selector, or a global one with `IDX != 0`, is `ILLEGAL`, and an instance that does not exist is
`BAD_INDEX`. That a word with such a selector decodes to the command, which then answers `ILLEGAL`, is the
model's choice (R265 step 5 and R106 call the word `ILLEGAL`; notes/assumptions/6.md). -/
def Obligations.RdregAnswersEverySelector : Prop :=
  ∀ (s : State) (w : Wide) (sel o : BitVec 8),
    decodeHost ⟨0#8 ++ sel ++ o ++ 0x30#8, w⟩ = .ok (.rdreg sel o) ∧
    (sel.toNat ∉ globalSelectors → sel.toNat ∉ oscSelectors →
      exec (.rdreg sel o) s = .next (raiseHost .illegal (0#8 ++ sel ++ o ++ 0x30#8) s)) ∧
    (sel.toNat ∈ globalSelectors → o ≠ 0#8 →
      exec (.rdreg sel o) s = .next (raiseHost .illegal (0#8 ++ sel ++ o ++ 0x30#8) s)) ∧
    (sel.toNat ∈ oscSelectors → numOsc s ≤ o.toNat →
      exec (.rdreg sel o) s = .next (raiseHost .badIndex (0#8 ++ sel ++ o ++ 0x30#8) s)) ∧
    exec (.rdreg 0x00#8 0#8) s = .next { s with hostResp := some ⟨.ok, 0#64 ++ s.sr⟩ } ∧
    exec (.rdreg 0x01#8 0#8) s = .next { s with hostResp := some ⟨.ok, 0#64 ++ ctrlWord s.ctrl⟩ } ∧
    exec (.rdreg 0x02#8 0#8) s = .next { s with hostResp := some ⟨.ok, 0#64 ++ statusWord s⟩ } ∧
    exec (.rdreg 0x03#8 0#8) s = .next { s with hostResp := some ⟨.ok, 0#96 ++ s.drops⟩ } ∧
    exec (.rdreg 0x04#8 0#8) s = .next { s with hostResp := some ⟨.ok, BitVec.ofNat 128 s.wvis⟩ } ∧
    exec (.rdreg 0x05#8 0#8) s = .next { s with hostResp := some ⟨.ok, 0#64 ++ s.errInfo⟩ } ∧
    exec (.rdreg 0x06#8 0#8) s = .next { s with hostResp := some ⟨.ok, 0#64 ++ paramsWord s⟩ } ∧
    exec (.rdreg 0x07#8 0#8) s = .next { s with hostResp := some ⟨.ok, s.held⟩ } ∧
    exec (.rdreg 0x09#8 0#8) s = .next { s with hostResp := some ⟨.ok, 0#64 ++ s.cFreq⟩ } ∧
    exec (.rdreg 0x0A#8 0#8) s = .next { s with hostResp := some ⟨.ok, 0#64 ++ s.cVel⟩ } ∧
    exec (.rdreg 0x0B#8 0#8) s = .next { s with hostResp := some ⟨.ok, 0#64 ++ s.cBend⟩ } ∧
    exec (.rdreg 0x0C#8 0#8) s = .next { s with hostResp := some ⟨.ok, 0#64 ++ s.cNote.signExtend 64⟩ } ∧
    (∀ v, IsOsc s o.toNat v →
      exec (.rdreg 0x10#8 o) s = .next { s with hostResp := some ⟨.ok, 0#126 ++ modeCode v.mode⟩ } ∧
      exec (.rdreg 0x11#8 o) s = .next { s with hostResp := some ⟨.ok, 0#64 ++ v.freq⟩ } ∧
      exec (.rdreg 0x12#8 o) s = .next { s with hostResp := some ⟨.ok, 0#64 ++ v.pitch⟩ } ∧
      exec (.rdreg 0x13#8 o) s = .next { s with hostResp := some ⟨.ok, 0#64 ++ v.phase⟩ } ∧
      exec (.rdreg 0x14#8 o) s = .next { s with hostResp := some ⟨.ok, 0#64 ++ v.inc⟩ } ∧
      exec (.rdreg 0x15#8 o) s = .next { s with hostResp := some ⟨.ok,
        0#125 ++ BitVec.ofBool v.stale ++ BitVec.ofBool v.naive ++ BitVec.ofBool v.muted⟩ } ∧
      exec (.rdreg 0x16#8 o) s = .next { s with hostResp := some ⟨.ok, 0#64 ++ v.last⟩ })

/-- R233: `WRCSR` writes `CTRL`, clears the sticky bits written 1, or writes `DROPS`, and nothing else;
any other selector is `ILLEGAL`. That a word with such a selector decodes to the command, which then answers
`ILLEGAL`, is the model's choice (R106 calls the word `ILLEGAL`; notes/assumptions/6.md). -/
def Obligations.WrcsrWritesThreeRegisters : Prop :=
  ∀ (s : State) (sel : BitVec 8) (v : BitVec 64) (w : Wide),
    decodeHost ⟨0#8 ++ sel ++ 0#8 ++ 0x31#8, w⟩ = .ok (.wrcsr sel (w.extractLsb' 0 64)) ∧
    exec (.wrcsr 0x01#8 v) s = .next { s with
      ctrl := ⟨v.getLsbD 0, v.getLsbD 1, v.extractLsb' 8 5⟩, hostResp := some ⟨.ok, 0#128⟩ } ∧
    exec (.wrcsr 0x02#8 v) s = .next { s with
      sticky := s.sticky &&& ~~~(v.extractLsb' 0 5), hostResp := some ⟨.ok, 0#128⟩ } ∧
    exec (.wrcsr 0x03#8 v) s = .next { s with
      drops := v.extractLsb' 0 32, hostResp := some ⟨.ok, 0#128⟩ } ∧
    (sel ≠ 0x01#8 → sel ≠ 0x02#8 → sel ≠ 0x03#8 →
      exec (.wrcsr sel v) s = .next (raiseHost .illegal (0#8 ++ sel ++ 0#8 ++ 0x31#8) s))

/-- R40, R41, R44, R67: the bits of `CTRL`, `STATUS` and `PARAMS` as read. A written `CTRL` keeps bits 12:8, 1
and 0 alone; `STATUS` shows the sticky bits, `EMPTY`, `FULL` and `STALEANY`, and 0 elsewhere; in every
configuration R7 allows, `PARAMS` shows `NUM_OSC` in bits 15:0, `FIFO_DEPTH` in bits 47:16, and 0 above. -/
def Obligations.ControlAndStatusBits : Prop :=
  (∀ v : BitVec 64, ctrlWord (ctrlOfWord v) = v &&& 0x1F03#64) ∧
  (∀ s : State,
    (∀ j, j < 5 → (statusWord s).getLsbD j = s.sticky.getLsbD j) ∧
    ((statusWord s).getLsbD 8 = true ↔ s.wvis = 0) ∧
    ((statusWord s).getLsbD 9 = true ↔ s.qe.length + s.rfree = s.fifoDepth) ∧
    ((statusWord s).getLsbD 10 = true ↔ ∃ i v, IsOsc s i v ∧ v.stale = true) ∧
    (∀ j, j < 64 → ¬ j < 5 → j ≠ 8 → j ≠ 9 → j ≠ 10 → (statusWord s).getLsbD j = false)) ∧
  (∀ s : State, configLegal s →
    ((paramsWord s).extractLsb' 0 16).toNat = numOsc s ∧
    ((paramsWord s).extractLsb' 16 32).toNat = s.fifoDepth ∧
    (paramsWord s).extractLsb' 48 16 = 0#16)

/-- R46, R268: `IRQ` is the OR over the five sticky bits of the bit and its enable, and clearing every
sticky bit lowers it. -/
def Obligations.IrqIsTheEnabledStickyBits : Prop :=
  (∀ s : State, irq s = true ↔ ∃ j, j < 5 ∧ s.sticky.getLsbD j = true ∧ s.ctrl.ie.getLsbD j = true) ∧
  (∀ s t : State, exec (.wrcsr 0x02#8 0x1F#64) s = .next t → irq t = false)

/-! ### The render period -/

/-- R234, R236: `RUNPERIOD`'s first step does what `TICK` does but for the answer, which is still to come,
and leaves the sequencer busy with `n` samples to render. Where the model keeps the period's place, and that no
answer stands meanwhile, is notes/assumptions/3.md and 7.md. -/
def Obligations.RunperiodBeginsWithTheTick : Prop :=
  ∀ (s : State) (w : Wide),
    decodeHost ⟨0x00000020#32, w⟩ = .ok (.runperiod (w.extractLsb' 0 32)) ∧
    ∀ n : BitVec 32, ∃ (t : State) (e : EventWord),
      exec .tick s = .next { t with hostResp := some ⟨.ok, e⟩ } ∧
      exec (.runperiod n) s = .next { t with hostResp := none, seq := .couple n e } ∧
      busy { t with hostResp := none, seq := .couple n e } = true

/-- R235: the coupling step on oscillator 0 with `AUTO = 1`, sounding and silent, and no coupling with
`AUTO = 0`; nothing but oscillator 0 and the sequencer changes, and the phase does not. That the coupling is a
step of its own also with `AUTO = 0`, and that `AUTO` is read in that step, is deduced, not the spec's word
(notes/assumptions/7.md). -/
def Obligations.CouplingStep : Prop :=
  ∀ (s : State) (rest : List Move) (n : BitVec 32) (e : EventWord),
    s.sched = .host :: rest → s.seq = .couple n e →
    (s.ctrl.auto = true → fgt s.cFreq PZERO = true → step s = .next { s with
      sched := rest, seq := .samples n e,
      osc := { s.osc with first := { s.osc.first with
        freq := s.cFreq, muted := false, pitch := s.cBend,
        inc := incrementOf s.sr s.cFreq s.cBend, stale := false } } }) ∧
    (s.ctrl.auto = true → fgt s.cFreq PZERO = false → step s = .next { s with
      sched := rest, seq := .samples n e,
      osc := { s.osc with first := { s.osc.first with
        muted := true, pitch := s.cBend,
        inc := incrementOf s.sr s.osc.first.freq s.cBend, stale := false } } }) ∧
    (s.ctrl.auto = false → step s = .next { s with sched := rest, seq := .samples n e })

/-- R234, R236, R237: a sample step with `SOUT` free renders one sample of oscillator 0 into `SOUT`; with
none left the sequencer answers with the tick's event and is idle again. That the answer is a step of its own
is the model's choice (notes/assumptions/7.md). -/
def Obligations.SampleStepAndEndOfPeriod : Prop :=
  ∀ (s : State) (rest : List Move) (n : BitVec 32) (e : EventWord),
    s.sched = .host :: rest → s.seq = .samples n e →
    (n ≠ 0#32 → s.sout = none → phaseInRange s.osc.first → incInRange s.osc.first →
      ∃ v, nextSample s.osc.first = some (sampleValue s.osc.first, v) ∧
        step s = .next { s with
          sched := rest, seq := .samples (n - 1#32) e, sout := some (sampleValue s.osc.first),
          osc := { s.osc with first := v } }) ∧
    (n = 0#32 → step s = .next { s with
      sched := rest, seq := .idle, hostResp := some ⟨.ok, e⟩ })

/-- R234, R305: a whole period with a sink that takes each sample at once: one pop, exactly `n` samples in
order, those of oscillator 0 after the coupling, then the answer with the tick's event and the sequencer idle
again. An inference the spec marks as its own (R305: "performs exactly one FIFO pop and
exactly `n` sample steps, and emits exactly `n` samples in order"); the number of steps is the model's
(notes/assumptions/7.md). -/
def Obligations.RunperiodEmitsExactlyNSamples : Prop :=
  ∀ (s : State) (n : BitVec 32) (ps : List Request) (rest : List Move) (ys : List F64) (v : Osc),
    s.seq = .idle → s.sout = none → s.hostPort = encode (.runperiod n) :: ps →
    s.sched = .host :: .host :: (sampleMoves n.toNat ++ .host :: rest) →
    renderSamples n.toNat (if s.ctrl.auto
      then coupledOsc s.sr (tickBody s).2.cFreq (tickBody s).2.cBend s.osc.first
      else s.osc.first) = some (ys, v) →
    ys.length = n.toNat ∧
    Host.Core.run Sys2Proof.core (2 + 2 * n.toNat + 1) s = .next { (tickBody s).2 with
      hostPort := ps, sched := rest, sinkLog := s.sinkLog ++ ys,
      osc := { s.osc with first := v }, hostResp := some ⟨.ok, (tickBody s).1⟩ }

/-! ### Whole-machine rules -/

/-- R153: no command but `NEXT` changes a phase or a `LAST` in its own step, and `NEXT` changes `LAST`
only on the band-limited triangle path of its own instance. An inference the spec marks as its own (R153: "No
oscillator command except `NEXT` (and `RUNPERIOD` through it) changes `PHASE`"). -/
def Obligations.OnlyNextMovesPhaseAndLast : Prop :=
  ∀ (i : Instr) (s t : State), exec i s = .next t →
    ((∀ o, i ≠ .next o) → ∀ k v, IsOsc s k v →
      ∃ v', IsOsc t k v' ∧ v'.phase = v.phase ∧ v'.last = v.last) ∧
    (∀ o, i = .next o → ∀ k v, IsOsc s k v →
      ∃ v', IsOsc t k v' ∧ (k ≠ o.toNat → v' = v) ∧
        (¬ (v.muted = false ∧ v.naive = false ∧ v.mode = .triangle) → v'.last = v.last))

/-- R21, R24 to R38, R40 to R43, R45, R47, R62: which command writes each register in its own step. `SR` is
written by `SETSR` alone; of instance `k`, each field by the commands of index `k` that set it, and `STALE` by
`SETSR` too; the controller's state by `TICK` and `RUNPERIOD` alone; `WVIS` and `RFREE` by the commands that pop,
and the queue by those and the producer commands; `SOUT` by none, and the sequencer (`BUSY`) by `RUNPERIOD`;
`CTRL` by `WRCSR` alone, `DROPS` by `WRCSR` and the producer commands; `ERR_INFO` and the sticky bits `ILL`,
`BIDX` and `BVAL` by a host command answered with that error, `OVF` by a producer command that is dropped, and a
sticky bit is cleared by `WRCSR STATUS` alone; the number of oscillators and the depth by none. The later steps of
`RUNPERIOD` are those of `CouplingStep` and `SampleStepAndEndOfPeriod`; a producer word that is no command, which
sets `PILL`, is that of `ProducerChecks`. -/
def Obligations.WhoWritesEachRegister : Prop :=
  ∀ (i : Instr) (s t : State), exec i s = .next t →
    ((∀ x, i ≠ .setsr x) → t.sr = s.sr) ∧
    (∀ k v, IsOsc s k v → ∃ v', IsOsc t k v' ∧
      ((∀ o m, i = .setmode o m → o.toNat ≠ k) → v'.mode = v.mode) ∧
      ((∀ o x, i = .setfreq o x → o.toNat ≠ k) → v'.freq = v.freq) ∧
      ((∀ o x, i = .setpitch o x → o.toNat ≠ k) → v'.pitch = v.pitch) ∧
      ((∀ o x, i = .setfreq o x → o.toNat ≠ k) → (∀ o x, i = .setpitch o x → o.toNat ≠ k) →
        v'.inc = v.inc ∧ ((∀ x, i ≠ .setsr x) → v'.stale = v.stale)) ∧
      ((∀ o, i = .mute o → o.toNat ≠ k) → (∀ o, i = .unmute o → o.toNat ≠ k) → v'.muted = v.muted) ∧
      ((∀ o b, i = .usenaive o b → o.toNat ≠ k) → v'.naive = v.naive) ∧
      ((∀ o, i = .next o → o.toNat ≠ k) → v'.phase = v.phase ∧ v'.last = v.last)) ∧
    (i ≠ .tick → (∀ n, i ≠ .runperiod n) →
      t.cFreq = s.cFreq ∧ t.cVel = s.cVel ∧ t.cBend = s.cBend ∧ t.cNote = s.cNote ∧ t.held = s.held) ∧
    (i ≠ .deq → i ≠ .tick → (∀ n, i ≠ .runperiod n) →
      t.wvis = s.wvis ∧ t.rfree = s.rfree ∧ (i.port = .host → t.qe = s.qe)) ∧
    t.sout = s.sout ∧ ((∀ n, i ≠ .runperiod n) → t.seq = s.seq) ∧
    ((∀ sel v, i ≠ .wrcsr sel v) → t.ctrl = s.ctrl) ∧
    ((∀ sel v, i ≠ .wrcsr sel v) → i.port = .host → t.drops = s.drops) ∧
    (t.errInfo ≠ s.errInfo → i.port = .host ∧ ∃ x, t.hostResp = some x ∧ x.resp ≠ .ok) ∧
    (∀ j, s.sticky.getLsbD j = true → t.sticky.getLsbD j = false → ∃ v, i = .wrcsr 0x02#8 v) ∧
    (∀ j, s.sticky.getLsbD j = false → t.sticky.getLsbD j = true →
      (j = 0 ∧ i.port = .producer ∧ t.prodResp = some .dropped) ∨
      (j = 1 ∧ i.port = .host ∧ t.hostResp = some ⟨.illegal, 0#128⟩) ∨
      (j = 2 ∧ i.port = .host ∧ t.hostResp = some ⟨.badIndex, 0#128⟩) ∨
      (j = 3 ∧ i.port = .host ∧ t.hostResp = some ⟨.badValue, 0#128⟩)) ∧
    t.osc.others.length = s.osc.others.length ∧ t.fifoDepth = s.fifoDepth

/-! ### Invariants -/

/-- R62, R63: from every state that meets the FIFO bounds, every step gives one that does. An inference the
spec marks as its own (R63: "Invariant kept by every step: `len(QE) + RFREE <= FIFO_DEPTH`"). -/
def Obligations.FifoBoundsAreKept : Prop :=
  ∀ s t : State, fifoBounded s → step s = .next t → fifoBounded t

/-- R68, the FIFO law: in every run without a reset, the words popped, then those still queued, are those
queued at the start, then those accepted, in the same order, each exactly once. An inference the spec marks as
its own (R68: "in the same order, each exactly once"); reset is left out, since it loses the queue (R80). -/
def Obligations.FifoLaw : Prop :=
  ∀ (k : Nat) (s t : State), Host.Core.run Sys2Proof.core k s = .next t →
    (∀ m ∈ s.sched.take k, m ≠ .reset) → poppedBy k s ++ t.qe = s.qe ++ acceptedBy k s

/-- R201: `C_FREQ` and `C_VEL` are both positive or both at their silent values, from every state in which
they are. Part of an inference the spec marks as its own (R201: "`C_VEL > 0` exactly when `C_FREQ > 0`, and
`C_VEL = +0.0` otherwise"). -/
def Obligations.VoiceConsistencyIsKept : Prop :=
  ∀ s t : State, voiceConsistent s → step s = .next t → voiceConsistent t

/-- R28, R152: from every state with a legal rate and every phase and increment in range, every step gives
one with every phase in `[+0.0, TWO_PI)` and every increment in its range. An inference the spec marks as its
own (R152: "After any sequence of commands, `+0.0 <= O[i].PHASE < TWO_PI` for every `i`"). -/
def Obligations.PhaseInvariantIsKept : Prop :=
  ∀ s t : State, rateLegal s → (∀ i v, IsOsc s i v → phaseInRange v ∧ incInRange v) →
    step s = .next t → rateLegal t ∧ ∀ i v, IsOsc t i v → phaseInRange v ∧ incInRange v

/-- Every range and reserved field the spec states (R7, R24, R28, R29, R37, R42, R62, R63, R99, R201) is
kept by every step. R29, R63 and R201 are inferences the spec marks as its own. -/
def Obligations.EveryStepKeepsTheInvariant : Prop :=
  ∀ s t : State, Inv s → step s = .next t → Inv t

/-- The invariant holds after reset in every configuration R7 allows. -/
def Obligations.ResetMeetsTheInvariant : Prop :=
  ∀ extra depth : Nat, extra + 1 ≤ 256 → Config.legalDepth depth = true → Inv (State.resetWith extra depth)

/-- R261, R69, R304: in a state that meets the invariant every step completes: nothing stops the block. An entry
of the schedule whose agent is not enabled passes without effect (notes/assumptions/1.md). -/
def Obligations.EveryStepCompletes : Prop :=
  ∀ s : State, Inv s → ∃ t, step s = .next t

/-! ### Visibility -/

/-- R297, R298: an accepted event can be unseen by the next `TICK`, and a push can be dropped while
`FIFO_LEVEL` is below `FIFO_DEPTH`; both in states that meet the invariant. The second is an inference the spec
marks as its own (R298: "a producer command can be `DROPPED` while `FIFO_LEVEL < FIFO_DEPTH`").

R66, R237, R297: the latencies are finite in every fair execution, unless reset comes first: there is a later
step by which every word still hidden was accepted since (so each word hidden before has become visible), one by
which no more slots wait for release than were freed since, and one by which the sample `SOUT` held is in the
sink's record. That fairness is a condition on infinite executions is the model's form of it
(notes/assumptions/17.md). -/
def Obligations.VisibilityLatencies : Prop :=
  (∃ s t : State, Inv s ∧ s.qe ≠ [] ∧ exec .tick s = .next t ∧ t.hostResp = some ⟨.ok, 0#128⟩ ∧
    t.qe = s.qe) ∧
  (∃ s t : State, ∃ x : F64, Inv s ∧ s.wvis < s.fifoDepth ∧ exec (.penq 3#3 0#7 x) s = .next t ∧
    t.prodResp = some .dropped) ∧
  (∀ (x : Execution) (k : Nat), x.fair →
    (fifoBounded (x.states k) →
      ∃ n, resetFrom x k n ∨ hiddenWords (x.states (k + n)) <:+ acceptedFrom x k n) ∧
    (∃ n, resetFrom x k n ∨ (x.states (k + n)).rfree ≤ (poppedFrom x k n).length) ∧
    (∀ y : F64, (x.states k).sout = some y →
      ∃ n, resetFrom x k n ∨ (x.states (k + n)).sinkLog = (x.states k).sinkLog ++ [y]))

/-! ### Numerics -/

/-- R12: a rounded value is nearest to the exact one: no finite binary64 value is nearer, and at equal
distance from another the one chosen has its last bit 0; from half a unit in the last place above the largest
finite value on, it is an infinity. On finite operands, addition, subtraction, multiplication and division by a
nonzero value are the rounded exact sum, difference, product and quotient. The sign of an exact zero sum is that
of the IEEE 754 operation R12 names, presumed (notes/assumptions/10.md). -/
def Obligations.RoundingIsToNearestEven : Prop :=
  (∀ (neg : Bool) (num den : Nat), 0 < den →
    (isFinite (roundRatio neg num den) = false ↔ (2 ^ 54 - 1) * 2 ^ 2044 * den ≤ num) ∧
    (isFinite (roundRatio neg num den) = false → roundRatio neg num den = if neg then NINF else PINF) ∧
    (∀ y : F64, isFinite (roundRatio neg num den) = true → isFinite y = true →
      let x : Int := if neg then -(num : Int) else (num : Int)
      |units (roundRatio neg num den) * den - x| ≤ |units y * den - x| ∧
      (|units (roundRatio neg num den) * den - x| = |units y * den - x| →
        units y = units (roundRatio neg num den) ∨ (roundRatio neg num den).getLsbD 0 = false))) ∧
  (∀ x y : F64, isFinite x = true → isFinite y = true →
    (units x + units y ≠ 0 →
      fadd x y = roundRatio (decide (units x + units y < 0)) (units x + units y).natAbs 1) ∧
    (units x + units y = 0 → fadd x y = if signBit x && signBit y then NZERO else PZERO) ∧
    (units x - units y ≠ 0 →
      fsub x y = roundRatio (decide (units x - units y < 0)) (units x - units y).natAbs 1) ∧
    (units x - units y = 0 → fsub x y = if signBit x && !signBit y then NZERO else PZERO) ∧
    fmul x y = roundRatio (signBit x != signBit y) (magUnits x * magUnits y) oneUnits ∧
    (magUnits y ≠ 0 →
      fdiv x y = roundRatio (signBit x != signBit y) (magUnits x * oneUnits) (magUnits y)))

/-- R14: every NaN that addition, subtraction, multiplication or division delivers is the canonical one, and
on finite operands the first three deliver none. -/
def Obligations.OperationsDeliverTheCanonicalNaN : Prop :=
  ∀ x y : F64,
    (isNaN (fadd x y) = true → fadd x y = 0x7FF8000000000000#64) ∧
    (isNaN (fsub x y) = true → fsub x y = 0x7FF8000000000000#64) ∧
    (isNaN (fmul x y) = true → fmul x y = 0x7FF8000000000000#64) ∧
    (isNaN (fdiv x y) = true → fdiv x y = 0x7FF8000000000000#64) ∧
    (isFinite x = true → isFinite y = true →
      isNaN (fadd x y) = false ∧ isNaN (fsub x y) = false ∧ isNaN (fmul x y) = false)
end

