-- ==== Sys2Proof/Laws/Decode.lean ====
section
/-!
SUPPORT. The fields of a command word, the rows of the host opcode map, operand fields and serialised
bytes: what later proofs about the decoder cite.
-/

namespace Sys2Proof

/-! ### Fields of an assembled word (R92, R109) -/

theorem fieldOpc_toNat (c : CmdWord) : (fieldOpc c).toNat = c.toNat % 256 := by
  simp [fieldOpc, BitVec.extractLsb'_toNat]

theorem fieldIdx_toNat (c : CmdWord) : (fieldIdx c).toNat = c.toNat / 256 % 256 := by
  simp [fieldIdx, BitVec.extractLsb'_toNat, Nat.shiftRight_eq_div_pow]

theorem fieldSel_toNat (c : CmdWord) : (fieldSel c).toNat = c.toNat / 65536 % 256 := by
  simp [fieldSel, BitVec.extractLsb'_toNat, Nat.shiftRight_eq_div_pow]

theorem fieldTop_toNat (c : CmdWord) : (fieldTop c).toNat = c.toNat / 16777216 := by
  simp only [fieldTop, BitVec.extractLsb'_toNat, Nat.shiftRight_eq_div_pow]
  omega

theorem commandWord_toNat (sel idx opc : BitVec 8) :
    (commandWord sel idx opc).toNat = sel.toNat * 65536 + idx.toNat * 256 + opc.toNat := by
  have h1 := opc.isLt
  have h2 := idx.isLt
  have h3 := sel.isLt
  have e : (commandWord sel idx opc).toNat = (0#8 ++ sel ++ idx ++ opc).toNat := rfl
  rw [e, BitVec.toNat_append, BitVec.toNat_append, BitVec.toNat_append,
    ← Nat.shiftLeft_add_eq_or_of_lt h1, ← Nat.shiftLeft_add_eq_or_of_lt h2,
    ← Nat.shiftLeft_add_eq_or_of_lt h3]
  simp only [Nat.shiftLeft_eq, BitVec.toNat_ofNat]
  omega

@[simp] theorem fieldOpc_commandWord (sel idx opc : BitVec 8) : fieldOpc (commandWord sel idx opc) = opc :=
  BitVec.eq_of_toNat_eq (by rw [fieldOpc_toNat, commandWord_toNat]; omega)

@[simp] theorem fieldIdx_commandWord (sel idx opc : BitVec 8) : fieldIdx (commandWord sel idx opc) = idx :=
  BitVec.eq_of_toNat_eq (by rw [fieldIdx_toNat, commandWord_toNat]; omega)

@[simp] theorem fieldSel_commandWord (sel idx opc : BitVec 8) : fieldSel (commandWord sel idx opc) = sel :=
  BitVec.eq_of_toNat_eq (by rw [fieldSel_toNat, commandWord_toNat]; omega)

@[simp] theorem fieldTop_commandWord (sel idx opc : BitVec 8) : fieldTop (commandWord sel idx opc) = 0#8 :=
  BitVec.eq_of_toNat_eq (by rw [fieldTop_toNat, commandWord_toNat]; simp; omega)

/-- A command word with no reserved bit is assembled from its fields (R109). -/
theorem commandWord_of_fields (c : CmdWord) (h : fieldTop c = 0#8) :
    commandWord (fieldSel c) (fieldIdx c) (fieldOpc c) = c := by
  have ht : (fieldTop c).toNat = 0 := by rw [h]; rfl
  rw [fieldTop_toNat] at ht
  refine BitVec.eq_of_toNat_eq ?_
  rw [commandWord_toNat, fieldOpc_toNat, fieldIdx_toNat, fieldSel_toNat]
  omega

/-! ### The host opcode map (R97) -/

/-- Only the listed opcodes have a row. -/
theorem hostRow_isSome_iff (opc : BitVec 8) : (hostRow opc).isSome = true ↔
    opc.toNat ∈ Machine.hostOpcodes := by
  revert opc
  decide

/-- The format of each row, as R97 prints it. -/
theorem hostRow_format (opc : BitVec 8) (f : Format) (b : BitVec 8 → BitVec 8 → Wide → Instr)
    (h : hostRow opc = some (f, b)) :
    f.usesIdx = decide (opc.toNat ∈ Machine.idxOpcodes) ∧
    f.usesSel = decide (opc.toNat ∈ Machine.selOpcodes) := by
  have table : ∀ opc : BitVec 8, ((hostRow opc).map (·.1)).all (fun f =>
      f.usesIdx == decide (opc.toNat ∈ Machine.idxOpcodes) &&
      f.usesSel == decide (opc.toNat ∈ Machine.selOpcodes)) = true := by decide
  have := table opc
  rw [h] at this
  simpa using this

/-- What the host decoder answers, check by check (R265 steps 1 to 4). -/
theorem decodeHost_cases (r : Request) :
    (hostRow (fieldOpc r.cmd) = none ∧ decodeHost r = .error .reservedOpcode) ∨
    (∃ f b, hostRow (fieldOpc r.cmd) = some (f, b) ∧
      ((fieldTop r.cmd ≠ 0#8 ∧ decodeHost r = .error .reservedBits) ∨
        (fieldTop r.cmd = 0#8 ∧ fieldIdx r.cmd ≠ 0#8 ∧ f.usesIdx = false ∧
          decodeHost r = .error .unusedIdx) ∨
        (fieldTop r.cmd = 0#8 ∧ fieldSel r.cmd ≠ 0#8 ∧ f.usesSel = false ∧
          decodeHost r = .error .unusedSel) ∨
        (fieldTop r.cmd = 0#8 ∧ (f.usesIdx = true ∨ fieldIdx r.cmd = 0#8) ∧
          (f.usesSel = true ∨ fieldSel r.cmd = 0#8) ∧
          decodeHost r = .ok (b (fieldIdx r.cmd) (fieldSel r.cmd) r.opnd)))) := by
  unfold decodeHost
  cases h : hostRow (fieldOpc r.cmd) with
  | none => exact Or.inl ⟨rfl, rfl⟩
  | some fb =>
    obtain ⟨f, b⟩ := fb
    refine Or.inr ⟨f, b, rfl, ?_⟩
    by_cases h1 : fieldTop r.cmd = 0#8
    · by_cases h2 : fieldIdx r.cmd ≠ 0#8 ∧ f.usesIdx = false
      · exact Or.inr (Or.inl ⟨h1, h2.1, h2.2, by simp [h1, h2.1, h2.2]⟩)
      · by_cases h3 : fieldSel r.cmd ≠ 0#8 ∧ f.usesSel = false
        · exact Or.inr (Or.inr (Or.inl ⟨h1, h3.1, h3.2, by
            simp only [h1, ne_eq, not_true_eq_false, if_false, h3]
            rw [if_neg h2]; simp⟩))
        · refine Or.inr (Or.inr (Or.inr ⟨h1, ?_, ?_, ?_⟩))
          · cases hu : f.usesIdx
            · exact Or.inr (by_contra fun h => h2 ⟨h, hu⟩)
            · exact Or.inl rfl
          · cases hu : f.usesSel
            · exact Or.inr (by_contra fun h => h3 ⟨h, hu⟩)
            · exact Or.inl rfl
          · simp only [h1, ne_eq, not_true_eq_false, if_false]
            rw [if_neg h2, if_neg h3]
    · exact Or.inl ⟨h1, by simp only [ne_eq, h1, not_false_eq_true, if_true]⟩

/-- A word assembled for a row, with the fields its format lacks at zero, decodes to the row's command (R97,
R105, R109). -/
theorem decodeHost_commandWord {sel idx opc : BitVec 8} {f : Format} {b : BitVec 8 → BitVec 8 → Wide → Instr}
    (w : Wide) (hr : hostRow opc = some (f, b)) (h1 : f.usesIdx = true ∨ idx = 0#8)
    (h2 : f.usesSel = true ∨ sel = 0#8) : decodeHost ⟨commandWord sel idx opc, w⟩ = .ok (b idx sel w) := by
  simp only [decodeHost, fieldOpc_commandWord, hr, fieldTop_commandWord, fieldIdx_commandWord,
    fieldSel_commandWord]
  rcases h1 with h1 | h1 <;> rcases h2 with h2 | h2 <;> simp [h1, h2]

/-! ### Operand fields (R105) and bytes (R78) -/

/-- A field that fills the low bits of an operand is read back. -/
theorem extract_setWidth {n : Nat} (h : n ≤ 128) (x : BitVec n) :
    (x.setWidth 128).extractLsb' 0 n = x := by
  have hx : x.toNat < 2 ^ 128 := lt_of_lt_of_le x.isLt (Nat.pow_le_pow_right (by decide) h)
  apply BitVec.eq_of_toNat_eq
  simp only [BitVec.extractLsb'_toNat, BitVec.toNat_setWidth, Nat.shiftRight_zero]
  rw [Nat.mod_eq_of_lt hx, Nat.mod_eq_of_lt x.isLt]

/-- An event word's fields are read back. -/
theorem eventWord_fields (tag : BitVec 3) (key : BitVec 7) (x : F64) :
    Machine.eventTag (Machine.eventWord tag key x) = tag ∧
    Machine.eventKey (Machine.eventWord tag key x) = key ∧
    Machine.eventValue (Machine.eventWord tag key x) = x := by
  have ht := tag.isLt
  have hk := key.isLt
  have hx := x.isLt
  have e : (Machine.eventWord tag key x).toNat = x.toNat * 2 ^ 64 + key.toNat * 2 ^ 8 + tag.toNat := by
    rw [show (Machine.eventWord tag key x).toNat = (x ++ 0#49 ++ key ++ 0#5 ++ tag).toNat from rfl,
      BitVec.toNat_append, BitVec.toNat_append, BitVec.toNat_append, BitVec.toNat_append,
      ← Nat.shiftLeft_add_eq_or_of_lt ht, ← Nat.shiftLeft_add_eq_or_of_lt (0#5).isLt,
      ← Nat.shiftLeft_add_eq_or_of_lt hk, ← Nat.shiftLeft_add_eq_or_of_lt (0#49).isLt]
    simp only [Nat.shiftLeft_eq, BitVec.toNat_ofNat]
    omega
  refine ⟨?_, ?_, ?_⟩ <;> apply BitVec.eq_of_toNat_eq <;>
    simp only [Machine.eventTag, Machine.eventKey, Machine.eventValue, BitVec.extractLsb'_toNat, e,
      Nat.shiftRight_eq_div_pow] <;> omega

theorem natOfBytes_append (l : List Byte) (b : Byte) :
    natOfBytes (l ++ [b]) = natOfBytes l + 256 ^ l.length * b.toNat := by
  induction l with
  | nil => simp [natOfBytes]
  | cons a l ih => simp [natOfBytes, ih, pow_succ]; ring

/-- The bytes of a word give the word back, cut to their number. -/
theorem natOfBytes_bytesOfWord {w : Nat} (n : Nat) (v : BitVec w) :
    natOfBytes (bytesOfWord n v) = v.toNat % 2 ^ (8 * n) := by
  induction n with
  | zero => simp [bytesOfWord, natOfBytes, Nat.mod_one]
  | succ n ih =>
    rw [show bytesOfWord (n + 1) v = bytesOfWord n v ++ [v.extractLsb' (8 * n) 8] by
      simp [bytesOfWord, List.range_succ], natOfBytes_append, ih]
    simp only [bytesOfWord, List.length_map, List.length_range, BitVec.extractLsb'_toNat,
      Nat.shiftRight_eq_div_pow]
    rw [show (256 : Nat) = 2 ^ 8 by norm_num, ← pow_mul, show 8 * (n + 1) = 8 * n + 8 by ring, pow_add,
      Nat.mod_mul]

end Sys2Proof
end

