-- ==== Sys2Proof/Laws/State.lean ====
section
/-!
SUPPORT. One lemma per field per operation on State: what each operation writes and what it leaves. Later
proofs cite these and never unfold a record update.
-/

namespace Sys2Proof.Machine

variable (s : State)

/-! ### `respondHost`: the host response -/

@[simp] theorem respondHost_sr (r : Resp) (res : Wide) : (respondHost r res s).sr = s.sr := rfl
@[simp] theorem respondHost_osc (r : Resp) (res : Wide) : (respondHost r res s).osc = s.osc := rfl
@[simp] theorem respondHost_cFreq (r : Resp) (res : Wide) : (respondHost r res s).cFreq = s.cFreq := rfl
@[simp] theorem respondHost_cVel (r : Resp) (res : Wide) : (respondHost r res s).cVel = s.cVel := rfl
@[simp] theorem respondHost_cBend (r : Resp) (res : Wide) : (respondHost r res s).cBend = s.cBend := rfl
@[simp] theorem respondHost_cNote (r : Resp) (res : Wide) : (respondHost r res s).cNote = s.cNote := rfl
@[simp] theorem respondHost_held (r : Resp) (res : Wide) : (respondHost r res s).held = s.held := rfl
@[simp] theorem respondHost_qe (r : Resp) (res : Wide) : (respondHost r res s).qe = s.qe := rfl
@[simp] theorem respondHost_wvis (r : Resp) (res : Wide) : (respondHost r res s).wvis = s.wvis := rfl
@[simp] theorem respondHost_rfree (r : Resp) (res : Wide) : (respondHost r res s).rfree = s.rfree := rfl
@[simp] theorem respondHost_fifoDepth (r : Resp) (res : Wide) : (respondHost r res s).fifoDepth = s.fifoDepth := rfl
@[simp] theorem respondHost_ctrl (r : Resp) (res : Wide) : (respondHost r res s).ctrl = s.ctrl := rfl
@[simp] theorem respondHost_sticky (r : Resp) (res : Wide) : (respondHost r res s).sticky = s.sticky := rfl
@[simp] theorem respondHost_errInfo (r : Resp) (res : Wide) : (respondHost r res s).errInfo = s.errInfo := rfl
@[simp] theorem respondHost_drops (r : Resp) (res : Wide) : (respondHost r res s).drops = s.drops := rfl
@[simp] theorem respondHost_sout (r : Resp) (res : Wide) : (respondHost r res s).sout = s.sout := rfl
@[simp] theorem respondHost_seq (r : Resp) (res : Wide) : (respondHost r res s).seq = s.seq := rfl
@[simp] theorem respondHost_sched (r : Resp) (res : Wide) : (respondHost r res s).sched = s.sched := rfl
@[simp] theorem respondHost_hostPort (r : Resp) (res : Wide) : (respondHost r res s).hostPort = s.hostPort := rfl
@[simp] theorem respondHost_prodPort (r : Resp) (res : Wide) : (respondHost r res s).prodPort = s.prodPort := rfl
@[simp] theorem respondHost_hostResp (r : Resp) (res : Wide) : (respondHost r res s).hostResp = some ⟨r, res⟩ := rfl
@[simp] theorem respondHost_prodResp (r : Resp) (res : Wide) : (respondHost r res s).prodResp = s.prodResp := rfl
@[simp] theorem respondHost_sinkLog (r : Resp) (res : Wide) : (respondHost r res s).sinkLog = s.sinkLog := rfl

/-! ### `respondProducer`: the producer response -/

@[simp] theorem respondProducer_sr (r : Resp) : (respondProducer r s).sr = s.sr := rfl
@[simp] theorem respondProducer_osc (r : Resp) : (respondProducer r s).osc = s.osc := rfl
@[simp] theorem respondProducer_cFreq (r : Resp) : (respondProducer r s).cFreq = s.cFreq := rfl
@[simp] theorem respondProducer_cVel (r : Resp) : (respondProducer r s).cVel = s.cVel := rfl
@[simp] theorem respondProducer_cBend (r : Resp) : (respondProducer r s).cBend = s.cBend := rfl
@[simp] theorem respondProducer_cNote (r : Resp) : (respondProducer r s).cNote = s.cNote := rfl
@[simp] theorem respondProducer_held (r : Resp) : (respondProducer r s).held = s.held := rfl
@[simp] theorem respondProducer_qe (r : Resp) : (respondProducer r s).qe = s.qe := rfl
@[simp] theorem respondProducer_wvis (r : Resp) : (respondProducer r s).wvis = s.wvis := rfl
@[simp] theorem respondProducer_rfree (r : Resp) : (respondProducer r s).rfree = s.rfree := rfl
@[simp] theorem respondProducer_fifoDepth (r : Resp) : (respondProducer r s).fifoDepth = s.fifoDepth := rfl
@[simp] theorem respondProducer_ctrl (r : Resp) : (respondProducer r s).ctrl = s.ctrl := rfl
@[simp] theorem respondProducer_sticky (r : Resp) : (respondProducer r s).sticky = s.sticky := rfl
@[simp] theorem respondProducer_errInfo (r : Resp) : (respondProducer r s).errInfo = s.errInfo := rfl
@[simp] theorem respondProducer_drops (r : Resp) : (respondProducer r s).drops = s.drops := rfl
@[simp] theorem respondProducer_sout (r : Resp) : (respondProducer r s).sout = s.sout := rfl
@[simp] theorem respondProducer_seq (r : Resp) : (respondProducer r s).seq = s.seq := rfl
@[simp] theorem respondProducer_sched (r : Resp) : (respondProducer r s).sched = s.sched := rfl
@[simp] theorem respondProducer_hostPort (r : Resp) : (respondProducer r s).hostPort = s.hostPort := rfl
@[simp] theorem respondProducer_prodPort (r : Resp) : (respondProducer r s).prodPort = s.prodPort := rfl
@[simp] theorem respondProducer_hostResp (r : Resp) : (respondProducer r s).hostResp = s.hostResp := rfl
@[simp] theorem respondProducer_prodResp (r : Resp) : (respondProducer r s).prodResp = some r := rfl
@[simp] theorem respondProducer_sinkLog (r : Resp) : (respondProducer r s).sinkLog = s.sinkLog := rfl

/-! ### `setSticky`: sticky bits -/

@[simp] theorem setSticky_sr (b : BitVec 5) : (setSticky b s).sr = s.sr := rfl
@[simp] theorem setSticky_osc (b : BitVec 5) : (setSticky b s).osc = s.osc := rfl
@[simp] theorem setSticky_cFreq (b : BitVec 5) : (setSticky b s).cFreq = s.cFreq := rfl
@[simp] theorem setSticky_cVel (b : BitVec 5) : (setSticky b s).cVel = s.cVel := rfl
@[simp] theorem setSticky_cBend (b : BitVec 5) : (setSticky b s).cBend = s.cBend := rfl
@[simp] theorem setSticky_cNote (b : BitVec 5) : (setSticky b s).cNote = s.cNote := rfl
@[simp] theorem setSticky_held (b : BitVec 5) : (setSticky b s).held = s.held := rfl
@[simp] theorem setSticky_qe (b : BitVec 5) : (setSticky b s).qe = s.qe := rfl
@[simp] theorem setSticky_wvis (b : BitVec 5) : (setSticky b s).wvis = s.wvis := rfl
@[simp] theorem setSticky_rfree (b : BitVec 5) : (setSticky b s).rfree = s.rfree := rfl
@[simp] theorem setSticky_fifoDepth (b : BitVec 5) : (setSticky b s).fifoDepth = s.fifoDepth := rfl
@[simp] theorem setSticky_ctrl (b : BitVec 5) : (setSticky b s).ctrl = s.ctrl := rfl
@[simp] theorem setSticky_sticky (b : BitVec 5) : (setSticky b s).sticky = s.sticky ||| b := rfl
@[simp] theorem setSticky_errInfo (b : BitVec 5) : (setSticky b s).errInfo = s.errInfo := rfl
@[simp] theorem setSticky_drops (b : BitVec 5) : (setSticky b s).drops = s.drops := rfl
@[simp] theorem setSticky_sout (b : BitVec 5) : (setSticky b s).sout = s.sout := rfl
@[simp] theorem setSticky_seq (b : BitVec 5) : (setSticky b s).seq = s.seq := rfl
@[simp] theorem setSticky_sched (b : BitVec 5) : (setSticky b s).sched = s.sched := rfl
@[simp] theorem setSticky_hostPort (b : BitVec 5) : (setSticky b s).hostPort = s.hostPort := rfl
@[simp] theorem setSticky_prodPort (b : BitVec 5) : (setSticky b s).prodPort = s.prodPort := rfl
@[simp] theorem setSticky_hostResp (b : BitVec 5) : (setSticky b s).hostResp = s.hostResp := rfl
@[simp] theorem setSticky_prodResp (b : BitVec 5) : (setSticky b s).prodResp = s.prodResp := rfl
@[simp] theorem setSticky_sinkLog (b : BitVec 5) : (setSticky b s).sinkLog = s.sinkLog := rfl

/-! ### `clearSticky`: sticky bits -/

@[simp] theorem clearSticky_sr (b : BitVec 5) : (clearSticky b s).sr = s.sr := rfl
@[simp] theorem clearSticky_osc (b : BitVec 5) : (clearSticky b s).osc = s.osc := rfl
@[simp] theorem clearSticky_cFreq (b : BitVec 5) : (clearSticky b s).cFreq = s.cFreq := rfl
@[simp] theorem clearSticky_cVel (b : BitVec 5) : (clearSticky b s).cVel = s.cVel := rfl
@[simp] theorem clearSticky_cBend (b : BitVec 5) : (clearSticky b s).cBend = s.cBend := rfl
@[simp] theorem clearSticky_cNote (b : BitVec 5) : (clearSticky b s).cNote = s.cNote := rfl
@[simp] theorem clearSticky_held (b : BitVec 5) : (clearSticky b s).held = s.held := rfl
@[simp] theorem clearSticky_qe (b : BitVec 5) : (clearSticky b s).qe = s.qe := rfl
@[simp] theorem clearSticky_wvis (b : BitVec 5) : (clearSticky b s).wvis = s.wvis := rfl
@[simp] theorem clearSticky_rfree (b : BitVec 5) : (clearSticky b s).rfree = s.rfree := rfl
@[simp] theorem clearSticky_fifoDepth (b : BitVec 5) : (clearSticky b s).fifoDepth = s.fifoDepth := rfl
@[simp] theorem clearSticky_ctrl (b : BitVec 5) : (clearSticky b s).ctrl = s.ctrl := rfl
@[simp] theorem clearSticky_sticky (b : BitVec 5) : (clearSticky b s).sticky = s.sticky &&& ~~~b := rfl
@[simp] theorem clearSticky_errInfo (b : BitVec 5) : (clearSticky b s).errInfo = s.errInfo := rfl
@[simp] theorem clearSticky_drops (b : BitVec 5) : (clearSticky b s).drops = s.drops := rfl
@[simp] theorem clearSticky_sout (b : BitVec 5) : (clearSticky b s).sout = s.sout := rfl
@[simp] theorem clearSticky_seq (b : BitVec 5) : (clearSticky b s).seq = s.seq := rfl
@[simp] theorem clearSticky_sched (b : BitVec 5) : (clearSticky b s).sched = s.sched := rfl
@[simp] theorem clearSticky_hostPort (b : BitVec 5) : (clearSticky b s).hostPort = s.hostPort := rfl
@[simp] theorem clearSticky_prodPort (b : BitVec 5) : (clearSticky b s).prodPort = s.prodPort := rfl
@[simp] theorem clearSticky_hostResp (b : BitVec 5) : (clearSticky b s).hostResp = s.hostResp := rfl
@[simp] theorem clearSticky_prodResp (b : BitVec 5) : (clearSticky b s).prodResp = s.prodResp := rfl
@[simp] theorem clearSticky_sinkLog (b : BitVec 5) : (clearSticky b s).sinkLog = s.sinkLog := rfl

/-! ### `raiseHost`: the response and the error bookkeeping (R262) -/

@[simp] theorem raiseHost_sr (e : HostError) (c : CmdWord) : (raiseHost e c s).sr = s.sr := rfl
@[simp] theorem raiseHost_osc (e : HostError) (c : CmdWord) : (raiseHost e c s).osc = s.osc := rfl
@[simp] theorem raiseHost_cFreq (e : HostError) (c : CmdWord) : (raiseHost e c s).cFreq = s.cFreq := rfl
@[simp] theorem raiseHost_cVel (e : HostError) (c : CmdWord) : (raiseHost e c s).cVel = s.cVel := rfl
@[simp] theorem raiseHost_cBend (e : HostError) (c : CmdWord) : (raiseHost e c s).cBend = s.cBend := rfl
@[simp] theorem raiseHost_cNote (e : HostError) (c : CmdWord) : (raiseHost e c s).cNote = s.cNote := rfl
@[simp] theorem raiseHost_held (e : HostError) (c : CmdWord) : (raiseHost e c s).held = s.held := rfl
@[simp] theorem raiseHost_qe (e : HostError) (c : CmdWord) : (raiseHost e c s).qe = s.qe := rfl
@[simp] theorem raiseHost_wvis (e : HostError) (c : CmdWord) : (raiseHost e c s).wvis = s.wvis := rfl
@[simp] theorem raiseHost_rfree (e : HostError) (c : CmdWord) : (raiseHost e c s).rfree = s.rfree := rfl
@[simp] theorem raiseHost_fifoDepth (e : HostError) (c : CmdWord) : (raiseHost e c s).fifoDepth = s.fifoDepth := rfl
@[simp] theorem raiseHost_ctrl (e : HostError) (c : CmdWord) : (raiseHost e c s).ctrl = s.ctrl := rfl
@[simp] theorem raiseHost_sticky (e : HostError) (c : CmdWord) : (raiseHost e c s).sticky = s.sticky ||| stickyOfError e := rfl
@[simp] theorem raiseHost_errInfo (e : HostError) (c : CmdWord) : (raiseHost e c s).errInfo = errInfoWord e c := rfl
@[simp] theorem raiseHost_drops (e : HostError) (c : CmdWord) : (raiseHost e c s).drops = s.drops := rfl
@[simp] theorem raiseHost_sout (e : HostError) (c : CmdWord) : (raiseHost e c s).sout = s.sout := rfl
@[simp] theorem raiseHost_seq (e : HostError) (c : CmdWord) : (raiseHost e c s).seq = s.seq := rfl
@[simp] theorem raiseHost_sched (e : HostError) (c : CmdWord) : (raiseHost e c s).sched = s.sched := rfl
@[simp] theorem raiseHost_hostPort (e : HostError) (c : CmdWord) : (raiseHost e c s).hostPort = s.hostPort := rfl
@[simp] theorem raiseHost_prodPort (e : HostError) (c : CmdWord) : (raiseHost e c s).prodPort = s.prodPort := rfl
@[simp] theorem raiseHost_hostResp (e : HostError) (c : CmdWord) : (raiseHost e c s).hostResp = some ⟨respOfError e, 0#128⟩ := rfl
@[simp] theorem raiseHost_prodResp (e : HostError) (c : CmdWord) : (raiseHost e c s).prodResp = s.prodResp := rfl
@[simp] theorem raiseHost_sinkLog (e : HostError) (c : CmdWord) : (raiseHost e c s).sinkLog = s.sinkLog := rfl

/-! ### `raiseProducer`: the response and `PILL` (R266) -/

@[simp] theorem raiseProducer_sr : (raiseProducer s).sr = s.sr := rfl
@[simp] theorem raiseProducer_osc : (raiseProducer s).osc = s.osc := rfl
@[simp] theorem raiseProducer_cFreq : (raiseProducer s).cFreq = s.cFreq := rfl
@[simp] theorem raiseProducer_cVel : (raiseProducer s).cVel = s.cVel := rfl
@[simp] theorem raiseProducer_cBend : (raiseProducer s).cBend = s.cBend := rfl
@[simp] theorem raiseProducer_cNote : (raiseProducer s).cNote = s.cNote := rfl
@[simp] theorem raiseProducer_held : (raiseProducer s).held = s.held := rfl
@[simp] theorem raiseProducer_qe : (raiseProducer s).qe = s.qe := rfl
@[simp] theorem raiseProducer_wvis : (raiseProducer s).wvis = s.wvis := rfl
@[simp] theorem raiseProducer_rfree : (raiseProducer s).rfree = s.rfree := rfl
@[simp] theorem raiseProducer_fifoDepth : (raiseProducer s).fifoDepth = s.fifoDepth := rfl
@[simp] theorem raiseProducer_ctrl : (raiseProducer s).ctrl = s.ctrl := rfl
@[simp] theorem raiseProducer_sticky : (raiseProducer s).sticky = s.sticky ||| PILL := rfl
@[simp] theorem raiseProducer_errInfo : (raiseProducer s).errInfo = s.errInfo := rfl
@[simp] theorem raiseProducer_drops : (raiseProducer s).drops = s.drops := rfl
@[simp] theorem raiseProducer_sout : (raiseProducer s).sout = s.sout := rfl
@[simp] theorem raiseProducer_seq : (raiseProducer s).seq = s.seq := rfl
@[simp] theorem raiseProducer_sched : (raiseProducer s).sched = s.sched := rfl
@[simp] theorem raiseProducer_hostPort : (raiseProducer s).hostPort = s.hostPort := rfl
@[simp] theorem raiseProducer_prodPort : (raiseProducer s).prodPort = s.prodPort := rfl
@[simp] theorem raiseProducer_hostResp : (raiseProducer s).hostResp = s.hostResp := rfl
@[simp] theorem raiseProducer_prodResp : (raiseProducer s).prodResp = some .illegal := rfl
@[simp] theorem raiseProducer_sinkLog : (raiseProducer s).sinkLog = s.sinkLog := rfl

/-! ### `putOsc`: one instance -/

@[simp] theorem putOsc_sr (i : BitVec 8) (o : Osc) : (putOsc i o s).sr = s.sr := rfl
@[simp] theorem putOsc_osc (i : BitVec 8) (o : Osc) : (putOsc i o s).osc = setOsc s.osc i.toNat o := rfl
@[simp] theorem putOsc_cFreq (i : BitVec 8) (o : Osc) : (putOsc i o s).cFreq = s.cFreq := rfl
@[simp] theorem putOsc_cVel (i : BitVec 8) (o : Osc) : (putOsc i o s).cVel = s.cVel := rfl
@[simp] theorem putOsc_cBend (i : BitVec 8) (o : Osc) : (putOsc i o s).cBend = s.cBend := rfl
@[simp] theorem putOsc_cNote (i : BitVec 8) (o : Osc) : (putOsc i o s).cNote = s.cNote := rfl
@[simp] theorem putOsc_held (i : BitVec 8) (o : Osc) : (putOsc i o s).held = s.held := rfl
@[simp] theorem putOsc_qe (i : BitVec 8) (o : Osc) : (putOsc i o s).qe = s.qe := rfl
@[simp] theorem putOsc_wvis (i : BitVec 8) (o : Osc) : (putOsc i o s).wvis = s.wvis := rfl
@[simp] theorem putOsc_rfree (i : BitVec 8) (o : Osc) : (putOsc i o s).rfree = s.rfree := rfl
@[simp] theorem putOsc_fifoDepth (i : BitVec 8) (o : Osc) : (putOsc i o s).fifoDepth = s.fifoDepth := rfl
@[simp] theorem putOsc_ctrl (i : BitVec 8) (o : Osc) : (putOsc i o s).ctrl = s.ctrl := rfl
@[simp] theorem putOsc_sticky (i : BitVec 8) (o : Osc) : (putOsc i o s).sticky = s.sticky := rfl
@[simp] theorem putOsc_errInfo (i : BitVec 8) (o : Osc) : (putOsc i o s).errInfo = s.errInfo := rfl
@[simp] theorem putOsc_drops (i : BitVec 8) (o : Osc) : (putOsc i o s).drops = s.drops := rfl
@[simp] theorem putOsc_sout (i : BitVec 8) (o : Osc) : (putOsc i o s).sout = s.sout := rfl
@[simp] theorem putOsc_seq (i : BitVec 8) (o : Osc) : (putOsc i o s).seq = s.seq := rfl
@[simp] theorem putOsc_sched (i : BitVec 8) (o : Osc) : (putOsc i o s).sched = s.sched := rfl
@[simp] theorem putOsc_hostPort (i : BitVec 8) (o : Osc) : (putOsc i o s).hostPort = s.hostPort := rfl
@[simp] theorem putOsc_prodPort (i : BitVec 8) (o : Osc) : (putOsc i o s).prodPort = s.prodPort := rfl
@[simp] theorem putOsc_hostResp (i : BitVec 8) (o : Osc) : (putOsc i o s).hostResp = s.hostResp := rfl
@[simp] theorem putOsc_prodResp (i : BitVec 8) (o : Osc) : (putOsc i o s).prodResp = s.prodResp := rfl
@[simp] theorem putOsc_sinkLog (i : BitVec 8) (o : Osc) : (putOsc i o s).sinkLog = s.sinkLog := rfl

/-! ### `clearNote`: `C_NOTE` -/

@[simp] theorem clearNote_sr : (clearNote s).sr = s.sr := rfl
@[simp] theorem clearNote_osc : (clearNote s).osc = s.osc := rfl
@[simp] theorem clearNote_cFreq : (clearNote s).cFreq = s.cFreq := rfl
@[simp] theorem clearNote_cVel : (clearNote s).cVel = s.cVel := rfl
@[simp] theorem clearNote_cBend : (clearNote s).cBend = s.cBend := rfl
@[simp] theorem clearNote_cNote : (clearNote s).cNote = 0xFF#8 := rfl
@[simp] theorem clearNote_held : (clearNote s).held = s.held := rfl
@[simp] theorem clearNote_qe : (clearNote s).qe = s.qe := rfl
@[simp] theorem clearNote_wvis : (clearNote s).wvis = s.wvis := rfl
@[simp] theorem clearNote_rfree : (clearNote s).rfree = s.rfree := rfl
@[simp] theorem clearNote_fifoDepth : (clearNote s).fifoDepth = s.fifoDepth := rfl
@[simp] theorem clearNote_ctrl : (clearNote s).ctrl = s.ctrl := rfl
@[simp] theorem clearNote_sticky : (clearNote s).sticky = s.sticky := rfl
@[simp] theorem clearNote_errInfo : (clearNote s).errInfo = s.errInfo := rfl
@[simp] theorem clearNote_drops : (clearNote s).drops = s.drops := rfl
@[simp] theorem clearNote_sout : (clearNote s).sout = s.sout := rfl
@[simp] theorem clearNote_seq : (clearNote s).seq = s.seq := rfl
@[simp] theorem clearNote_sched : (clearNote s).sched = s.sched := rfl
@[simp] theorem clearNote_hostPort : (clearNote s).hostPort = s.hostPort := rfl
@[simp] theorem clearNote_prodPort : (clearNote s).prodPort = s.prodPort := rfl
@[simp] theorem clearNote_hostResp : (clearNote s).hostResp = s.hostResp := rfl
@[simp] theorem clearNote_prodResp : (clearNote s).prodResp = s.prodResp := rfl
@[simp] theorem clearNote_sinkLog : (clearNote s).sinkLog = s.sinkLog := rfl

/-! ### `couple`: oscillator 0 (R235) -/

@[simp] theorem couple_sr : (couple s).sr = s.sr := rfl
@[simp] theorem couple_osc : (couple s).osc = ⟨coupledOsc s.sr s.cFreq s.cBend s.osc.first, s.osc.others⟩ := rfl
@[simp] theorem couple_cFreq : (couple s).cFreq = s.cFreq := rfl
@[simp] theorem couple_cVel : (couple s).cVel = s.cVel := rfl
@[simp] theorem couple_cBend : (couple s).cBend = s.cBend := rfl
@[simp] theorem couple_cNote : (couple s).cNote = s.cNote := rfl
@[simp] theorem couple_held : (couple s).held = s.held := rfl
@[simp] theorem couple_qe : (couple s).qe = s.qe := rfl
@[simp] theorem couple_wvis : (couple s).wvis = s.wvis := rfl
@[simp] theorem couple_rfree : (couple s).rfree = s.rfree := rfl
@[simp] theorem couple_fifoDepth : (couple s).fifoDepth = s.fifoDepth := rfl
@[simp] theorem couple_ctrl : (couple s).ctrl = s.ctrl := rfl
@[simp] theorem couple_sticky : (couple s).sticky = s.sticky := rfl
@[simp] theorem couple_errInfo : (couple s).errInfo = s.errInfo := rfl
@[simp] theorem couple_drops : (couple s).drops = s.drops := rfl
@[simp] theorem couple_sout : (couple s).sout = s.sout := rfl
@[simp] theorem couple_seq : (couple s).seq = s.seq := rfl
@[simp] theorem couple_sched : (couple s).sched = s.sched := rfl
@[simp] theorem couple_hostPort : (couple s).hostPort = s.hostPort := rfl
@[simp] theorem couple_prodPort : (couple s).prodPort = s.prodPort := rfl
@[simp] theorem couple_hostResp : (couple s).hostResp = s.hostResp := rfl
@[simp] theorem couple_prodResp : (couple s).prodResp = s.prodResp := rfl
@[simp] theorem couple_sinkLog : (couple s).sinkLog = s.sinkLog := rfl

/-! ### `syncW`: `WVIS` -/

@[simp] theorem syncW_sr : (syncW s).sr = s.sr := by unfold syncW; split <;> rfl
@[simp] theorem syncW_osc : (syncW s).osc = s.osc := by unfold syncW; split <;> rfl
@[simp] theorem syncW_cFreq : (syncW s).cFreq = s.cFreq := by unfold syncW; split <;> rfl
@[simp] theorem syncW_cVel : (syncW s).cVel = s.cVel := by unfold syncW; split <;> rfl
@[simp] theorem syncW_cBend : (syncW s).cBend = s.cBend := by unfold syncW; split <;> rfl
@[simp] theorem syncW_cNote : (syncW s).cNote = s.cNote := by unfold syncW; split <;> rfl
@[simp] theorem syncW_held : (syncW s).held = s.held := by unfold syncW; split <;> rfl
@[simp] theorem syncW_qe : (syncW s).qe = s.qe := by unfold syncW; split <;> rfl
@[simp] theorem syncW_rfree : (syncW s).rfree = s.rfree := by unfold syncW; split <;> rfl
@[simp] theorem syncW_fifoDepth : (syncW s).fifoDepth = s.fifoDepth := by unfold syncW; split <;> rfl
@[simp] theorem syncW_ctrl : (syncW s).ctrl = s.ctrl := by unfold syncW; split <;> rfl
@[simp] theorem syncW_sticky : (syncW s).sticky = s.sticky := by unfold syncW; split <;> rfl
@[simp] theorem syncW_errInfo : (syncW s).errInfo = s.errInfo := by unfold syncW; split <;> rfl
@[simp] theorem syncW_drops : (syncW s).drops = s.drops := by unfold syncW; split <;> rfl
@[simp] theorem syncW_sout : (syncW s).sout = s.sout := by unfold syncW; split <;> rfl
@[simp] theorem syncW_seq : (syncW s).seq = s.seq := by unfold syncW; split <;> rfl
@[simp] theorem syncW_sched : (syncW s).sched = s.sched := by unfold syncW; split <;> rfl
@[simp] theorem syncW_hostPort : (syncW s).hostPort = s.hostPort := by unfold syncW; split <;> rfl
@[simp] theorem syncW_prodPort : (syncW s).prodPort = s.prodPort := by unfold syncW; split <;> rfl
@[simp] theorem syncW_hostResp : (syncW s).hostResp = s.hostResp := by unfold syncW; split <;> rfl
@[simp] theorem syncW_prodResp : (syncW s).prodResp = s.prodResp := by unfold syncW; split <;> rfl
@[simp] theorem syncW_sinkLog : (syncW s).sinkLog = s.sinkLog := by unfold syncW; split <;> rfl

/-! ### `syncR`: `RFREE` -/

@[simp] theorem syncR_sr : (syncR s).sr = s.sr := by unfold syncR; split <;> rfl
@[simp] theorem syncR_osc : (syncR s).osc = s.osc := by unfold syncR; split <;> rfl
@[simp] theorem syncR_cFreq : (syncR s).cFreq = s.cFreq := by unfold syncR; split <;> rfl
@[simp] theorem syncR_cVel : (syncR s).cVel = s.cVel := by unfold syncR; split <;> rfl
@[simp] theorem syncR_cBend : (syncR s).cBend = s.cBend := by unfold syncR; split <;> rfl
@[simp] theorem syncR_cNote : (syncR s).cNote = s.cNote := by unfold syncR; split <;> rfl
@[simp] theorem syncR_held : (syncR s).held = s.held := by unfold syncR; split <;> rfl
@[simp] theorem syncR_qe : (syncR s).qe = s.qe := by unfold syncR; split <;> rfl
@[simp] theorem syncR_wvis : (syncR s).wvis = s.wvis := by unfold syncR; split <;> rfl
@[simp] theorem syncR_fifoDepth : (syncR s).fifoDepth = s.fifoDepth := by unfold syncR; split <;> rfl
@[simp] theorem syncR_ctrl : (syncR s).ctrl = s.ctrl := by unfold syncR; split <;> rfl
@[simp] theorem syncR_sticky : (syncR s).sticky = s.sticky := by unfold syncR; split <;> rfl
@[simp] theorem syncR_errInfo : (syncR s).errInfo = s.errInfo := by unfold syncR; split <;> rfl
@[simp] theorem syncR_drops : (syncR s).drops = s.drops := by unfold syncR; split <;> rfl
@[simp] theorem syncR_sout : (syncR s).sout = s.sout := by unfold syncR; split <;> rfl
@[simp] theorem syncR_seq : (syncR s).seq = s.seq := by unfold syncR; split <;> rfl
@[simp] theorem syncR_sched : (syncR s).sched = s.sched := by unfold syncR; split <;> rfl
@[simp] theorem syncR_hostPort : (syncR s).hostPort = s.hostPort := by unfold syncR; split <;> rfl
@[simp] theorem syncR_prodPort : (syncR s).prodPort = s.prodPort := by unfold syncR; split <;> rfl
@[simp] theorem syncR_hostResp : (syncR s).hostResp = s.hostResp := by unfold syncR; split <;> rfl
@[simp] theorem syncR_prodResp : (syncR s).prodResp = s.prodResp := by unfold syncR; split <;> rfl
@[simp] theorem syncR_sinkLog : (syncR s).sinkLog = s.sinkLog := by unfold syncR; split <;> rfl

/-! ### `sinkMove`: `SOUT` and the sink's record -/

@[simp] theorem sinkMove_sr : (sinkMove s).sr = s.sr := by unfold sinkMove; split <;> rfl
@[simp] theorem sinkMove_osc : (sinkMove s).osc = s.osc := by unfold sinkMove; split <;> rfl
@[simp] theorem sinkMove_cFreq : (sinkMove s).cFreq = s.cFreq := by unfold sinkMove; split <;> rfl
@[simp] theorem sinkMove_cVel : (sinkMove s).cVel = s.cVel := by unfold sinkMove; split <;> rfl
@[simp] theorem sinkMove_cBend : (sinkMove s).cBend = s.cBend := by unfold sinkMove; split <;> rfl
@[simp] theorem sinkMove_cNote : (sinkMove s).cNote = s.cNote := by unfold sinkMove; split <;> rfl
@[simp] theorem sinkMove_held : (sinkMove s).held = s.held := by unfold sinkMove; split <;> rfl
@[simp] theorem sinkMove_qe : (sinkMove s).qe = s.qe := by unfold sinkMove; split <;> rfl
@[simp] theorem sinkMove_wvis : (sinkMove s).wvis = s.wvis := by unfold sinkMove; split <;> rfl
@[simp] theorem sinkMove_rfree : (sinkMove s).rfree = s.rfree := by unfold sinkMove; split <;> rfl
@[simp] theorem sinkMove_fifoDepth : (sinkMove s).fifoDepth = s.fifoDepth := by unfold sinkMove; split <;> rfl
@[simp] theorem sinkMove_ctrl : (sinkMove s).ctrl = s.ctrl := by unfold sinkMove; split <;> rfl
@[simp] theorem sinkMove_sticky : (sinkMove s).sticky = s.sticky := by unfold sinkMove; split <;> rfl
@[simp] theorem sinkMove_errInfo : (sinkMove s).errInfo = s.errInfo := by unfold sinkMove; split <;> rfl
@[simp] theorem sinkMove_drops : (sinkMove s).drops = s.drops := by unfold sinkMove; split <;> rfl
@[simp] theorem sinkMove_seq : (sinkMove s).seq = s.seq := by unfold sinkMove; split <;> rfl
@[simp] theorem sinkMove_sched : (sinkMove s).sched = s.sched := by unfold sinkMove; split <;> rfl
@[simp] theorem sinkMove_hostPort : (sinkMove s).hostPort = s.hostPort := by unfold sinkMove; split <;> rfl
@[simp] theorem sinkMove_prodPort : (sinkMove s).prodPort = s.prodPort := by unfold sinkMove; split <;> rfl
@[simp] theorem sinkMove_hostResp : (sinkMove s).hostResp = s.hostResp := by unfold sinkMove; split <;> rfl
@[simp] theorem sinkMove_prodResp : (sinkMove s).prodResp = s.prodResp := by unfold sinkMove; split <;> rfl

/-! ### `applyNoteOn`: the voice (R191) -/

@[simp] theorem applyNoteOn_sr (e : EventWord) : (applyNoteOn e s).sr = s.sr := by unfold applyNoteOn; split <;> rfl
@[simp] theorem applyNoteOn_osc (e : EventWord) : (applyNoteOn e s).osc = s.osc := by unfold applyNoteOn; split <;> rfl
@[simp] theorem applyNoteOn_cBend (e : EventWord) : (applyNoteOn e s).cBend = s.cBend := by unfold applyNoteOn; split <;> rfl
@[simp] theorem applyNoteOn_qe (e : EventWord) : (applyNoteOn e s).qe = s.qe := by unfold applyNoteOn; split <;> rfl
@[simp] theorem applyNoteOn_wvis (e : EventWord) : (applyNoteOn e s).wvis = s.wvis := by unfold applyNoteOn; split <;> rfl
@[simp] theorem applyNoteOn_rfree (e : EventWord) : (applyNoteOn e s).rfree = s.rfree := by unfold applyNoteOn; split <;> rfl
@[simp] theorem applyNoteOn_fifoDepth (e : EventWord) : (applyNoteOn e s).fifoDepth = s.fifoDepth := by unfold applyNoteOn; split <;> rfl
@[simp] theorem applyNoteOn_ctrl (e : EventWord) : (applyNoteOn e s).ctrl = s.ctrl := by unfold applyNoteOn; split <;> rfl
@[simp] theorem applyNoteOn_sticky (e : EventWord) : (applyNoteOn e s).sticky = s.sticky := by unfold applyNoteOn; split <;> rfl
@[simp] theorem applyNoteOn_errInfo (e : EventWord) : (applyNoteOn e s).errInfo = s.errInfo := by unfold applyNoteOn; split <;> rfl
@[simp] theorem applyNoteOn_drops (e : EventWord) : (applyNoteOn e s).drops = s.drops := by unfold applyNoteOn; split <;> rfl
@[simp] theorem applyNoteOn_sout (e : EventWord) : (applyNoteOn e s).sout = s.sout := by unfold applyNoteOn; split <;> rfl
@[simp] theorem applyNoteOn_seq (e : EventWord) : (applyNoteOn e s).seq = s.seq := by unfold applyNoteOn; split <;> rfl
@[simp] theorem applyNoteOn_sched (e : EventWord) : (applyNoteOn e s).sched = s.sched := by unfold applyNoteOn; split <;> rfl
@[simp] theorem applyNoteOn_hostPort (e : EventWord) : (applyNoteOn e s).hostPort = s.hostPort := by unfold applyNoteOn; split <;> rfl
@[simp] theorem applyNoteOn_prodPort (e : EventWord) : (applyNoteOn e s).prodPort = s.prodPort := by unfold applyNoteOn; split <;> rfl
@[simp] theorem applyNoteOn_hostResp (e : EventWord) : (applyNoteOn e s).hostResp = s.hostResp := by unfold applyNoteOn; split <;> rfl
@[simp] theorem applyNoteOn_prodResp (e : EventWord) : (applyNoteOn e s).prodResp = s.prodResp := by unfold applyNoteOn; split <;> rfl
@[simp] theorem applyNoteOn_sinkLog (e : EventWord) : (applyNoteOn e s).sinkLog = s.sinkLog := by unfold applyNoteOn; split <;> rfl

/-! ### `applyNoteOff`: the voice (R192) -/

@[simp] theorem applyNoteOff_sr (e : EventWord) : (applyNoteOff e s).sr = s.sr := rfl
@[simp] theorem applyNoteOff_osc (e : EventWord) : (applyNoteOff e s).osc = s.osc := rfl
@[simp] theorem applyNoteOff_cFreq (e : EventWord) : (applyNoteOff e s).cFreq = SILENT := rfl
@[simp] theorem applyNoteOff_cVel (e : EventWord) : (applyNoteOff e s).cVel = PZERO := rfl
@[simp] theorem applyNoteOff_cBend (e : EventWord) : (applyNoteOff e s).cBend = s.cBend := rfl
@[simp] theorem applyNoteOff_cNote (e : EventWord) : (applyNoteOff e s).cNote = s.cNote := rfl
@[simp] theorem applyNoteOff_held (e : EventWord) : (applyNoteOff e s).held = clearHeld (eventKey e) s.held := rfl
@[simp] theorem applyNoteOff_qe (e : EventWord) : (applyNoteOff e s).qe = s.qe := rfl
@[simp] theorem applyNoteOff_wvis (e : EventWord) : (applyNoteOff e s).wvis = s.wvis := rfl
@[simp] theorem applyNoteOff_rfree (e : EventWord) : (applyNoteOff e s).rfree = s.rfree := rfl
@[simp] theorem applyNoteOff_fifoDepth (e : EventWord) : (applyNoteOff e s).fifoDepth = s.fifoDepth := rfl
@[simp] theorem applyNoteOff_ctrl (e : EventWord) : (applyNoteOff e s).ctrl = s.ctrl := rfl
@[simp] theorem applyNoteOff_sticky (e : EventWord) : (applyNoteOff e s).sticky = s.sticky := rfl
@[simp] theorem applyNoteOff_errInfo (e : EventWord) : (applyNoteOff e s).errInfo = s.errInfo := rfl
@[simp] theorem applyNoteOff_drops (e : EventWord) : (applyNoteOff e s).drops = s.drops := rfl
@[simp] theorem applyNoteOff_sout (e : EventWord) : (applyNoteOff e s).sout = s.sout := rfl
@[simp] theorem applyNoteOff_seq (e : EventWord) : (applyNoteOff e s).seq = s.seq := rfl
@[simp] theorem applyNoteOff_sched (e : EventWord) : (applyNoteOff e s).sched = s.sched := rfl
@[simp] theorem applyNoteOff_hostPort (e : EventWord) : (applyNoteOff e s).hostPort = s.hostPort := rfl
@[simp] theorem applyNoteOff_prodPort (e : EventWord) : (applyNoteOff e s).prodPort = s.prodPort := rfl
@[simp] theorem applyNoteOff_hostResp (e : EventWord) : (applyNoteOff e s).hostResp = s.hostResp := rfl
@[simp] theorem applyNoteOff_prodResp (e : EventWord) : (applyNoteOff e s).prodResp = s.prodResp := rfl
@[simp] theorem applyNoteOff_sinkLog (e : EventWord) : (applyNoteOff e s).sinkLog = s.sinkLog := rfl

/-! ### `applyEvent`: controller state only -/

@[simp] theorem applyEvent_sr (e : EventWord) : (applyEvent e s).sr = s.sr := by unfold applyEvent; split <;> simp
@[simp] theorem applyEvent_osc (e : EventWord) : (applyEvent e s).osc = s.osc := by unfold applyEvent; split <;> simp
@[simp] theorem applyEvent_qe (e : EventWord) : (applyEvent e s).qe = s.qe := by unfold applyEvent; split <;> simp
@[simp] theorem applyEvent_wvis (e : EventWord) : (applyEvent e s).wvis = s.wvis := by unfold applyEvent; split <;> simp
@[simp] theorem applyEvent_rfree (e : EventWord) : (applyEvent e s).rfree = s.rfree := by unfold applyEvent; split <;> simp
@[simp] theorem applyEvent_fifoDepth (e : EventWord) : (applyEvent e s).fifoDepth = s.fifoDepth := by unfold applyEvent; split <;> simp
@[simp] theorem applyEvent_ctrl (e : EventWord) : (applyEvent e s).ctrl = s.ctrl := by unfold applyEvent; split <;> simp
@[simp] theorem applyEvent_sticky (e : EventWord) : (applyEvent e s).sticky = s.sticky := by unfold applyEvent; split <;> simp
@[simp] theorem applyEvent_errInfo (e : EventWord) : (applyEvent e s).errInfo = s.errInfo := by unfold applyEvent; split <;> simp
@[simp] theorem applyEvent_drops (e : EventWord) : (applyEvent e s).drops = s.drops := by unfold applyEvent; split <;> simp
@[simp] theorem applyEvent_sout (e : EventWord) : (applyEvent e s).sout = s.sout := by unfold applyEvent; split <;> simp
@[simp] theorem applyEvent_seq (e : EventWord) : (applyEvent e s).seq = s.seq := by unfold applyEvent; split <;> simp
@[simp] theorem applyEvent_sched (e : EventWord) : (applyEvent e s).sched = s.sched := by unfold applyEvent; split <;> simp
@[simp] theorem applyEvent_hostPort (e : EventWord) : (applyEvent e s).hostPort = s.hostPort := by unfold applyEvent; split <;> simp
@[simp] theorem applyEvent_prodPort (e : EventWord) : (applyEvent e s).prodPort = s.prodPort := by unfold applyEvent; split <;> simp
@[simp] theorem applyEvent_hostResp (e : EventWord) : (applyEvent e s).hostResp = s.hostResp := by unfold applyEvent; split <;> simp
@[simp] theorem applyEvent_prodResp (e : EventWord) : (applyEvent e s).prodResp = s.prodResp := by unfold applyEvent; split <;> simp
@[simp] theorem applyEvent_sinkLog (e : EventWord) : (applyEvent e s).sinkLog = s.sinkLog := by unfold applyEvent; split <;> simp

/-! ### `fifoPop`: the FIFO -/

@[simp] theorem fifoPop_sr : ((fifoPop s).2).sr = s.sr := by unfold fifoPop; split <;> rfl
@[simp] theorem fifoPop_osc : ((fifoPop s).2).osc = s.osc := by unfold fifoPop; split <;> rfl
@[simp] theorem fifoPop_cFreq : ((fifoPop s).2).cFreq = s.cFreq := by unfold fifoPop; split <;> rfl
@[simp] theorem fifoPop_cVel : ((fifoPop s).2).cVel = s.cVel := by unfold fifoPop; split <;> rfl
@[simp] theorem fifoPop_cBend : ((fifoPop s).2).cBend = s.cBend := by unfold fifoPop; split <;> rfl
@[simp] theorem fifoPop_cNote : ((fifoPop s).2).cNote = s.cNote := by unfold fifoPop; split <;> rfl
@[simp] theorem fifoPop_held : ((fifoPop s).2).held = s.held := by unfold fifoPop; split <;> rfl
@[simp] theorem fifoPop_fifoDepth : ((fifoPop s).2).fifoDepth = s.fifoDepth := by unfold fifoPop; split <;> rfl
@[simp] theorem fifoPop_ctrl : ((fifoPop s).2).ctrl = s.ctrl := by unfold fifoPop; split <;> rfl
@[simp] theorem fifoPop_sticky : ((fifoPop s).2).sticky = s.sticky := by unfold fifoPop; split <;> rfl
@[simp] theorem fifoPop_errInfo : ((fifoPop s).2).errInfo = s.errInfo := by unfold fifoPop; split <;> rfl
@[simp] theorem fifoPop_drops : ((fifoPop s).2).drops = s.drops := by unfold fifoPop; split <;> rfl
@[simp] theorem fifoPop_sout : ((fifoPop s).2).sout = s.sout := by unfold fifoPop; split <;> rfl
@[simp] theorem fifoPop_seq : ((fifoPop s).2).seq = s.seq := by unfold fifoPop; split <;> rfl
@[simp] theorem fifoPop_sched : ((fifoPop s).2).sched = s.sched := by unfold fifoPop; split <;> rfl
@[simp] theorem fifoPop_hostPort : ((fifoPop s).2).hostPort = s.hostPort := by unfold fifoPop; split <;> rfl
@[simp] theorem fifoPop_prodPort : ((fifoPop s).2).prodPort = s.prodPort := by unfold fifoPop; split <;> rfl
@[simp] theorem fifoPop_hostResp : ((fifoPop s).2).hostResp = s.hostResp := by unfold fifoPop; split <;> rfl
@[simp] theorem fifoPop_prodResp : ((fifoPop s).2).prodResp = s.prodResp := by unfold fifoPop; split <;> rfl
@[simp] theorem fifoPop_sinkLog : ((fifoPop s).2).sinkLog = s.sinkLog := by unfold fifoPop; split <;> rfl

/-! ### `fifoPush`: the FIFO, or the drop bookkeeping -/

@[simp] theorem fifoPush_sr (e : EventWord) : ((fifoPush e s).2).sr = s.sr := by unfold fifoPush; split <;> rfl
@[simp] theorem fifoPush_osc (e : EventWord) : ((fifoPush e s).2).osc = s.osc := by unfold fifoPush; split <;> rfl
@[simp] theorem fifoPush_cFreq (e : EventWord) : ((fifoPush e s).2).cFreq = s.cFreq := by unfold fifoPush; split <;> rfl
@[simp] theorem fifoPush_cVel (e : EventWord) : ((fifoPush e s).2).cVel = s.cVel := by unfold fifoPush; split <;> rfl
@[simp] theorem fifoPush_cBend (e : EventWord) : ((fifoPush e s).2).cBend = s.cBend := by unfold fifoPush; split <;> rfl
@[simp] theorem fifoPush_cNote (e : EventWord) : ((fifoPush e s).2).cNote = s.cNote := by unfold fifoPush; split <;> rfl
@[simp] theorem fifoPush_held (e : EventWord) : ((fifoPush e s).2).held = s.held := by unfold fifoPush; split <;> rfl
@[simp] theorem fifoPush_wvis (e : EventWord) : ((fifoPush e s).2).wvis = s.wvis := by unfold fifoPush; split <;> rfl
@[simp] theorem fifoPush_rfree (e : EventWord) : ((fifoPush e s).2).rfree = s.rfree := by unfold fifoPush; split <;> rfl
@[simp] theorem fifoPush_fifoDepth (e : EventWord) : ((fifoPush e s).2).fifoDepth = s.fifoDepth := by unfold fifoPush; split <;> rfl
@[simp] theorem fifoPush_ctrl (e : EventWord) : ((fifoPush e s).2).ctrl = s.ctrl := by unfold fifoPush; split <;> rfl
@[simp] theorem fifoPush_errInfo (e : EventWord) : ((fifoPush e s).2).errInfo = s.errInfo := by unfold fifoPush; split <;> rfl
@[simp] theorem fifoPush_sout (e : EventWord) : ((fifoPush e s).2).sout = s.sout := by unfold fifoPush; split <;> rfl
@[simp] theorem fifoPush_seq (e : EventWord) : ((fifoPush e s).2).seq = s.seq := by unfold fifoPush; split <;> rfl
@[simp] theorem fifoPush_sched (e : EventWord) : ((fifoPush e s).2).sched = s.sched := by unfold fifoPush; split <;> rfl
@[simp] theorem fifoPush_hostPort (e : EventWord) : ((fifoPush e s).2).hostPort = s.hostPort := by unfold fifoPush; split <;> rfl
@[simp] theorem fifoPush_prodPort (e : EventWord) : ((fifoPush e s).2).prodPort = s.prodPort := by unfold fifoPush; split <;> rfl
@[simp] theorem fifoPush_hostResp (e : EventWord) : ((fifoPush e s).2).hostResp = s.hostResp := by unfold fifoPush; split <;> rfl
@[simp] theorem fifoPush_prodResp (e : EventWord) : ((fifoPush e s).2).prodResp = s.prodResp := by unfold fifoPush; split <;> rfl
@[simp] theorem fifoPush_sinkLog (e : EventWord) : ((fifoPush e s).2).sinkLog = s.sinkLog := by unfold fifoPush; split <;> rfl

/-! ### `enqueue`: a push and its answer -/

@[simp] theorem enqueue_sr (e : EventWord) : (enqueue e s).sr = s.sr := by simp [enqueue]
@[simp] theorem enqueue_osc (e : EventWord) : (enqueue e s).osc = s.osc := by simp [enqueue]
@[simp] theorem enqueue_cFreq (e : EventWord) : (enqueue e s).cFreq = s.cFreq := by simp [enqueue]
@[simp] theorem enqueue_cVel (e : EventWord) : (enqueue e s).cVel = s.cVel := by simp [enqueue]
@[simp] theorem enqueue_cBend (e : EventWord) : (enqueue e s).cBend = s.cBend := by simp [enqueue]
@[simp] theorem enqueue_cNote (e : EventWord) : (enqueue e s).cNote = s.cNote := by simp [enqueue]
@[simp] theorem enqueue_held (e : EventWord) : (enqueue e s).held = s.held := by simp [enqueue]
@[simp] theorem enqueue_wvis (e : EventWord) : (enqueue e s).wvis = s.wvis := by simp [enqueue]
@[simp] theorem enqueue_rfree (e : EventWord) : (enqueue e s).rfree = s.rfree := by simp [enqueue]
@[simp] theorem enqueue_fifoDepth (e : EventWord) : (enqueue e s).fifoDepth = s.fifoDepth := by simp [enqueue]
@[simp] theorem enqueue_ctrl (e : EventWord) : (enqueue e s).ctrl = s.ctrl := by simp [enqueue]
@[simp] theorem enqueue_errInfo (e : EventWord) : (enqueue e s).errInfo = s.errInfo := by simp [enqueue]
@[simp] theorem enqueue_sout (e : EventWord) : (enqueue e s).sout = s.sout := by simp [enqueue]
@[simp] theorem enqueue_seq (e : EventWord) : (enqueue e s).seq = s.seq := by simp [enqueue]
@[simp] theorem enqueue_sched (e : EventWord) : (enqueue e s).sched = s.sched := by simp [enqueue]
@[simp] theorem enqueue_hostPort (e : EventWord) : (enqueue e s).hostPort = s.hostPort := by simp [enqueue]
@[simp] theorem enqueue_prodPort (e : EventWord) : (enqueue e s).prodPort = s.prodPort := by simp [enqueue]
@[simp] theorem enqueue_hostResp (e : EventWord) : (enqueue e s).hostResp = s.hostResp := by simp [enqueue]
@[simp] theorem enqueue_sinkLog (e : EventWord) : (enqueue e s).sinkLog = s.sinkLog := by simp [enqueue]

/-! ### `tickBody`: the FIFO and the controller state -/

@[simp] theorem tickBody_sr : ((tickBody s).2).sr = s.sr := by simp [tickBody]
@[simp] theorem tickBody_osc : ((tickBody s).2).osc = s.osc := by simp [tickBody]
@[simp] theorem tickBody_fifoDepth : ((tickBody s).2).fifoDepth = s.fifoDepth := by simp [tickBody]
@[simp] theorem tickBody_ctrl : ((tickBody s).2).ctrl = s.ctrl := by simp [tickBody]
@[simp] theorem tickBody_sticky : ((tickBody s).2).sticky = s.sticky := by simp [tickBody]
@[simp] theorem tickBody_errInfo : ((tickBody s).2).errInfo = s.errInfo := by simp [tickBody]
@[simp] theorem tickBody_drops : ((tickBody s).2).drops = s.drops := by simp [tickBody]
@[simp] theorem tickBody_sout : ((tickBody s).2).sout = s.sout := by simp [tickBody]
@[simp] theorem tickBody_seq : ((tickBody s).2).seq = s.seq := by simp [tickBody]
@[simp] theorem tickBody_sched : ((tickBody s).2).sched = s.sched := by simp [tickBody]
@[simp] theorem tickBody_hostPort : ((tickBody s).2).hostPort = s.hostPort := by simp [tickBody]
@[simp] theorem tickBody_prodPort : ((tickBody s).2).prodPort = s.prodPort := by simp [tickBody]
@[simp] theorem tickBody_hostResp : ((tickBody s).2).hostResp = s.hostResp := by simp [tickBody]
@[simp] theorem tickBody_prodResp : ((tickBody s).2).prodResp = s.prodResp := by simp [tickBody]
@[simp] theorem tickBody_sinkLog : ((tickBody s).2).sinkLog = s.sinkLog := by simp [tickBody]

end Sys2Proof.Machine
end

