-- ==== Sys2Proof/Laws/Ops.lean ====
section
/-!
SUPPORT. One lemma per shared operation that says everything it can do. Later proofs cite these and never
unfold the operation.
-/

namespace Sys2Proof.Machine

/-! ### The oscillators -/

theorem getOsc_lt {b : Bank} {i : Nat} {v : Osc} (h : getOsc b i = some v) :
    i < b.others.length + 1 := by
  cases i with
  | zero => omega
  | succ k =>
    have := (List.getElem?_eq_some_iff.1 (show b.others[k]? = some v from h)).1
    omega

theorem getOsc_isSome {b : Bank} {i : Nat} (h : i < b.others.length + 1) : ∃ v, getOsc b i = some v := by
  cases i with
  | zero => exact ⟨_, rfl⟩
  | succ k => exact ⟨b.others[k], List.getElem?_eq_getElem (by omega)⟩

/-- An index names no instance exactly when it is `NUM_OSC` or more (R265). -/
theorem getOsc_eq_none_iff {b : Bank} {i : Nat} : getOsc b i = none ↔ b.others.length + 1 ≤ i := by
  constructor
  · intro h
    by_contra hlt
    obtain ⟨v, hv⟩ := getOsc_isSome (b := b) (i := i) (by omega)
    rw [h] at hv
    cases hv
  · intro h
    cases hv : getOsc b i with
    | none => rfl
    | some v => exact absurd (getOsc_lt hv) (by omega)

theorem IsOsc.index_lt {s : State} {i : Nat} {v : Osc} (h : IsOsc s i v) : i < numOsc s := getOsc_lt h

@[simp] theorem setOsc_others_length (b : Bank) (i : Nat) (o : Osc) :
    (setOsc b i o).others.length = b.others.length := by
  cases i <;> simp [setOsc]

/-- Reading back the instance just written. -/
theorem getOsc_setOsc_same {b : Bank} {i : Nat} {v : Osc} (o : Osc) (h : getOsc b i = some v) :
    getOsc (setOsc b i o) i = some o := by
  have hlt := getOsc_lt h
  cases i with
  | zero => rfl
  | succ k => simp [getOsc, setOsc, show k < b.others.length by omega]

/-- Writing one instance leaves every other. -/
theorem getOsc_setOsc_other (b : Bank) {i j : Nat} (o : Osc) (h : j ≠ i) :
    getOsc (setOsc b i o) j = getOsc b j := by
  cases i <;> cases j <;> simp [getOsc, setOsc] at h ⊢
  rw [List.getElem?_set_ne (Ne.symm h)]

/-- Every instance after `O[i] <- o`. -/
theorem getOsc_setOsc_cases {b : Bank} {i j : Nat} {o v : Osc} (h : getOsc (setOsc b i o) j = some v) :
    (j = i ∧ v = o) ∨ (j ≠ i ∧ getOsc b j = some v) := by
  by_cases hj : j = i
  · subst hj
    have hlt := getOsc_lt h
    rw [setOsc_others_length] at hlt
    obtain ⟨w, hw⟩ := getOsc_isSome hlt
    rw [getOsc_setOsc_same o hw] at h
    exact Or.inl ⟨rfl, (Option.some.inj h).symm⟩
  · exact Or.inr ⟨hj, by rwa [getOsc_setOsc_other b o hj] at h⟩

@[simp] theorem mapOsc_others_length (f : Osc → Osc) (b : Bank) :
    (mapOsc f b).others.length = b.others.length := by simp [mapOsc]

@[simp] theorem getOsc_mapOsc (f : Osc → Osc) (b : Bank) (i : Nat) :
    getOsc (mapOsc f b) i = (getOsc b i).map f := by
  cases i <;> simp [getOsc, mapOsc]

/-- After reset every instance holds the reset values (R292). -/
theorem isOsc_resetWith {extra depth i : Nat} {v : Osc} (h : IsOsc (State.resetWith extra depth) i v) :
    v = Osc.reset := by
  cases i with
  | zero => exact (Option.some.inj h).symm
  | succ k =>
    have h' : (List.replicate extra Osc.reset)[k]? = some v := h
    exact (List.mem_replicate.1 (List.mem_of_getElem? h')).2

/-- An oscillator command either reaches its instance or answers `BAD_INDEX` (R265 step 6). -/
theorem onOscillator_cases (cmd : CmdWord) (i : BitVec 8) (s : State)
    (effect : Osc → Host.Outcome State Fault Refusal) :
    (∃ v, IsOsc s i.toNat v ∧ onOscillator cmd i s effect = effect v) ∨
    (numOsc s ≤ i.toNat ∧ onOscillator cmd i s effect = failHost .badIndex cmd s) := by
  unfold onOscillator
  split
  · exact Or.inr ⟨getOsc_eq_none_iff.1 ‹_›, rfl⟩
  · exact Or.inl ⟨_, ‹_›, rfl⟩

theorem onOscillator_of_isOsc {s : State} {i : BitVec 8} {v : Osc} (h : IsOsc s i.toNat v) (cmd : CmdWord)
    (effect : Osc → Host.Outcome State Fault Refusal) : onOscillator cmd i s effect = effect v := by
  rw [onOscillator, show getOsc s.osc i.toNat = some v from h]

theorem onOscillator_of_badIndex {s : State} {i : BitVec 8} (h : numOsc s ≤ i.toNat) (cmd : CmdWord)
    (effect : Osc → Host.Outcome State Fault Refusal) :
    onOscillator cmd i s effect = failHost .badIndex cmd s := by
  rw [onOscillator, getOsc_eq_none_iff.2 h]

/-! ### The FIFO -/

theorem fifoHasRoom_iff (s : State) : fifoHasRoom s = true ↔ s.qe.length + s.rfree < s.fifoDepth := by
  simp [fifoHasRoom]

/-- `FifoPush` accepts, or drops with its bookkeeping (R64). -/
theorem fifoPush_cases (e : EventWord) (s : State) :
    (s.qe.length + s.rfree < s.fifoDepth ∧ fifoPush e s = (true, { s with qe := s.qe ++ [e] })) ∨
    (s.fifoDepth ≤ s.qe.length + s.rfree ∧ fifoPush e s =
      (false, setSticky OVF { s with drops := saturatingSucc s.drops })) := by
  rcases lt_or_ge (s.qe.length + s.rfree) s.fifoDepth with h | h
  · exact Or.inl ⟨h, by rw [fifoPush, if_pos ((fifoHasRoom_iff s).2 h)]⟩
  · exact Or.inr ⟨h, by rw [fifoPush, if_neg (by rw [fifoHasRoom_iff]; omega)]⟩

/-- `FifoPop` pops the oldest visible word, or leaves everything (R65). -/
theorem fifoPop_cases (s : State) :
    (∃ k e q, s.wvis = k + 1 ∧ s.qe = e :: q ∧
      fifoPop s = (e, { s with qe := q, wvis := k, rfree := s.rfree + 1 })) ∨
    ((s.wvis = 0 ∨ s.qe = []) ∧ fifoPop s = (EMPTY_WORD, s)) := by
  unfold fifoPop
  split
  · exact Or.inl ⟨_, _, _, ‹_›, ‹_›, rfl⟩
  · rename_i hno
    refine Or.inr ⟨?_, rfl⟩
    cases hw : s.wvis with
    | zero => exact Or.inl rfl
    | succ k =>
      cases hq : s.qe with
      | nil => exact Or.inr rfl
      | cons e q => exact absurd hq (hno k e q hw)

theorem fifoPop_of_visible {s : State} {k : Nat} {e : EventWord} {q : List EventWord} (hw : s.wvis = k + 1)
    (hq : s.qe = e :: q) : fifoPop s = (e, { s with qe := q, wvis := k, rfree := s.rfree + 1 }) := by
  unfold fifoPop; rw [hw, hq]

theorem fifoPop_of_empty {s : State} (hw : s.wvis = 0) : fifoPop s = (EMPTY_WORD, s) := by
  unfold fifoPop; rw [hw]

/-- A producer command's push and answer (R182, R183). -/
theorem enqueue_cases (e : EventWord) (s : State) :
    (s.qe.length + s.rfree < s.fifoDepth ∧
      enqueue e s = { s with qe := s.qe ++ [e], prodResp := some .ok }) ∨
    (s.fifoDepth ≤ s.qe.length + s.rfree ∧ enqueue e s = { s with
      sticky := s.sticky ||| OVF, drops := saturatingSucc s.drops, prodResp := some .dropped }) := by
  rcases fifoPush_cases e s with ⟨h, he⟩ | ⟨h, he⟩
  · exact Or.inl ⟨h, by rw [enqueue, he]; rfl⟩
  · exact Or.inr ⟨h, by rw [enqueue, he]; rfl⟩

/-! ### Applying an event -/

/-- What an event changes: the voice, the voice silenced, the bend, or nothing (R189, R191 to R194). -/
theorem applyEvent_cases (e : EventWord) (s : State) :
    (eventTag e = 1#3 ∧ fgt (eventValue e) PZERO = true ∧ applyEvent e s = { s with
      cNote := (eventKey e).setWidth 8, cFreq := noteFreq (eventKey e), cVel := eventValue e,
      held := setHeld (eventKey e) s.held }) ∨
    (eventTag e = 1#3 ∧ fgt (eventValue e) PZERO = false ∧ applyEvent e s = s) ∨
    (eventTag e = 2#3 ∧ applyEvent e s = { s with
      held := clearHeld (eventKey e) s.held, cFreq := SILENT, cVel := PZERO }) ∨
    (eventTag e = 3#3 ∧ applyEvent e s = { s with cBend := eventValue e }) ∨
    (eventTag e ≠ 1#3 ∧ eventTag e ≠ 2#3 ∧ eventTag e ≠ 3#3 ∧ applyEvent e s = s) := by
  unfold applyEvent
  generalize eventTag e = t
  obtain rfl | rfl | rfl | ⟨h1, h2, h3⟩ :
      t = 1#3 ∨ t = 2#3 ∨ t = 3#3 ∨ (t ≠ 1#3 ∧ t ≠ 2#3 ∧ t ≠ 3#3) := by tauto
  · cases hv : fgt (eventValue e) PZERO
    · exact Or.inr (Or.inl ⟨rfl, rfl, by simp [eventKindOfTag, applyNoteOn, hv]⟩)
    · exact Or.inl ⟨rfl, rfl, by simp [eventKindOfTag, applyNoteOn, hv]⟩
  · exact Or.inr (Or.inr (Or.inl ⟨rfl, by simp [eventKindOfTag, applyNoteOff]⟩))
  · exact Or.inr (Or.inr (Or.inr (Or.inl ⟨rfl, by simp [eventKindOfTag]⟩)))
  · refine Or.inr (Or.inr (Or.inr (Or.inr ⟨h1, h2, h3, ?_⟩)))
    have : eventKindOfTag t = .empty ∨ eventKindOfTag t = .controlChange ∨ eventKindOfTag t = .unhandled := by
      revert t; decide
    rcases this with h | h | h <;> rw [h]

theorem applyEvent_emptyWord (s : State) : applyEvent EMPTY_WORD s = s := rfl

/-- The body of `TICK`: the note cleared, then either the oldest visible word popped and applied or nothing
more (R189, R202, R203). -/
theorem tickBody_cases (s : State) :
    (∃ k e q, s.wvis = k + 1 ∧ s.qe = e :: q ∧ tickBody s =
      (e, applyEvent e { s with cNote := 0xFF#8, qe := q, wvis := k, rfree := s.rfree + 1 })) ∨
    ((s.wvis = 0 ∨ s.qe = []) ∧ tickBody s = (EMPTY_WORD, { s with cNote := 0xFF#8 })) := by
  rcases fifoPop_cases (clearNote s) with ⟨k, e, q, hw, hq, h⟩ | ⟨h0, h⟩
  · exact Or.inl ⟨k, e, q, hw, hq, by rw [tickBody, h]; rfl⟩
  · exact Or.inr ⟨h0, by rw [tickBody, h]; rfl⟩

/-! ### One sample -/

/-- A sample either ends with the phase advanced and `LAST` as its path says, or its wrap loop never ends
(R140, R150). -/
theorem nextSample_cases (v : Osc) :
    (∃ p, advancePhase v.phase v.inc = some p ∧
      nextSample v = some (sampleValue v, { v with last := lastAfterSample v, phase := p })) ∨
    (advancePhase v.phase v.inc = none ∧ nextSample v = none) := by
  unfold nextSample
  split
  · exact Or.inr ⟨‹_›, rfl⟩
  · exact Or.inl ⟨_, ‹_›, rfl⟩

/-- `LAST` moves only on the band-limited triangle path (R142, R143, R149, R153). -/
theorem lastAfterSample_cases (v : Osc) :
    (v.muted = false ∧ v.naive = false ∧ v.mode = .triangle ∧ lastAfterSample v = triangleValue v) ∨
    (¬ (v.muted = false ∧ v.naive = false ∧ v.mode = .triangle) ∧ lastAfterSample v = v.last) := by
  unfold lastAfterSample
  rcases hm : v.muted <;> rcases hn : v.naive <;> rcases hd : v.mode <;> simp

/-- A sample step holds while `SOUT` is full; else it emits the sample or its loop never ends (R237). -/
theorem sampleStep_cases (left : BitVec 32) (e : EventWord) (s : State) :
    (∃ y, s.sout = some y ∧ sampleStep left e s = .next s) ∨
    (s.sout = none ∧ ∃ p, advancePhase s.osc.first.phase s.osc.first.inc = some p ∧
      sampleStep left e s = .next { s with
        osc := { s.osc with first := { s.osc.first with
          last := lastAfterSample s.osc.first, phase := p } }
        sout := some (sampleValue s.osc.first), seq := .samples left e }) ∨
    (s.sout = none ∧ advancePhase s.osc.first.phase s.osc.first.inc = none ∧
      sampleStep left e s = .fault .phaseLoopDiverges) := by
  unfold sampleStep
  cases hs : s.sout with
  | some y => exact Or.inl ⟨y, rfl, rfl⟩
  | none =>
    rcases nextSample_cases s.osc.first with ⟨p, hp, h⟩ | ⟨hp, h⟩
    · exact Or.inr (Or.inl ⟨rfl, p, hp, by simp only [h]⟩)
    · exact Or.inr (Or.inr ⟨rfl, hp, by simp only [h]⟩)

/-! ### Steps of the agents -/

/-- A step takes the head of the schedule, or leaves the state when there is none. -/
theorem step_cons {s : State} {m : Move} {rest : List Move} (h : s.sched = m :: rest) :
    step s = runMove m { s with sched := rest } := by
  rw [step, stepMachine, h]

theorem step_nil {s : State} (h : s.sched = []) : step s = .next s := by
  rw [step, stepMachine, h]

theorem hostMove_busy {s : State} (h : s.seq ≠ .idle) : hostMove s = renderStep s := by
  unfold hostMove; split <;> simp_all

theorem hostMove_start {s : State} {r : Request} {ps : List Request} (h : s.seq = .idle)
    (hp : s.hostPort = r :: ps) : hostMove s = runHost r { s with hostPort := ps } := by
  unfold hostMove; rw [h, hp]

theorem hostMove_nothing {s : State} (h : s.seq = .idle) (hp : s.hostPort = []) :
    hostMove s = .next s := by
  unfold hostMove; rw [h, hp]

theorem producerMove_start {s : State} {r : Request} {ps : List Request} (h : s.ctrl.pen = true)
    (hp : s.prodPort = r :: ps) : producerMove s = runProducer r { s with prodPort := ps } := by
  unfold producerMove; rw [if_pos h, hp]

theorem producerMove_held {s : State} (h : s.ctrl.pen = false) : producerMove s = .next s := by
  unfold producerMove; rw [h]; rfl

theorem producerMove_nothing {s : State} (hp : s.prodPort = []) : producerMove s = .next s := by
  unfold producerMove; rw [hp]; split <;> rfl

/-- A producer command is one push (R181 to R183). -/
theorem decodeProducer_pushes {r : Request} {i : Instr} (h : decodeProducer r = .ok i) :
    ∃ e, pushedWord i = some e ∧ ∀ s, exec i s = .next (enqueue e s) := by
  unfold decodeProducer at h
  split at h
  · split at h
    · cases h
    · cases h; exact ⟨_, rfl, fun _ => rfl⟩
  · split at h
    · cases h
    · cases h; exact ⟨_, rfl, fun _ => rfl⟩
  · cases h

/-- What the step of `PROD` can do: nothing, the answer to a bad word, or one push with its answer (R181,
R187, R266). -/
theorem producerMove_cases (s : State) :
    (producerMove s = .next s ∧ (s.ctrl.pen = false ∨ s.prodPort = [])) ∨
    (∃ r ps, s.ctrl.pen = true ∧ s.prodPort = r :: ps ∧
      ((∃ d, decodeProducer r = .error d ∧
          producerMove s = .next (raiseProducer { s with prodPort := ps })) ∨
        (∃ i e, decodeProducer r = .ok i ∧ pushedWord i = some e ∧
          producerMove s = .next (enqueue e { s with prodPort := ps })))) := by
  cases hpen : s.ctrl.pen with
  | false => exact Or.inl ⟨producerMove_held hpen, Or.inl rfl⟩
  | true =>
    cases hp : s.prodPort with
    | nil => exact Or.inl ⟨producerMove_nothing hp, Or.inr rfl⟩
    | cons r ps =>
      refine Or.inr ⟨r, ps, rfl, rfl, ?_⟩
      rw [producerMove_start hpen hp]
      unfold runProducer
      cases hd : decodeProducer r with
      | error d => exact Or.inl ⟨d, rfl, rfl⟩
      | ok i =>
        obtain ⟨e, he, hx⟩ := decodeProducer_pushes hd
        exact Or.inr ⟨i, e, rfl, he, hx _⟩

/-- What the render sequencer can do in a step (R234, R236). -/
theorem renderStep_cases (s : State) :
    (s.seq = .idle ∧ renderStep s = .next s) ∨
    (∃ n e, s.seq = .couple n e ∧
      renderStep s = .next { (if s.ctrl.auto then couple s else s) with seq := .samples n e }) ∨
    (∃ n e, s.seq = .samples n e ∧ n = 0#32 ∧ renderStep s = okHost e { s with seq := .idle }) ∨
    (∃ n e, s.seq = .samples n e ∧ n ≠ 0#32 ∧ renderStep s = sampleStep (n - 1#32) e s) := by
  unfold renderStep
  cases s.seq with
  | idle => exact Or.inl ⟨rfl, rfl⟩
  | couple n e => exact Or.inr (Or.inl ⟨n, e, rfl, rfl⟩)
  | samples n e =>
    by_cases hn : n = 0#32
    · exact Or.inr (Or.inr (Or.inl ⟨n, e, rfl, hn, by simp only [hn, if_true]⟩))
    · exact Or.inr (Or.inr (Or.inr ⟨n, e, rfl, hn, by simp only [hn, if_false]⟩))

/-- What the step of `HOST` can do (R72, R236, R238, R265). -/
theorem hostMove_cases (s : State) :
    (s.seq ≠ .idle ∧ hostMove s = renderStep s) ∨
    (s.seq = .idle ∧ s.hostPort = [] ∧ hostMove s = .next s) ∨
    (∃ r ps, s.seq = .idle ∧ s.hostPort = r :: ps ∧
      ((∃ d, decodeHost r = .error d ∧
          hostMove s = failHost .illegal r.cmd { s with hostPort := ps }) ∨
        (∃ i, decodeHost r = .ok i ∧ hostMove s = exec i { s with hostPort := ps }))) := by
  by_cases hq : s.seq = .idle
  · cases hp : s.hostPort with
    | nil => exact Or.inr (Or.inl ⟨hq, rfl, hostMove_nothing hq hp⟩)
    | cons r ps =>
      refine Or.inr (Or.inr ⟨r, ps, hq, rfl, ?_⟩)
      rw [hostMove_start hq hp]
      unfold runHost
      cases hd : decodeHost r with
      | error d => exact Or.inl ⟨d, rfl, rfl⟩
      | ok i => exact Or.inr ⟨i, rfl, rfl⟩
  · exact Or.inl ⟨hq, hostMove_busy hq⟩

end Sys2Proof.Machine
end

