-- ==== Sys2Proof/Laws/Exec.lean ====
section
/-!
SUPPORT. One lemma per command whose meaning branches: the branches, each with its condition. The other
commands are one case by definition.
-/

namespace Sys2Proof.Machine

theorem execSetmode_cases (o : BitVec 8) (m : Mode) (s : State) :
    (∃ v, IsOsc s o.toNat v ∧ exec (.setmode o m) s = okHost 0#128 (putOsc o { v with mode := m } s)) ∨
    (numOsc s ≤ o.toNat ∧ exec (.setmode o m) s = failHost .badIndex (cmdOf (.setmode o m)) s) :=
  onOscillator_cases _ o s _

theorem execSetfreq_cases (o : BitVec 8) (x : F64) (s : State) :
    (∃ v, IsOsc s o.toNat v ∧
      exec (.setfreq o x) s = okHost 0#128 (putOsc o (updateInc s.sr { v with freq := x }) s)) ∨
    (numOsc s ≤ o.toNat ∧ exec (.setfreq o x) s = failHost .badIndex (cmdOf (.setfreq o x)) s) :=
  onOscillator_cases _ o s _

theorem execSetpitch_cases (o : BitVec 8) (x : F64) (s : State) :
    (∃ v, IsOsc s o.toNat v ∧
      exec (.setpitch o x) s = okHost 0#128 (putOsc o (updateInc s.sr { v with pitch := x }) s)) ∨
    (numOsc s ≤ o.toNat ∧ exec (.setpitch o x) s = failHost .badIndex (cmdOf (.setpitch o x)) s) :=
  onOscillator_cases _ o s _

theorem execMute_cases (o : BitVec 8) (s : State) :
    (∃ v, IsOsc s o.toNat v ∧ exec (.mute o) s = okHost 0#128 (putOsc o { v with muted := true } s)) ∨
    (numOsc s ≤ o.toNat ∧ exec (.mute o) s = failHost .badIndex (cmdOf (.mute o)) s) :=
  onOscillator_cases _ o s _

theorem execUnmute_cases (o : BitVec 8) (s : State) :
    (∃ v, IsOsc s o.toNat v ∧ exec (.unmute o) s = okHost 0#128 (putOsc o { v with muted := false } s)) ∨
    (numOsc s ≤ o.toNat ∧ exec (.unmute o) s = failHost .badIndex (cmdOf (.unmute o)) s) :=
  onOscillator_cases _ o s _

theorem execUsenaive_cases (o : BitVec 8) (b : Bool) (s : State) :
    (∃ v, IsOsc s o.toNat v ∧ exec (.usenaive o b) s = okHost 0#128 (putOsc o { v with naive := b } s)) ∨
    (numOsc s ≤ o.toNat ∧ exec (.usenaive o b) s = failHost .badIndex (cmdOf (.usenaive o b)) s) :=
  onOscillator_cases _ o s _

/-- `NEXT`: the sample and the advance, the endless loop of R150, or `BAD_INDEX` (R140). -/
theorem execNext_cases (o : BitVec 8) (s : State) :
    (∃ v p, IsOsc s o.toNat v ∧ advancePhase v.phase v.inc = some p ∧
      exec (.next o) s = okHost (resultOf64 (sampleValue v))
        (putOsc o { v with last := lastAfterSample v, phase := p } s)) ∨
    (∃ v, IsOsc s o.toNat v ∧ advancePhase v.phase v.inc = none ∧
      exec (.next o) s = .fault .phaseLoopDiverges) ∨
    (numOsc s ≤ o.toNat ∧ exec (.next o) s = failHost .badIndex (cmdOf (.next o)) s) := by
  rcases onOscillator_cases (cmdOf (.next o)) o s (fun v =>
    match nextSample v with
    | none => .fault .phaseLoopDiverges
    | some (y, v') => okHost (resultOf64 y) (putOsc o v' s)) with ⟨v, hv, h⟩ | h
  · rcases nextSample_cases v with ⟨p, hp, hn⟩ | ⟨hp, hn⟩
    · exact Or.inl ⟨v, p, hv, hp, h.trans (by simp only [hn])⟩
    · exact Or.inr (Or.inl ⟨v, hv, hp, h.trans (by simp only [hn])⟩)
  · exact Or.inr (Or.inr h)

/-- `SETSR`: accepted, with every instance stale, or `BAD_VALUE` (R139). -/
theorem execSetsr_cases (x : F64) (s : State) :
    (acceptableRate x = true ∧ exec (.setsr x) s = okHost 0#128
      { s with sr := x, osc := mapOsc (fun v => { v with stale := true }) s.osc }) ∨
    (acceptableRate x = false ∧ exec (.setsr x) s = failHost .badValue (cmdOf (.setsr x)) s) := by
  simp only [exec, execSetsr]
  cases acceptableRate x
  · exact Or.inr ⟨rfl, rfl⟩
  · exact Or.inl ⟨rfl, rfl⟩

/-- `NOTEHELD`: the held bit, or `BAD_INDEX` (R195). -/
theorem execNoteheld_cases (n : BitVec 8) (s : State) :
    (n.toNat ≤ 127 ∧ exec (.noteheld n) s =
      okHost ((BitVec.ofBool (s.held.getLsbD n.toNat)).setWidth 128) s) ∨
    (127 < n.toNat ∧ exec (.noteheld n) s = failHost .badIndex (cmdOf (.noteheld n)) s) := by
  simp only [exec, execNoteheld]
  split
  · exact Or.inr ⟨‹_›, rfl⟩
  · exact Or.inl ⟨by omega, rfl⟩

/-- `RDREG`: a register's value, `ILLEGAL` or `BAD_INDEX`, in the order of R232. -/
theorem execRdreg_cases (sel o : BitVec 8) (s : State) :
    (readableSelector sel o = false ∧
      exec (.rdreg sel o) s = failHost .illegal (cmdOf (.rdreg sel o)) s) ∨
    (∃ r v, selectorOfCode sel = some r ∧ (perOscillator r = true ∨ o = 0#8) ∧ IsOsc s o.toNat v ∧
      exec (.rdreg sel o) s = okHost (registerValue r v s) s) ∨
    (∃ r, selectorOfCode sel = some r ∧ perOscillator r = true ∧ numOsc s ≤ o.toNat ∧
      exec (.rdreg sel o) s = failHost .badIndex (cmdOf (.rdreg sel o)) s) := by
  simp only [exec, execRdreg, readableSelector]
  cases hr : selectorOfCode sel with
  | none => exact Or.inl ⟨rfl, rfl⟩
  | some r =>
    simp only
    by_cases hg : perOscillator r = false ∧ o ≠ 0#8
    · refine Or.inl ⟨by simp [hg.1, hg.2], by simp [hg.1, hg.2]⟩
    · have hok : perOscillator r = true ∨ o = 0#8 := by
        cases hp : perOscillator r
        · exact Or.inr (by_contra fun h => hg ⟨hp, h⟩)
        · exact Or.inl rfl
      rw [if_neg (by rcases hok with h | h <;> simp [h])]
      rcases onOscillator_cases (cmdOf (.rdreg sel o)) o s (fun v => okHost (registerValue r v s) s) with
        ⟨v, hv, h⟩ | ⟨hle, h⟩
      · exact Or.inr (Or.inl ⟨r, v, rfl, hok, hv, h⟩)
      · refine Or.inr (Or.inr ⟨r, rfl, ?_, hle, h⟩)
        rcases hok with h | h
        · exact h
        · subst h; simp [numOsc] at hle

/-- `WRCSR`: one of the three registers, or `ILLEGAL` (R233). -/
theorem execWrcsr_cases (sel : BitVec 8) (v : BitVec 64) (s : State) :
    (sel = 0x01#8 ∧ exec (.wrcsr sel v) s = okHost 0#128 { s with ctrl := ctrlOfWord v }) ∨
    (sel = 0x02#8 ∧ exec (.wrcsr sel v) s = okHost 0#128 (clearSticky (v.extractLsb' 0 5) s)) ∨
    (sel = 0x03#8 ∧ exec (.wrcsr sel v) s = okHost 0#128 { s with drops := v.extractLsb' 0 32 }) ∨
    (writableSelector sel = false ∧ exec (.wrcsr sel v) s = failHost .illegal (cmdOf (.wrcsr sel v)) s) := by
  simp only [exec, execWrcsr, writableSelector]
  split
  · exact Or.inl ⟨‹_›, rfl⟩
  split
  · exact Or.inr (Or.inl ⟨‹_›, rfl⟩)
  split
  · exact Or.inr (Or.inr (Or.inl ⟨‹_›, rfl⟩))
  · exact Or.inr (Or.inr (Or.inr ⟨by simp_all, rfl⟩))

/-! ### Every host command -/

/-- The four ways a host command ends (R261 to R264): an error response with nothing else done, the
answer `OK`, the first step of a period with the answer still to come, or the endless loop of R150. -/
theorem exec_host_cases (i : Instr) (s : State) (h : i.port = .host) :
    (∃ e, exec i s = failHost e (cmdOf i) s) ∨ (∃ res t, exec i s = okHost res t) ∨
    (∃ n t, i = .runperiod n ∧ exec i s = .next t ∧ t.hostResp = none) ∨
    (∃ o v, i = .next o ∧ IsOsc s o.toNat v ∧ advancePhase v.phase v.inc = none ∧
      exec i s = .fault .phaseLoopDiverges) := by
  have ok : ∀ {res t}, exec i s = okHost res t → (∃ e, exec i s = failHost e (cmdOf i) s) ∨
      (∃ res t, exec i s = okHost res t) ∨
      (∃ n t, i = .runperiod n ∧ exec i s = .next t ∧ t.hostResp = none) ∨
      (∃ o v, i = .next o ∧ IsOsc s o.toNat v ∧ advancePhase v.phase v.inc = none ∧
        exec i s = .fault .phaseLoopDiverges) := fun h => Or.inr (Or.inl ⟨_, _, h⟩)
  cases i with
  | setmode o m => exact (execSetmode_cases o m s).elim (fun ⟨_, _, h⟩ => ok h) fun ⟨_, h⟩ => Or.inl ⟨_, h⟩
  | setfreq o x => exact (execSetfreq_cases o x s).elim (fun ⟨_, _, h⟩ => ok h) fun ⟨_, h⟩ => Or.inl ⟨_, h⟩
  | setpitch o x =>
    exact (execSetpitch_cases o x s).elim (fun ⟨_, _, h⟩ => ok h) fun ⟨_, h⟩ => Or.inl ⟨_, h⟩
  | mute o => exact (execMute_cases o s).elim (fun ⟨_, _, h⟩ => ok h) fun ⟨_, h⟩ => Or.inl ⟨_, h⟩
  | unmute o => exact (execUnmute_cases o s).elim (fun ⟨_, _, h⟩ => ok h) fun ⟨_, h⟩ => Or.inl ⟨_, h⟩
  | usenaive o b =>
    exact (execUsenaive_cases o b s).elim (fun ⟨_, _, h⟩ => ok h) fun ⟨_, h⟩ => Or.inl ⟨_, h⟩
  | next o =>
    rcases execNext_cases o s with ⟨_, _, _, _, h⟩ | ⟨v, hv, hp, h⟩ | ⟨_, h⟩
    · exact ok h
    · exact Or.inr (Or.inr (Or.inr ⟨o, v, rfl, hv, hp, h⟩))
    · exact Or.inl ⟨_, h⟩
  | setsr x => exact (execSetsr_cases x s).elim (fun ⟨_, h⟩ => ok h) fun ⟨_, h⟩ => Or.inl ⟨_, h⟩
  | noteheld n => exact (execNoteheld_cases n s).elim (fun ⟨_, h⟩ => ok h) fun ⟨_, h⟩ => Or.inl ⟨_, h⟩
  | rdreg sel o =>
    rcases execRdreg_cases sel o s with ⟨_, h⟩ | ⟨_, _, _, _, _, h⟩ | ⟨_, _, _, _, h⟩
    exacts [Or.inl ⟨_, h⟩, ok h, Or.inl ⟨_, h⟩]
  | wrcsr sel v =>
    rcases execWrcsr_cases sel v s with ⟨_, h⟩ | ⟨_, h⟩ | ⟨_, h⟩ | ⟨_, h⟩
    exacts [ok h, ok h, ok h, Or.inl ⟨_, h⟩]
  | runperiod n => exact Or.inr (Or.inr (Or.inl ⟨n, _, rfl, rfl, rfl⟩))
  | penq _ _ _ => cases h
  | prawin _ => cases h
  | nop => exact ok rfl
  | deq => exact ok rfl
  | tick => exact ok rfl
  | getfreq => exact ok rfl
  | getvel => exact ok rfl
  | getbend => exact ok rfl
  | getnote => exact ok rfl

/-! ### What no command touches -/

/-- A state with the same schedule, waiting transactions, held sample, sink's record and depth. -/
structure SameSurroundings (s t : State) : Prop where
  sched : t.sched = s.sched
  hostPort : t.hostPort = s.hostPort
  prodPort : t.prodPort = s.prodPort
  sout : t.sout = s.sout
  sinkLog : t.sinkLog = s.sinkLog
  fifoDepth : t.fifoDepth = s.fifoDepth

theorem SameSurroundings.raiseHost (e : HostError) (c : CmdWord) (s : State) :
    SameSurroundings s (raiseHost e c s) := ⟨rfl, rfl, rfl, rfl, rfl, rfl⟩

/-- No command touches the schedule, the waiting transactions, `SOUT`, the sink's record or the depth. -/
theorem exec_surroundings {i : Instr} {s t : State} (h : exec i s = .next t) : SameSurroundings s t := by
  have keep : ∀ {res u}, okHost res u = .next t → SameSurroundings s u → SameSurroundings s t := by
    intro res u h hu
    cases h
    exact ⟨hu.sched, hu.hostPort, hu.prodPort, hu.sout, hu.sinkLog, hu.fifoDepth⟩
  have fail : ∀ {e c}, failHost e c s = .next t → SameSurroundings s t := by
    intro e c h
    cases h
    exact .raiseHost e c s
  have put : ∀ {o v res}, okHost res (putOsc o v s) = .next t → SameSurroundings s t :=
    fun h => keep h ⟨rfl, rfl, rfl, rfl, rfl, rfl⟩
  cases i with
  | next o =>
    rcases execNext_cases o s with ⟨_, _, _, _, e⟩ | ⟨_, _, _, e⟩ | ⟨_, e⟩ <;> rw [e] at h
    exacts [put h, (nomatch h), fail h]
  | setmode o m => rcases execSetmode_cases o m s with ⟨_, _, e⟩ | ⟨_, e⟩ <;> rw [e] at h; exacts [put h, fail h]
  | setfreq o x => rcases execSetfreq_cases o x s with ⟨_, _, e⟩ | ⟨_, e⟩ <;> rw [e] at h; exacts [put h, fail h]
  | setpitch o x => rcases execSetpitch_cases o x s with ⟨_, _, e⟩ | ⟨_, e⟩ <;> rw [e] at h; exacts [put h, fail h]
  | usenaive o b => rcases execUsenaive_cases o b s with ⟨_, _, e⟩ | ⟨_, e⟩ <;> rw [e] at h; exacts [put h, fail h]
  | mute o => rcases execMute_cases o s with ⟨_, _, e⟩ | ⟨_, e⟩ <;> rw [e] at h; exacts [put h, fail h]
  | unmute o => rcases execUnmute_cases o s with ⟨_, _, e⟩ | ⟨_, e⟩ <;> rw [e] at h; exacts [put h, fail h]
  | setsr x =>
    rcases execSetsr_cases x s with ⟨_, e⟩ | ⟨_, e⟩ <;> rw [e] at h
    exacts [keep h ⟨rfl, rfl, rfl, rfl, rfl, rfl⟩, fail h]
  | noteheld n =>
    rcases execNoteheld_cases n s with ⟨_, e⟩ | ⟨_, e⟩ <;> rw [e] at h
    exacts [keep h ⟨rfl, rfl, rfl, rfl, rfl, rfl⟩, fail h]
  | rdreg sel o =>
    rcases execRdreg_cases sel o s with ⟨_, e⟩ | ⟨_, _, _, _, _, e⟩ | ⟨_, _, _, _, e⟩ <;> rw [e] at h
    exacts [fail h, keep h ⟨rfl, rfl, rfl, rfl, rfl, rfl⟩, fail h]
  | wrcsr sel v =>
    rcases execWrcsr_cases sel v s with ⟨_, e⟩ | ⟨_, e⟩ | ⟨_, e⟩ | ⟨_, e⟩ <;> rw [e] at h
    exacts [keep h ⟨rfl, rfl, rfl, rfl, rfl, rfl⟩, keep h ⟨rfl, rfl, rfl, rfl, rfl, rfl⟩,
      keep h ⟨rfl, rfl, rfl, rfl, rfl, rfl⟩, fail h]
  | penq _ _ _ => cases h; constructor <;> simp
  | prawin _ => cases h; constructor <;> simp
  | runperiod _ => cases h; constructor <;> simp
  | deq => exact keep h (by constructor <;> simp)
  | tick => exact keep h (by constructor <;> simp)
  | nop => exact keep h ⟨rfl, rfl, rfl, rfl, rfl, rfl⟩
  | getfreq => exact keep h ⟨rfl, rfl, rfl, rfl, rfl, rfl⟩
  | getvel => exact keep h ⟨rfl, rfl, rfl, rfl, rfl, rfl⟩
  | getbend => exact keep h ⟨rfl, rfl, rfl, rfl, rfl, rfl⟩
  | getnote => exact keep h ⟨rfl, rfl, rfl, rfl, rfl, rfl⟩

/-- No command touches the schedule. -/
theorem exec_sched {i : Instr} {s t : State} (h : exec i s = .next t) : t.sched = s.sched :=
  (exec_surroundings h).sched

end Sys2Proof.Machine
end

