-- ==== Sys2Proof/Laws/Fifo.lean ====
section
/-!
SUPPORT. What one step does to the event FIFO: one inversion lemma, from which every claim about the FIFO
follows without unfolding a command.
-/

namespace Sys2Proof.Machine

/-- The FIFO of `t` is that of `s`. -/
structure SameFifo (s t : State) : Prop where
  qe : t.qe = s.qe
  wvis : t.wvis = s.wvis
  rfree : t.rfree = s.rfree

/-- What a step from `s` to `t` does to the FIFO: the words it accepts and the words it pops (R64 to R66). -/
inductive FifoStep (s t : State) : List EventWord → List EventWord → Prop where
  /-- Nothing. -/
  | keep (h : SameFifo s t) : FifoStep s t [] []
  /-- A push into a free slot. -/
  | push (e : EventWord) (room : s.qe.length + s.rfree < s.fifoDepth) (qe : t.qe = s.qe ++ [e])
      (wvis : t.wvis = s.wvis) (rfree : t.rfree = s.rfree) : FifoStep s t [e] []
  /-- A pop of the oldest visible word. -/
  | pop (e : EventWord) (sqe : s.qe = e :: t.qe) (swvis : s.wvis = t.wvis + 1)
      (rfree : t.rfree = s.rfree + 1) : FifoStep s t [] [e]
  /-- `SYNC_W`. -/
  | show (sched : ∃ rest, s.sched = .syncW :: rest) (hidden : s.wvis < s.qe.length) (qe : t.qe = s.qe)
      (wvis : t.wvis = s.wvis + 1) (rfree : t.rfree = s.rfree) : FifoStep s t [] []
  /-- `SYNC_R`. -/
  | release (sched : ∃ rest, s.sched = .syncR :: rest) (qe : t.qe = s.qe) (wvis : t.wvis = s.wvis)
      (rfree : s.rfree = t.rfree + 1) : FifoStep s t [] []

/-- A host command pops as `FifoPop` does, or leaves the FIFO (R70, R71). -/
theorem exec_host_fifo {i : Instr} {s t : State} (hp : i.port = .host) (h : exec i s = .next t) :
    (popsFifo i = true ∧ SameFifo (fifoPop s).2 t) ∨ (popsFifo i = false ∧ SameFifo s t) := by
  have keep : ∀ {res u}, okHost res u = .next t → SameFifo s u → SameFifo s t := by
    intro res u h hu
    cases h
    exact ⟨hu.qe, hu.wvis, hu.rfree⟩
  have same : ∀ {res}, okHost res s = .next t → SameFifo s t := fun h => keep h ⟨rfl, rfl, rfl⟩
  have fail : ∀ {e c}, failHost e c s = .next t → SameFifo s t := by
    intro e c h
    cases h
    exact ⟨rfl, rfl, rfl⟩
  have put : ∀ {o v res}, okHost res (putOsc o v s) = .next t → SameFifo s t := fun h => keep h ⟨rfl, rfl, rfl⟩
  have tick : SameFifo (fifoPop s).2 (tickBody s).2 := by
    rcases fifoPop_cases s with ⟨k, e, q, hw, hq, hf⟩ | ⟨h0, hf⟩ <;>
      rcases tickBody_cases s with ⟨k', e', q', hw', hq', ht⟩ | ⟨h0', ht⟩ <;> rw [hf, ht]
    · rw [hw] at hw'; rw [hq] at hq'; cases hw'; cases hq'
      exact ⟨by simp, by simp, by simp⟩
    · rcases h0' with h0' | h0' <;> simp_all
    · rcases h0 with h0 | h0 <;> simp_all
    · exact ⟨rfl, rfl, rfl⟩
  cases i with
  | penq _ _ _ => cases hp
  | prawin _ => cases hp
  | deq => cases h; exact Or.inl ⟨rfl, rfl, rfl, rfl⟩
  | tick => cases h; exact Or.inl ⟨rfl, tick.qe, tick.wvis, tick.rfree⟩
  | runperiod _ => cases h; exact Or.inl ⟨rfl, tick.qe, tick.wvis, tick.rfree⟩
  | next o =>
    rcases execNext_cases o s with ⟨_, _, _, _, e⟩ | ⟨_, _, _, e⟩ | ⟨_, e⟩ <;> rw [e] at h
    exacts [Or.inr ⟨rfl, put h⟩, (nomatch h), Or.inr ⟨rfl, fail h⟩]
  | setmode o m =>
    rcases execSetmode_cases o m s with ⟨_, _, e⟩ | ⟨_, e⟩ <;> rw [e] at h
    exacts [Or.inr ⟨rfl, put h⟩, Or.inr ⟨rfl, fail h⟩]
  | setfreq o x =>
    rcases execSetfreq_cases o x s with ⟨_, _, e⟩ | ⟨_, e⟩ <;> rw [e] at h
    exacts [Or.inr ⟨rfl, put h⟩, Or.inr ⟨rfl, fail h⟩]
  | setpitch o x =>
    rcases execSetpitch_cases o x s with ⟨_, _, e⟩ | ⟨_, e⟩ <;> rw [e] at h
    exacts [Or.inr ⟨rfl, put h⟩, Or.inr ⟨rfl, fail h⟩]
  | mute o =>
    rcases execMute_cases o s with ⟨_, _, e⟩ | ⟨_, e⟩ <;> rw [e] at h
    exacts [Or.inr ⟨rfl, put h⟩, Or.inr ⟨rfl, fail h⟩]
  | unmute o =>
    rcases execUnmute_cases o s with ⟨_, _, e⟩ | ⟨_, e⟩ <;> rw [e] at h
    exacts [Or.inr ⟨rfl, put h⟩, Or.inr ⟨rfl, fail h⟩]
  | usenaive o b =>
    rcases execUsenaive_cases o b s with ⟨_, _, e⟩ | ⟨_, e⟩ <;> rw [e] at h
    exacts [Or.inr ⟨rfl, put h⟩, Or.inr ⟨rfl, fail h⟩]
  | setsr x =>
    rcases execSetsr_cases x s with ⟨_, e⟩ | ⟨_, e⟩ <;> rw [e] at h
    exacts [Or.inr ⟨rfl, keep h ⟨rfl, rfl, rfl⟩⟩, Or.inr ⟨rfl, fail h⟩]
  | noteheld n =>
    rcases execNoteheld_cases n s with ⟨_, e⟩ | ⟨_, e⟩ <;> rw [e] at h
    exacts [Or.inr ⟨rfl, same h⟩, Or.inr ⟨rfl, fail h⟩]
  | rdreg sel o =>
    rcases execRdreg_cases sel o s with ⟨_, e⟩ | ⟨_, _, _, _, _, e⟩ | ⟨_, _, _, _, e⟩ <;> rw [e] at h
    exacts [Or.inr ⟨rfl, fail h⟩, Or.inr ⟨rfl, same h⟩, Or.inr ⟨rfl, fail h⟩]
  | wrcsr sel v =>
    rcases execWrcsr_cases sel v s with ⟨_, e⟩ | ⟨_, e⟩ | ⟨_, e⟩ | ⟨_, e⟩ <;> rw [e] at h
    exacts [Or.inr ⟨rfl, keep h ⟨rfl, rfl, rfl⟩⟩, Or.inr ⟨rfl, keep h ⟨rfl, rfl, rfl⟩⟩,
      Or.inr ⟨rfl, keep h ⟨rfl, rfl, rfl⟩⟩, Or.inr ⟨rfl, fail h⟩]
  | nop => exact Or.inr ⟨rfl, same h⟩
  | getfreq => exact Or.inr ⟨rfl, same h⟩
  | getvel => exact Or.inr ⟨rfl, same h⟩
  | getbend => exact Or.inr ⟨rfl, same h⟩
  | getnote => exact Or.inr ⟨rfl, same h⟩

/-- The render sequencer leaves the FIFO (R70). -/
theorem renderStep_fifo {s t : State} (h : renderStep s = .next t) : SameFifo s t := by
  rcases renderStep_cases s with ⟨_, e⟩ | ⟨_, _, _, e⟩ | ⟨_, _, _, _, e⟩ | ⟨_, _, _, _, e⟩ <;> rw [e] at h
  · cases h; exact ⟨rfl, rfl, rfl⟩
  · cases h; constructor <;> simp only <;> split <;> rfl
  · cases h; exact ⟨rfl, rfl, rfl⟩
  · rcases sampleStep_cases _ _ s with ⟨_, _, e⟩ | ⟨_, _, _, e⟩ | ⟨_, _, e⟩ <;> rw [e] at h <;> cases h <;>
      exact ⟨rfl, rfl, rfl⟩

/-! ### The depth -/

/-- No step changes the depth (R7). -/
theorem step_fifoDepth {s t : State} (h : step s = .next t) : t.fifoDepth = s.fifoDepth := by
  cases hs : s.sched with
  | nil => rw [step_nil hs] at h; cases h; rfl
  | cons m rest =>
    rw [step_cons hs] at h
    cases m with
    | presentHost _ => cases h; rfl
    | presentProducer _ => cases h; rfl
    | syncW => cases h; simp
    | syncR => cases h; simp
    | sink => cases h; simp
    | reset => cases h; rfl
    | producer =>
      simp only [runMove] at h
      rcases producerMove_cases { s with sched := rest } with
        ⟨e, _⟩ | ⟨_, _, _, _, ⟨_, _, e⟩ | ⟨_, _, _, _, e⟩⟩ <;> rw [e] at h <;> cases h <;> simp
    | host =>
      simp only [runMove] at h
      rcases hostMove_cases { s with sched := rest } with
        ⟨_, e⟩ | ⟨_, _, e⟩ | ⟨_, _, _, _, ⟨_, _, e⟩ | ⟨_, _, e⟩⟩ <;> rw [e] at h
      · rcases renderStep_cases { s with sched := rest } with
          ⟨_, e⟩ | ⟨_, _, _, e⟩ | ⟨_, _, _, _, e⟩ | ⟨_, _, _, _, e⟩ <;> rw [e] at h
        · cases h; rfl
        · cases h; simp only; split <;> rfl
        · cases h; rfl
        · rcases sampleStep_cases _ _ { s with sched := rest } with ⟨_, _, e⟩ | ⟨_, _, _, e⟩ | ⟨_, _, e⟩ <;>
            rw [e] at h <;> cases h <;> rfl
      · cases h; rfl
      · cases h; rfl
      · exact (exec_surroundings h).fifoDepth

/-! ### What the next step starts -/

theorem acceptsNow_of_not_producer {s : State} (h : ∀ rest, s.sched ≠ .producer :: rest) :
    acceptsNow s = [] := by
  have : startsProducer s = none := by
    unfold startsProducer
    split
    · exact absurd ‹_› (h _)
    · rfl
  simp [acceptsNow, this]

theorem popsNow_of_not_host {s : State} (h : ∀ rest, s.sched ≠ .host :: rest) : popsNow s = [] := by
  have : startsHost s = none := by
    unfold startsHost
    split
    · exact absurd ‹_› (h _)
    · rfl
  rw [popsNow, this]

theorem startsProducer_of_held {s : State} (h : s.ctrl.pen = false) : startsProducer s = none := by
  unfold startsProducer
  split
  · rw [h]; rfl
  · rfl

theorem acceptsNow_of_pushes {s : State} {rest : List Move} {r : Request} {ps : List Request} {i : Instr}
    {e : EventWord} (hs : s.sched = .producer :: rest) (hpen : s.ctrl.pen = true)
    (hp : s.prodPort = r :: ps) (hd : decodeProducer r = .ok i) (he : pushedWord i = some e) :
    acceptsNow s = if fifoHasRoom s then [e] else [] := by
  simp [acceptsNow, startsProducer, hs, hpen, hp, hd, he, Except.toOption]

theorem acceptsNow_of_starts_nothing {s : State} (h : startsProducer s = none) : acceptsNow s = [] := by
  simp [acceptsNow, h]

theorem popsNow_of_starts {s : State} {rest : List Move} {r : Request} {ps : List Request} {i : Instr}
    (hs : s.sched = .host :: rest) (hq : s.seq = .idle) (hp : s.hostPort = r :: ps)
    (hd : decodeHost r = .ok i) :
    popsNow s = if popsFifo i ∧ 0 < s.wvis then s.qe.take 1 else [] := by
  simp [popsNow, startsHost, hs, hq, hp, hd, Except.toOption]

theorem popsNow_of_starts_nothing {s : State} (h : startsHost s = none) : popsNow s = [] := by
  rw [popsNow, h]

/-- A command of the host port's decoder is a host command. -/
theorem decodeHost_port {r : Request} {i : Instr} (h : decodeHost r = .ok i) : i.port = .host := by
  rcases decodeHost_cases r with ⟨_, h'⟩ | ⟨f, b, hr, ⟨_, h'⟩ | ⟨_, _, _, h'⟩ | ⟨_, _, _, h'⟩ | ⟨_, _, _, h'⟩⟩ <;>
    rw [h'] at h <;> cases h
  generalize fieldOpc r.cmd = opc at hr
  unfold hostRow at hr
  split at hr <;> cases hr <;> rfl

/-- What one step does to the FIFO, reset apart (R64 to R66, R70). -/
theorem step_fifo {s t : State} (h : step s = .next t) (hr : ∀ rest, s.sched ≠ .reset :: rest) :
    FifoStep s t (acceptsNow s) (popsNow s) := by
  cases hs : s.sched with
  | nil =>
    rw [step_nil hs] at h
    cases h
    rw [acceptsNow_of_not_producer (by simp [hs]), popsNow_of_not_host (by simp [hs])]
    exact .keep ⟨rfl, rfl, rfl⟩
  | cons m rest =>
    rw [step_cons hs] at h
    have hacc : (∀ l, Move.producer :: l ≠ m :: rest) → acceptsNow s = [] := fun hm =>
      acceptsNow_of_not_producer fun l hl => hm l (hl.symm.trans hs)
    have hpop : (∀ l, Move.host :: l ≠ m :: rest) → popsNow s = [] := fun hm =>
      popsNow_of_not_host fun l hl => hm l (hl.symm.trans hs)
    cases m with
    | reset => exact absurd hs (hr rest)
    | presentHost r => rw [hacc (by simp), hpop (by simp)]; cases h; exact .keep ⟨rfl, rfl, rfl⟩
    | presentProducer r => rw [hacc (by simp), hpop (by simp)]; cases h; exact .keep ⟨rfl, rfl, rfl⟩
    | sink =>
      rw [hacc (by simp), hpop (by simp)]
      cases h
      exact .keep ⟨by simp, by simp, by simp⟩
    | syncW =>
      rw [hacc (by simp), hpop (by simp)]
      cases h
      unfold syncW
      split
      · exact .show ⟨rest, hs⟩ ‹_› rfl rfl rfl
      · exact .keep ⟨rfl, rfl, rfl⟩
    | syncR =>
      rw [hacc (by simp), hpop (by simp)]
      cases h
      unfold syncR
      split
      · rename_i hpos
        exact .release ⟨rest, hs⟩ rfl rfl (by simp only at hpos ⊢; omega)
      · exact .keep ⟨rfl, rfl, rfl⟩
    | producer =>
      rw [hpop (by simp)]
      simp only [runMove] at h
      rcases producerMove_cases { s with sched := rest } with
        ⟨e, hno⟩ | ⟨r, ps, hpen, hp, ⟨d, hd, e⟩ | ⟨i, w, hd, hw, e⟩⟩ <;> rw [e] at h <;> cases h
      · rw [acceptsNow_of_starts_nothing (by
          simp only at hno
          rcases hno with hno | hno
          · exact startsProducer_of_held hno
          · simp [startsProducer, hs, hno])]
        exact .keep ⟨rfl, rfl, rfl⟩
      · rw [acceptsNow_of_starts_nothing (by
          simp only at hpen hp; simp [startsProducer, hs, hpen, hp, hd, Except.toOption])]
        exact .keep ⟨by simp, by simp, by simp⟩
      · rw [acceptsNow_of_pushes hs hpen hp hd hw]
        rcases enqueue_cases w { s with sched := rest, prodPort := ps } with ⟨room, e⟩ | ⟨full, e⟩ <;> rw [e]
        · rw [if_pos ((fifoHasRoom_iff s).2 room)]
          exact .push w room rfl rfl rfl
        · rw [if_neg (by rw [fifoHasRoom_iff]; simp only at full; omega)]
          exact .keep ⟨rfl, rfl, rfl⟩
    | host =>
      rw [hacc (by simp)]
      simp only [runMove] at h
      rcases hostMove_cases { s with sched := rest } with
        ⟨hq, e⟩ | ⟨hq, hp, e⟩ | ⟨r, ps, hq, hp, ⟨d, hd, e⟩ | ⟨i, hd, e⟩⟩ <;> rw [e] at h <;> simp only at hq
      · rw [popsNow_of_starts_nothing (by unfold startsHost; rw [hs]; split <;> simp_all)]
        obtain ⟨h1, h2, h3⟩ := renderStep_fifo h
        exact .keep ⟨h1, h2, h3⟩
      · cases h
        rw [popsNow_of_starts_nothing (by simp only at hp; simp [startsHost, hs, hq, hp])]
        exact .keep ⟨rfl, rfl, rfl⟩
      · cases h
        rw [popsNow_of_starts_nothing (by simp only at hp; simp [startsHost, hs, hq, hp, hd, Except.toOption])]
        exact .keep ⟨by simp, by simp, by simp⟩
      · rw [popsNow_of_starts hs hq hp hd]
        rcases exec_host_fifo (decodeHost_port hd) h with ⟨hi, h1, h2, h3⟩ | ⟨hi, h1, h2, h3⟩
        · rcases fifoPop_cases { s with sched := rest, hostPort := ps } with ⟨k, w, q, hw, hq, e⟩ | ⟨h0, e⟩ <;>
            rw [e] at h1 h2 h3 <;> simp only at h1 h2 h3
          · simp only at hw hq
            rw [if_pos ⟨hi, by omega⟩, hq]
            exact .pop w (by rw [hq, h1]) (by rw [hw, h2]) h3
          · simp only at h0
            rw [show (if popsFifo i ∧ 0 < s.wvis then s.qe.take 1 else []) = [] by
              rcases h0 with h0 | h0 <;> simp [h0]]
            exact .keep ⟨h1, h2, h3⟩
        · rw [hi, if_neg (by simp)]
          exact .keep ⟨h1, h2, h3⟩

end Sys2Proof.Machine
end

