-- ==== Sys2Proof/Laws/Fairness.lean ====
section
/-!
SUPPORT. Agents that are not enabled leave the state, and what weak fairness gives: the first step at which
an agent that stays enabled is taken.
-/

namespace Sys2Proof.Machine

/-- An entry of the schedule whose agent is not enabled leaves the state (notes/assumptions/1.md). -/
theorem runMove_of_not_enabled {m : Move} {s : State} (h : enabled m s = false) : runMove m s = .next s := by
  cases m with
  | presentHost _ => cases h
  | presentProducer _ => cases h
  | reset => cases h
  | syncW => simp only [runMove, syncW]; rw [if_neg (by simpa [enabled] using h)]
  | syncR => simp only [runMove, syncR]; rw [if_neg (by simpa [enabled] using h)]
  | sink =>
    have hs : s.sout = none := by simpa [enabled] using h
    simp only [runMove, sinkMove, hs]
  | producer =>
    simp only [enabled, Bool.and_eq_false_iff, Bool.not_eq_false', List.isEmpty_iff] at h
    exact h.elim producerMove_held producerMove_nothing
  | host =>
    simp only [runMove]
    cases hq : s.seq with
    | idle => exact hostMove_nothing hq (by simpa [enabled, hq] using h)
    | couple n e => simp [enabled, hq] at h
    | samples n e =>
      simp only [enabled, hq, Bool.or_eq_false_iff, beq_eq_false_iff_ne, ne_eq] at h
      obtain ⟨y, hy⟩ := Option.isSome_iff_exists.1 (by simpa using h.2)
      rw [hostMove_busy (by simp [hq]), renderStep, hq]
      simp only [if_neg h.1, sampleStep, hy]

theorem Execution.step_scheduled (x : Execution) (k : Nat) :
    step (x.scheduled k) = .next (x.states (k + 1)) := x.steps k

/-- A step of an execution is its entry's, on the state before it with nothing scheduled. -/
theorem Execution.runMove_eq (x : Execution) (k : Nat) :
    runMove (x.moves k) { x.states k with sched := [] } = .next (x.states (k + 1)) := by
  rw [← x.step_scheduled k]; rfl

/-- From every step on, a weakly fair agent has a first step at which it is taken or not enabled (R66). -/
theorem Execution.weaklyFair.first {x : Execution} {m : Move} (h : x.weaklyFair m) (k : Nat) :
    ∃ n, (x.moves (k + n) = m ∨ enabled m (x.states (k + n)) = false) ∧
      ∀ j, j < n → x.moves (k + j) ≠ m ∧ enabled m (x.states (k + j)) = true := by
  have hex : ∃ n, x.moves (k + n) = m ∨ enabled m (x.states (k + n)) = false := by
    by_contra hno
    simp only [not_exists, not_or, Bool.not_eq_false] at hno
    obtain ⟨j, hj, hm⟩ := h k fun j hj => by
      have := (hno (j - k)).2
      rwa [Nat.add_sub_cancel' hj] at this
    exact (hno (j - k)).1 (by rwa [Nat.add_sub_cancel' hj])
  classical
  refine ⟨Nat.find hex, Nat.find_spec hex, fun j hj => ?_⟩
  simpa using Nat.find_min hex hj

/-- The words accepted in a span are those of its two parts. -/
theorem acceptedFrom_add (x : Execution) (k a b : Nat) :
    acceptedFrom x k (a + b) = acceptedFrom x k a ++ acceptedFrom x (k + a) b := by
  induction b with
  | zero => simp [acceptedFrom]
  | succ b ih => rw [← Nat.add_assoc, acceptedFrom, ih, acceptedFrom, List.append_assoc, Nat.add_assoc]

/-- The words popped in a span are those of its two parts. -/
theorem poppedFrom_add (x : Execution) (k a b : Nat) :
    poppedFrom x k (a + b) = poppedFrom x k a ++ poppedFrom x (k + a) b := by
  induction b with
  | zero => simp [poppedFrom]
  | succ b ih => rw [← Nat.add_assoc, poppedFrom, ih, poppedFrom, List.append_assoc, Nat.add_assoc]

/-- A held sample stays in `SOUT` until `SINK` takes it or reset comes (R237). -/
theorem runMove_held_sample {m : Move} {s t : State} {y : F64} (h : runMove m s = .next t)
    (hy : s.sout = some y) (hs : m ≠ .sink) (hr : m ≠ .reset) : t.sout = some y ∧ t.sinkLog = s.sinkLog := by
  cases m with
  | sink => exact absurd rfl hs
  | reset => exact absurd rfl hr
  | presentHost _ => cases h; exact ⟨hy, rfl⟩
  | presentProducer _ => cases h; exact ⟨hy, rfl⟩
  | syncW => cases h; simp [hy]
  | syncR => cases h; simp [hy]
  | producer =>
    simp only [runMove] at h
    rcases producerMove_cases s with ⟨e, _⟩ | ⟨r, ps, _, _, ⟨d, _, e⟩ | ⟨i, w, _, _, e⟩⟩ <;> rw [e] at h <;>
      cases h <;> simp [hy]
  | host =>
    simp only [runMove] at h
    rcases hostMove_cases s with ⟨_, e⟩ | ⟨_, _, e⟩ | ⟨r, ps, _, _, ⟨d, _, e⟩ | ⟨i, _, e⟩⟩ <;> rw [e] at h
    · rcases renderStep_cases s with ⟨_, e⟩ | ⟨_, _, _, e⟩ | ⟨_, _, _, _, e⟩ | ⟨_, _, _, _, e⟩ <;> rw [e] at h
      · cases h; exact ⟨hy, rfl⟩
      · cases h; simp only; split <;> exact ⟨hy, rfl⟩
      · cases h; exact ⟨hy, rfl⟩
      · rcases sampleStep_cases _ _ s with ⟨_, _, e⟩ | ⟨h0, _⟩ | ⟨h0, _⟩
        · rw [e] at h; cases h; exact ⟨hy, rfl⟩
        · rw [hy] at h0; cases h0
        · rw [hy] at h0; cases h0
    · cases h; exact ⟨hy, rfl⟩
    · cases h; simp [hy]
    · exact ⟨(exec_surroundings h).sout.trans hy, (exec_surroundings h).sinkLog⟩

end Sys2Proof.Machine
end

