-- ==== Sys2Proof/Laws/Float.lean ====
section
/-!
SUPPORT. Laws of the one rounding function: it is monotone, it keeps what is representable, and its error
is at most half a unit in the last place. Bounds on results follow from these three.
-/

namespace Sys2Proof.Machine

/-! ### Magnitudes by their bits -/

/-- The magnitude of a rounded significand: `k` units of `2^sh`, the carry into the next power of two
included. -/
theorem magUnits_significand (k sh : Nat) (hk : k ≤ 2 ^ 53) (hs : sh ≤ 2045) (hn : sh = 0 ∨ 2 ^ 52 ≤ k) :
    magUnits (BitVec.ofNat 64 (k + sh * 2 ^ 52)) = k * 2 ^ sh := by
  rcases Nat.lt_or_ge k (2 ^ 53) with h | h
  · exact magUnits_encoded k sh h hs hn
  · have hk' : k = 2 ^ 53 := by omega
    subst hk'
    rw [magUnits_ofNat _ (by omega), if_neg (by omega),
      show (2 ^ 53 + sh * 2 ^ 52) / 2 ^ 52 - 1 = sh + 1 by omega,
      show 2 ^ 52 + (2 ^ 53 + sh * 2 ^ 52) % 2 ^ 52 = 2 ^ 52 by omega, pow_succ]
    ring

/-- Every magnitude up to infinity is a significand of at most 53 bits at an exponent. -/
theorem significand_of_bits (b : Nat) (h : b ≤ 0x7FF0000000000000) : ∃ k sh, b = k + sh * 2 ^ 52 ∧
    k < 2 ^ 53 ∧ sh ≤ 2046 ∧ (sh = 0 ∨ 2 ^ 52 ≤ k) ∧ magUnits (BitVec.ofNat 64 b) = k * 2 ^ sh := by
  rcases Nat.eq_zero_or_pos (b / 2 ^ 52) with h0 | h0
  · refine ⟨b, 0, by omega, by omega, by omega, Or.inl rfl, ?_⟩
    rw [magUnits_ofNat _ (by omega), if_pos h0]
    simp only [pow_zero, mul_one]
    omega
  · refine ⟨2 ^ 52 + b % 2 ^ 52, b / 2 ^ 52 - 1, by omega, by omega, by omega, Or.inr (by omega), ?_⟩
    rw [magUnits_ofNat _ (by omega), if_neg (by omega)]

/-! ### The rounded quotient -/

/-- Rounding to an integer is monotone in the quotient. -/
theorem divNearestEven_mono {a b c d : Nat} (hb : 0 < b) (hd : 0 < d) (h : a * d ≤ c * b) :
    divNearestEven a b ≤ divNearestEven c d := by
  have ha := Nat.div_add_mod a b
  have hc := Nat.div_add_mod c d
  have hra := Nat.mod_lt a hb
  have hrc := Nat.mod_lt c hd
  have hq : a / b ≤ c / d := by
    rw [Nat.le_div_iff_mul_le hd]
    have : a / b * b ≤ a := Nat.div_mul_le_self a b
    have : a / b * d * b ≤ c * b := by nlinarith
    exact Nat.le_of_mul_le_mul_right this hb
  simp only [divNearestEven]
  generalize a / b = p at *
  generalize c / d = q at *
  generalize a % b = r at *
  generalize c % d = t at *
  rcases Nat.lt_or_ge p q with hlt | hge
  · split_ifs <;> omega
  · obtain rfl : p = q := by omega
    have hr : r * d ≤ t * b := by subst ha hc; nlinarith
    split_ifs with h1 h2 h3 h4 h5 <;> try omega
    · exfalso; nlinarith
    · exfalso; nlinarith
    · exfalso; nlinarith

/-- The error of rounding to an integer is at most one half. -/
theorem divNearestEven_error (a : Nat) {b : Nat} (hb : 0 < b) :
    2 * (divNearestEven a b * b) ≤ 2 * a + b ∧ 2 * a ≤ 2 * (divNearestEven a b * b) + b := by
  have ha := Nat.div_add_mod a b
  have hra := Nat.mod_lt a hb
  simp only [divNearestEven]
  generalize a / b = p at *
  generalize a % b = r at *
  have e1 : (p + 1) * b = b * p + b := by ring
  have e0 : p * b = b * p := by ring
  split_ifs with h1 h2
  · rw [e0]; omega
  · rw [e1]; omega
  · rcases Nat.mod_two_eq_zero_or_one p with h | h <;> rw [h]
    · rw [Nat.add_zero, e0]; omega
    · rw [e1]; omega

/-- The kept significand has at most 53 bits, and its top bit is set where bits were dropped. -/
theorem kept_bounds (num : Nat) {den : Nat} (hd : 0 < den) :
    divNearestEven num (den <<< roundShift (num / den)) ≤ 2 ^ 53 ∧
    (roundShift (num / den) = 0 ∨ 2 ^ 52 ≤ divNearestEven num (den <<< roundShift (num / den))) := by
  have hpos : 0 < den * 2 ^ roundShift (num / den) := Nat.mul_pos hd (by positivity)
  rw [Nat.shiftLeft_eq]
  constructor
  · have h : num / den < 2 ^ (53 + roundShift (num / den)) := by
      rcases Nat.eq_zero_or_pos (num / den) with h0 | h0
      · rw [h0]; positivity
      · exact (Nat.log2_lt (by omega)).1 (by unfold roundShift; omega)
    have h2 : num < 2 ^ 53 * (den * 2 ^ roundShift (num / den)) := by
      have := (Nat.div_lt_iff_lt_mul hd).1 h
      rwa [pow_add, mul_assoc, mul_comm (2 ^ roundShift (num / den)) den] at this
    calc divNearestEven num _ ≤ divNearestEven (2 ^ 53 * (den * 2 ^ roundShift (num / den))) _ :=
          divNearestEven_mono hpos hpos (Nat.mul_le_mul_right _ h2.le)
      _ = 2 ^ 53 := divNearestEven_exact _ _ hpos
  · rcases Nat.eq_zero_or_pos (roundShift (num / den)) with h0 | h0
    · exact Or.inl h0
    · refine Or.inr ?_
      have hq : num / den ≠ 0 := by rintro h; rw [h] at h0; exact absurd h0 (by decide)
      have h : 2 ^ (52 + roundShift (num / den)) ≤ num / den := by
        have := (Nat.log2_eq_iff hq).1 rfl
        have e : 52 + roundShift (num / den) = Nat.log2 (num / den) := by
          unfold roundShift at h0 ⊢; omega
        rw [e]; exact this.1
      have h2 : 2 ^ 52 * (den * 2 ^ roundShift (num / den)) ≤ num := by
        have := (Nat.le_div_iff_mul_le hd).1 h
        rwa [pow_add, mul_assoc, mul_comm (2 ^ roundShift (num / den)) den] at this
      calc 2 ^ 52 = divNearestEven (2 ^ 52 * (den * 2 ^ roundShift (num / den))) _ :=
            (divNearestEven_exact _ _ hpos).symm
        _ ≤ _ := divNearestEven_mono hpos hpos (Nat.mul_le_mul_right _ h2)

/-! ### The rounding function -/

theorem roundMag_le_inf (num den : Nat) : roundMag num den ≤ 0x7FF0000000000000 := min_le_right _ _

/-- Rounding is monotone in the quotient (R12). -/
theorem roundMag_mono {a b c d : Nat} (hb : 0 < b) (hd : 0 < d) (h : a * d ≤ c * b) :
    roundMag a b ≤ roundMag c d := by
  have hq : a / b ≤ c / d := by
    rw [Nat.le_div_iff_mul_le hd]
    have : a / b * b ≤ a := Nat.div_mul_le_self a b
    have : a / b * d * b ≤ c * b := by nlinarith
    exact Nat.le_of_mul_le_mul_right this hb
  have hsh : roundShift (a / b) ≤ roundShift (c / d) := by
    unfold roundShift
    rw [Nat.log2_eq_log_two, Nat.log2_eq_log_two]
    exact Nat.sub_le_sub_right (Nat.log_mono_right hq) _
  refine min_le_min_right _ ?_
  obtain ⟨h1, -⟩ := kept_bounds a hb
  obtain ⟨-, h2⟩ := kept_bounds c hd
  rcases Nat.lt_or_ge (roundShift (a / b)) (roundShift (c / d)) with hlt | hge
  · rcases h2 with h2 | h2
    · omega
    · omega
  · have e : roundShift (c / d) = roundShift (a / b) := by omega
    rw [e]
    refine Nat.add_le_add_right (divNearestEven_mono ?_ ?_ ?_) _
    · rw [Nat.shiftLeft_eq]; positivity
    · rw [Nat.shiftLeft_eq]; positivity
    · rw [Nat.shiftLeft_eq, Nat.shiftLeft_eq, ← mul_assoc, ← mul_assoc]
      exact Nat.mul_le_mul_right _ h

/-- A representable quotient is rounded to itself (R12). -/
theorem roundMag_representable {b num den : Nat} (hb : b < 0x7FF0000000000000) (hd : 0 < den)
    (h : num = magUnits (BitVec.ofNat 64 b) * den) : roundMag num den = b := by
  obtain ⟨k, sh, e, hk, hs, hn, hm⟩ := significand_of_bits b hb.le
  have h1 : roundMag (k * 2 ^ sh) 1 = b := by rw [roundMag_exact k sh hk (by omega) hn, e]
  rw [hm] at h
  rw [← h1]
  exact le_antisymm (roundMag_mono hd one_pos (by rw [h]; ring_nf; exact le_refl _))
    (roundMag_mono one_pos hd (by rw [h]; ring_nf; exact le_refl _))

/-- A quotient at least a representable magnitude stays at least it. -/
theorem le_roundMag {b num den : Nat} (hb : b < 0x7FF0000000000000) (hd : 0 < den)
    (h : magUnits (BitVec.ofNat 64 b) * den ≤ num) : b ≤ roundMag num den := by
  calc b = roundMag (magUnits (BitVec.ofNat 64 b) * den) den := (roundMag_representable hb hd rfl).symm
    _ ≤ _ := roundMag_mono hd hd (Nat.mul_le_mul_right _ h)

/-- A quotient at most a representable magnitude stays at most it. -/
theorem roundMag_le {b num den : Nat} (hb : b < 0x7FF0000000000000) (hd : 0 < den)
    (h : num ≤ magUnits (BitVec.ofNat 64 b) * den) : roundMag num den ≤ b := by
  calc _ ≤ roundMag (magUnits (BitVec.ofNat 64 b) * den) den := roundMag_mono hd hd (Nat.mul_le_mul_right _ h)
    _ = b := roundMag_representable hb hd rfl

/-- Larger bits, larger magnitude, up to infinity. -/
theorem magUnits_mono {a b : Nat} (h : a ≤ b) (hb : b ≤ 0x7FF0000000000000) :
    magUnits (BitVec.ofNat 64 a) ≤ magUnits (BitVec.ofNat 64 b) := by
  obtain ⟨k, sh, e, hk, hs, hn, hm⟩ := significand_of_bits a (by omega)
  obtain ⟨l, th, e', hl, ht, hn', hm'⟩ := significand_of_bits b hb
  rw [hm, hm']
  rcases Nat.lt_or_ge sh th with hlt | hge
  · have hl52 : 2 ^ 52 ≤ l := by omega
    calc k * 2 ^ sh ≤ 2 ^ 53 * 2 ^ sh := Nat.mul_le_mul_right _ hk.le
      _ = 2 ^ 52 * 2 ^ (sh + 1) := by rw [pow_succ]; ring
      _ ≤ 2 ^ 52 * 2 ^ th := Nat.mul_le_mul_left _ (Nat.pow_le_pow_right (by decide) hlt)
      _ ≤ l * 2 ^ th := Nat.mul_le_mul_right _ hl52
  · have : sh = th := by
      rcases hn with hn | hn <;> omega
    subst this
    exact Nat.mul_le_mul_right _ (by omega)

/-- The magnitude of a rounded quotient below overflow. -/
theorem magUnits_roundMag (num : Nat) {den : Nat} (hd : 0 < den)
    (h : roundMag num den < 0x7FF0000000000000) : magUnits (BitVec.ofNat 64 (roundMag num den)) =
      divNearestEven num (den <<< roundShift (num / den)) * 2 ^ roundShift (num / den) := by
  obtain ⟨h1, h2⟩ := kept_bounds num hd
  have e : roundMag num den =
      divNearestEven num (den <<< roundShift (num / den)) + roundShift (num / den) * 2 ^ 52 := by
    unfold roundMag at h ⊢; simp only at h ⊢; omega
  rw [e] at h ⊢
  exact magUnits_significand _ _ h1 (by omega) h2

/-- The relative error of rounding, from above: at most one part in 2^53, and half a unit (R12). -/
theorem magUnits_roundMag_le (num : Nat) {den : Nat} (hd : 0 < den)
    (h : roundMag num den < 0x7FF0000000000000) :
    magUnits (BitVec.ofNat 64 (roundMag num den)) * den * 2 ^ 53 ≤ num * (2 ^ 53 + 1) + den * 2 ^ 52 := by
  rw [magUnits_roundMag num hd h]
  obtain ⟨-, h2⟩ := kept_bounds num hd
  have hpos : 0 < den <<< roundShift (num / den) := by rw [Nat.shiftLeft_eq]; positivity
  have herr := (divNearestEven_error num hpos).1
  generalize hk : divNearestEven num (den <<< roundShift (num / den)) = k at *
  have hshift : roundShift (num / den) = 0 ∨ 2 ^ 52 * (den * 2 ^ roundShift (num / den)) ≤ num := by
    rcases Nat.eq_zero_or_pos (roundShift (num / den)) with h0 | h0
    · exact Or.inl h0
    · refine Or.inr ?_
      have hq : num / den ≠ 0 := by rintro h; rw [h] at h0; exact absurd h0 (by decide)
      have hl := ((Nat.log2_eq_iff hq).1 rfl).1
      have e : 52 + roundShift (num / den) = Nat.log2 (num / den) := by unfold roundShift at h0 ⊢; omega
      rw [← e] at hl
      have := (Nat.le_div_iff_mul_le hd).1 hl
      rwa [pow_add, mul_assoc, mul_comm (2 ^ roundShift (num / den)) den] at this
  generalize roundShift (num / den) = sh at *
  rw [Nat.shiftLeft_eq] at herr
  have e : k * 2 ^ sh * den = k * (den * 2 ^ sh) := by ring
  rw [e]
  rcases hshift with h0 | h0
  · subst h0; simp only [pow_zero, mul_one] at herr ⊢; omega
  · omega

theorem two_mul_midpoint (c e den : Nat) : 2 * (c * 2 ^ e * den) = c * (den <<< (e + 1)) := by
  rw [Nat.shiftLeft_eq, pow_succ]; ring

/-- A kept significand of a value below the midpoint `bound` between the largest and the next binade. -/
theorem kept_lt_of_below_overflow {k D num bound : Nat} (herr : 2 * (k * D) ≤ 2 * num + D)
    (hlt : num < bound) (hb : 2 * bound = (2 ^ 54 - 1) * D) : k < 2 ^ 53 := by
  by_contra hge
  have := Nat.mul_le_mul_right D (not_lt.1 hge)
  norm_num at this hb
  linarith

/-- Rounding overflows exactly from half a unit in the last place above the largest finite value on (R12). -/
theorem roundMag_eq_inf_iff (num : Nat) {den : Nat} (hd : 0 < den) :
    roundMag num den = 0x7FF0000000000000 ↔ (2 ^ 54 - 1) * 2 ^ 2044 * den ≤ num := by
  constructor
  · intro h
    by_contra hlt
    rw [not_le] at hlt
    obtain ⟨h1, -⟩ := kept_bounds num hd
    have hq : num / den < 2 ^ 2098 := by
      refine lt_of_lt_of_le ((Nat.div_lt_iff_lt_mul hd).2 hlt) ?_
      rw [show 2098 = 54 + 2044 by rfl, pow_add]
      exact Nat.mul_le_mul_right _ (by decide)
    have hsh : roundShift (num / den) ≤ 2045 := by
      unfold roundShift
      rcases Nat.eq_zero_or_pos (num / den) with h0 | h0
      · rw [h0]; decide
      · have := (Nat.log2_lt (by omega)).2 hq
        omega
    have hpos : 0 < den <<< roundShift (num / den) := by rw [Nat.shiftLeft_eq]; positivity
    have herr := (divNearestEven_error num hpos).1
    unfold roundMag at h
    simp only at h
    generalize hk : divNearestEven num (den <<< roundShift (num / den)) = k at *
    rcases Nat.lt_or_ge (roundShift (num / den)) 2045 with hs | hs
    · omega
    · have e : roundShift (num / den) = 2045 := by omega
      rw [e] at h herr
      have hk53 : k < 2 ^ 53 := kept_lt_of_below_overflow herr hlt (two_mul_midpoint _ 2044 den)
      clear hlt herr
      omega
  · intro h
    refine le_antisymm (roundMag_le_inf num den) ?_
    calc 0x7FF0000000000000 = roundMag ((2 ^ 54 - 1) * 2 ^ 2044) 1 := by decide +kernel
      _ ≤ roundMag num den := roundMag_mono one_pos hd (by rwa [mul_one])

/-! ### Values by their bits -/

theorem expField_toNat (x : F64) : (expField x).toNat = x.toNat / 2 ^ 52 % 2 ^ 11 := by
  simpa using expField_ofNat x.toNat

theorem fracField_toNat (x : F64) : (fracField x).toNat = x.toNat % 2 ^ 52 := by
  simpa using fracField_ofNat x.toNat

/-- A magnitude has no sign: it is that of the low 63 bits. -/
theorem magUnits_low (x : F64) : magUnits x = magUnits (BitVec.ofNat 64 (x.toNat % 2 ^ 63)) := by
  simp only [magUnits, expField_eq_zero_iff, expField_toNat, fracField_toNat, BitVec.toNat_ofNat]
  rw [show x.toNat % 2 ^ 63 % 2 ^ 64 / 2 ^ 52 % 2 ^ 11 = x.toNat / 2 ^ 52 % 2 ^ 11 by omega,
    show x.toNat % 2 ^ 63 % 2 ^ 64 % 2 ^ 52 = x.toNat % 2 ^ 52 by omega]

theorem isFinite_iff (x : F64) : isFinite x = true ↔ x.toNat % 2 ^ 63 < 0x7FF0000000000000 := by
  have h : expField x = 0x7FF#11 ↔ (expField x).toNat = 2047 :=
    ⟨fun h => by rw [h]; rfl, fun h => BitVec.eq_of_toNat_eq (by simpa using h)⟩
  simp only [isFinite, bne_iff_ne, ne_eq, h, expField_toNat]
  omega

theorem isNaN_eq_false_iff (x : F64) : isNaN x = false ↔ x.toNat % 2 ^ 63 ≤ 0x7FF0000000000000 := by
  have h : expField x = 0x7FF#11 ↔ (expField x).toNat = 2047 :=
    ⟨fun h => by rw [h]; rfl, fun h => BitVec.eq_of_toNat_eq (by simpa using h)⟩
  have h2 : fracField x = 0#52 ↔ (fracField x).toNat = 0 :=
    ⟨fun h => by rw [h]; rfl, fun h => BitVec.eq_of_toNat_eq (by simpa using h)⟩
  rw [← Bool.not_eq_true]
  simp only [isNaN, Bool.and_eq_true, beq_iff_eq, bne_iff_ne, ne_eq, h, h2, expField_toNat, fracField_toNat]
  omega

theorem isNaN_of_isFinite {x : F64} (h : isFinite x = true) : isNaN x = false :=
  (isNaN_eq_false_iff x).2 ((isFinite_iff x).1 h).le

theorem isInf_of_isFinite {x : F64} (h : isFinite x = true) : isInf x = false := by
  simp only [isFinite, bne_iff_ne, ne_eq] at h
  simp [isInf, h]

/-- A number that is not finite has the magnitude of infinity. -/
theorem magUnits_of_not_isFinite {x : F64} (h : isNaN x = false) (hf : isFinite x = false) :
    magUnits x = 2 ^ 2098 := by
  have h1 := (isNaN_eq_false_iff x).1 h
  have h2 : ¬ x.toNat % 2 ^ 63 < 0x7FF0000000000000 := by rw [← isFinite_iff, hf]; simp
  rw [magUnits_low, show x.toNat % 2 ^ 63 = 0x7FF0000000000000 by omega]
  decide +kernel

theorem isFinite_of_magUnits_lt {x : F64} (h : isNaN x = false) (hm : magUnits x < 2 ^ 2098) :
    isFinite x = true := by
  by_contra hf
  rw [magUnits_of_not_isFinite h (by simpa using hf)] at hm
  exact lt_irrefl _ hm

theorem units_of_signBit_false {x : F64} (h : signBit x = false) : units x = (magUnits x : Int) := by
  simp [units, h]

theorem signBit_of_units_pos {x : F64} (h : 0 < units x) : signBit x = false := by
  by_contra hs
  rw [units, if_pos (by simpa using hs)] at h
  omega

theorem fle_PZERO_iff (x : F64) : fle PZERO x = true ↔ isNaN x = false ∧ 0 ≤ units x := by
  rw [fle, show isNaN PZERO = false by decide, show units PZERO = 0 by decide]
  simp

theorem flt_PZERO_iff (x : F64) : flt PZERO x = true ↔ isNaN x = false ∧ 0 < units x := by
  rw [flt, show isNaN PZERO = false by decide, show units PZERO = 0 by decide]
  simp

/-! ### Rounded results -/

@[simp] theorem isNaN_roundRatio (neg : Bool) (num den : Nat) : isNaN (roundRatio neg num den) = false :=
  isNaN_withSign _ _ (roundMag_le_inf num den)

theorem units_roundRatio (neg : Bool) (num den : Nat) : units (roundRatio neg num den) =
    if neg then -(magUnits (BitVec.ofNat 64 (roundMag num den)) : Int)
    else (magUnits (BitVec.ofNat 64 (roundMag num den)) : Int) :=
  units_withSign neg _ (lt_of_le_of_lt (roundMag_le_inf num den) (by decide))

theorem magUnits_roundRatio (neg : Bool) (num den : Nat) :
    magUnits (roundRatio neg num den) = magUnits (BitVec.ofNat 64 (roundMag num den)) :=
  magUnits_withSign neg _

theorem isFinite_roundRatio (neg : Bool) (num den : Nat) :
    isFinite (roundRatio neg num den) = true ↔ roundMag num den < 0x7FF0000000000000 := by
  have h := roundMag_le_inf num den
  rw [isFinite_iff, roundRatio, withSign, BitVec.toNat_ofNat]
  cases neg <;> simp <;> omega

/-- Rounding to infinity (R12). -/
theorem roundRatio_overflow (neg : Bool) (num : Nat) {den : Nat} (hd : 0 < den) :
    (isFinite (roundRatio neg num den) = false ↔ (2 ^ 54 - 1) * 2 ^ 2044 * den ≤ num) ∧
    (isFinite (roundRatio neg num den) = false → roundRatio neg num den = if neg then NINF else PINF) := by
  have hinf : isFinite (roundRatio neg num den) = false ↔ roundMag num den = 0x7FF0000000000000 := by
    have h := roundMag_le_inf num den
    rw [← Bool.not_eq_true, isFinite_roundRatio]
    omega
  refine ⟨hinf.trans (roundMag_eq_inf_iff num hd), fun h => ?_⟩
  rw [roundRatio, hinf.1 h]
  cases neg <;> rfl

/-- An upper bound on the quotient bounds the rounded magnitude. -/
theorem magUnits_roundRatio_le (neg : Bool) {num den : Nat} (y : F64) (hd : 0 < den)
    (hy : isFinite y = true) (h : num ≤ magUnits y * den) :
    isFinite (roundRatio neg num den) = true ∧ magUnits (roundRatio neg num den) ≤ magUnits y := by
  have hb := (isFinite_iff y).1 hy
  rw [magUnits_low] at h
  have hle := roundMag_le hb hd h
  refine ⟨(isFinite_roundRatio neg num den).2 (lt_of_le_of_lt hle hb), ?_⟩
  rw [magUnits_roundRatio, magUnits_low y]
  exact magUnits_mono hle hb.le

/-- A lower bound on the quotient bounds the rounded magnitude. -/
theorem le_magUnits_roundRatio (neg : Bool) {num den : Nat} (y : F64) (hd : 0 < den)
    (hy : isFinite y = true) (h : magUnits y * den ≤ num) :
    magUnits y ≤ magUnits (roundRatio neg num den) := by
  have hb := (isFinite_iff y).1 hy
  rw [magUnits_low] at h
  rw [magUnits_roundRatio, magUnits_low y]
  exact magUnits_mono (le_roundMag hb hd h) (roundMag_le_inf num den)

theorem oneUnits_pos : 0 < oneUnits := by unfold oneUnits; positivity

/-! ### Operations on finite operands -/

/-- A product of finite operands is the rounded exact product (R12). -/
theorem fmul_finite {x y : F64} (hx : isFinite x = true) (hy : isFinite y = true) :
    fmul x y = roundRatio (signBit x != signBit y) (magUnits x * magUnits y) oneUnits := by
  simp [fmul, isNaN_of_isFinite hx, isNaN_of_isFinite hy, isInf_of_isFinite hx, isInf_of_isFinite hy]

/-- A quotient of finite operands by a nonzero one is the rounded exact quotient (R12). -/
theorem fdiv_finite {x y : F64} (hx : isFinite x = true) (hy : isFinite y = true)
    (h0 : magUnits y ≠ 0) :
    fdiv x y = roundRatio (signBit x != signBit y) (magUnits x * oneUnits) (magUnits y) := by
  simp [fdiv, isNaN_of_isFinite hx, isNaN_of_isFinite hy, isInf_of_isFinite hx, isInf_of_isFinite hy, h0]

/-- A sum of finite operands is the rounded exact sum (R12). -/
theorem fadd_finite {x y : F64} (hx : isFinite x = true) (hy : isFinite y = true) :
    fadd x y = roundSum (signBit x && signBit y) (units x + units y) := by
  simp [fadd, isNaN_of_isFinite hx, isNaN_of_isFinite hy, isInf_of_isFinite hx, isInf_of_isFinite hy]

theorem fneg_toNat (x : F64) : (fneg x).toNat % 2 ^ 63 = x.toNat % 2 ^ 63 := by
  rw [fneg, BitVec.toNat_xor, Nat.xor_mod_two_pow, show (0x8000000000000000#64).toNat % 2 ^ 63 = 0 by decide,
    Nat.xor_zero]

@[simp] theorem signBit_fneg (x : F64) : signBit (fneg x) = !signBit x := by
  simp [signBit, fneg]

@[simp] theorem isFinite_fneg (x : F64) : isFinite (fneg x) = isFinite x := by
  rw [Bool.eq_iff_iff, isFinite_iff, isFinite_iff, fneg_toNat]

@[simp] theorem magUnits_fneg (x : F64) : magUnits (fneg x) = magUnits x := by
  rw [magUnits_low, fneg_toNat, ← magUnits_low]

/-- Sign reversal is exact (R12). -/
@[simp] theorem units_fneg (x : F64) : units (fneg x) = -units x := by
  simp only [units, signBit_fneg, magUnits_fneg]
  cases signBit x <;> simp

/-- A difference of finite operands is the rounded exact difference (R12). -/
theorem fsub_finite {x y : F64} (hx : isFinite x = true) (hy : isFinite y = true) :
    fsub x y = roundSum (signBit x && !signBit y) (units x - units y) := by
  rw [fsub, if_neg (by simp [isNaN_of_isFinite hy]), fadd_finite hx (by simpa using hy), signBit_fneg,
    units_fneg, Int.sub_eq_add_neg]

@[simp] theorem isNaN_roundSum (b : Bool) (u : Int) : isNaN (roundSum b u) = false := by
  unfold roundSum
  split
  · cases b <;> decide
  · exact isNaN_roundRatio _ _ _

/-- A sum that is not negative and at most a finite value is finite, not negative and at most that value. -/
theorem roundSum_bounds (b : Bool) {u : Int} (y : F64) (h0 : 0 ≤ u) (hy : isFinite y = true)
    (h : u ≤ (magUnits y : Int)) : isFinite (roundSum b u) = true ∧ 0 ≤ units (roundSum b u) ∧
      units (roundSum b u) ≤ (magUnits y : Int) := by
  unfold roundSum
  split
  · cases b
    · exact ⟨by decide, by decide, by rw [if_neg (by simp), show units PZERO = 0 by decide]; omega⟩
    · exact ⟨by decide, by decide, by rw [if_pos rfl, show units NZERO = 0 by decide]; omega⟩
  · obtain ⟨h1, h2⟩ := magUnits_roundRatio_le (decide (u < 0)) (num := u.natAbs) (den := 1) y one_pos hy
      (by omega)
    rw [decide_eq_false (by omega)] at h1 h2 ⊢
    refine ⟨h1, ?_⟩
    rw [units_roundRatio, if_neg (by simp)]
    rw [magUnits_roundRatio] at h2
    exact ⟨by positivity, by exact_mod_cast h2⟩

end Sys2Proof.Machine
end

