-- ==== Sys2Proof/Laws/PerInstr.lean ====
section
/-!
SUPPORT. The family `TableRow`: the command word of every command is a word of its row of
spec/opcode_table.json, by the row's mask and match.
-/

namespace Sys2Proof.Laws.TableRow

/-- Mask and match of a command's row in spec/opcode_table.json. -/
def row : Instr → CmdWord × CmdWord
  | .nop => (0xFFFFFFFF#32, 0x00000000#32)
  | .setmode _ _ => (0xFFFF00FF#32, 0x00000001#32)
  | .setfreq _ _ => (0xFFFF00FF#32, 0x00000002#32)
  | .setpitch _ _ => (0xFFFF00FF#32, 0x00000003#32)
  | .mute _ => (0xFFFF00FF#32, 0x00000004#32)
  | .unmute _ => (0xFFFF00FF#32, 0x00000005#32)
  | .usenaive _ _ => (0xFFFF00FF#32, 0x00000006#32)
  | .next _ => (0xFFFF00FF#32, 0x00000007#32)
  | .setsr _ => (0xFFFFFFFF#32, 0x00000008#32)
  | .deq => (0xFFFFFFFF#32, 0x00000010#32)
  | .tick => (0xFFFFFFFF#32, 0x00000011#32)
  | .noteheld _ => (0xFFFF00FF#32, 0x00000012#32)
  | .getfreq => (0xFFFFFFFF#32, 0x00000013#32)
  | .getvel => (0xFFFFFFFF#32, 0x00000014#32)
  | .getbend => (0xFFFFFFFF#32, 0x00000015#32)
  | .getnote => (0xFFFFFFFF#32, 0x00000016#32)
  | .runperiod _ => (0xFFFFFFFF#32, 0x00000020#32)
  | .rdreg _ _ => (0xFF0000FF#32, 0x00000030#32)
  | .wrcsr _ _ => (0xFF00FFFF#32, 0x00000031#32)
  | .penq _ _ _ => (0xFFFFFFFF#32, 0x00000001#32)
  | .prawin _ => (0xFFFFFFFF#32, 0x00000002#32)

/-- The command word of `i`, under the mask of its row, is the row's match. -/
def Statement (i : Instr) : Prop := cmdOf i &&& (row i).1 = (row i).2

/-- A word assembled from bytes, under a mask of whole bytes that keeps the opcode, is the match assembled
from the bytes the mask keeps. -/
theorem masked (sel idx opc ms mi : BitVec 8) :
    commandWord sel idx opc &&& (0xFF#8 ++ ms ++ mi ++ 0xFF#8) =
      commandWord (sel &&& ms) (idx &&& mi) opc := by
  show (0#8 ++ sel ++ idx ++ opc) &&& (0xFF#8 ++ ms ++ mi ++ 0xFF#8)
    = 0#8 ++ (sel &&& ms) ++ (idx &&& mi) ++ opc
  rw [BitVec.and_append, BitVec.and_append, BitVec.and_append]
  congr 1
  exact BitVec.and_allOnes

theorem nop : Statement (.nop) := rfl
theorem setmode (o : BitVec 8) (m : Mode) : Statement (.setmode o m) := (masked 0#8 o 0x01#8 0xFF#8 0x00#8).trans (by simp; rfl)
theorem setfreq (o : BitVec 8) (x : F64) : Statement (.setfreq o x) := (masked 0#8 o 0x02#8 0xFF#8 0x00#8).trans (by simp; rfl)
theorem setpitch (o : BitVec 8) (x : F64) : Statement (.setpitch o x) := (masked 0#8 o 0x03#8 0xFF#8 0x00#8).trans (by simp; rfl)
theorem mute (o : BitVec 8) : Statement (.mute o) := (masked 0#8 o 0x04#8 0xFF#8 0x00#8).trans (by simp; rfl)
theorem unmute (o : BitVec 8) : Statement (.unmute o) := (masked 0#8 o 0x05#8 0xFF#8 0x00#8).trans (by simp; rfl)
theorem usenaive (o : BitVec 8) (b : Bool) : Statement (.usenaive o b) := (masked 0#8 o 0x06#8 0xFF#8 0x00#8).trans (by simp; rfl)
theorem next (o : BitVec 8) : Statement (.next o) := (masked 0#8 o 0x07#8 0xFF#8 0x00#8).trans (by simp; rfl)
theorem setsr (x : F64) : Statement (.setsr x) :=
  (show commandWord 0#8 0#8 0x08#8 &&& 0xFFFFFFFF#32 = 0x00000008#32 by decide)
theorem deq : Statement (.deq) := rfl
theorem tick : Statement (.tick) := rfl
theorem noteheld (n : BitVec 8) : Statement (.noteheld n) := (masked 0#8 n 0x12#8 0xFF#8 0x00#8).trans (by simp; rfl)
theorem getfreq : Statement (.getfreq) := rfl
theorem getvel : Statement (.getvel) := rfl
theorem getbend : Statement (.getbend) := rfl
theorem getnote : Statement (.getnote) := rfl
theorem runperiod (n : BitVec 32) : Statement (.runperiod n) :=
  (show commandWord 0#8 0#8 0x20#8 &&& 0xFFFFFFFF#32 = 0x00000020#32 by decide)
theorem rdreg (sel : BitVec 8) (o : BitVec 8) : Statement (.rdreg sel o) := (masked sel o 0x30#8 0x00#8 0x00#8).trans (by simp; rfl)
theorem wrcsr (sel : BitVec 8) (v : BitVec 64) : Statement (.wrcsr sel v) := (masked sel 0#8 0x31#8 0x00#8 0xFF#8).trans (by simp; rfl)
theorem penq (tag : BitVec 3) (key : BitVec 7) (x : F64) : Statement (.penq tag key x) :=
  (show commandWord 0#8 0#8 0x01#8 &&& 0xFFFFFFFF#32 = 0x00000001#32 by decide)
theorem prawin (r : RawRecord) : Statement (.prawin r) :=
  (show commandWord 0#8 0#8 0x02#8 &&& 0xFFFFFFFF#32 = 0x00000002#32 by decide)

end Sys2Proof.Laws.TableRow
end

