-- ==== Sys2Proof/Laws/Phase.lean ====
section
/-!
SUPPORT. What the phase advance of R150 does to a phase and an increment in their ranges (R28, R29, R152).
-/

namespace Sys2Proof.Machine

theorem le_of_fle {x y : F64} (h : fle x y = true) :
    isNaN x = false ∧ isNaN y = false ∧ units x ≤ units y := by
  simp only [fle, Bool.and_eq_true, Bool.not_eq_true', decide_eq_true_eq] at h
  exact ⟨h.1.1, h.1.2, h.2⟩

theorem lt_of_flt {x y : F64} (h : flt x y = true) :
    isNaN x = false ∧ isNaN y = false ∧ units x < units y := by
  simp only [flt, Bool.and_eq_true, Bool.not_eq_true', decide_eq_true_eq] at h
  exact ⟨h.1.1, h.1.2, h.2⟩

/-- The wrap loop ends at once below `TWO_PI`. -/
theorem wrapPhase_done {x : F64} (h : fge x TWO_PI = false) : wrapPhase wrapFuel x = some x := by
  rw [show wrapFuel = (2 ^ 64 - 1) + 1 by decide, wrapPhase, h]
  rfl

/-- The wrap loop takes one round where one subtraction leaves a value below `TWO_PI`. -/
theorem wrapPhase_once {x : F64} (h : fge x TWO_PI = true) (h' : fge (fsub x TWO_PI) TWO_PI = false) :
    wrapPhase wrapFuel x = some (fsub x TWO_PI) := by
  rw [show wrapFuel = (2 ^ 64 - 2) + 1 + 1 by decide, wrapPhase, if_pos h, wrapPhase,
    if_neg (by simp [h'])]

/-- A number from 0 to below 10.0 is finite. -/
theorem isFinite_of_small {x : F64} (hn : isNaN x = false) (h0 : 0 ≤ units x)
    (h : units x < 10 * (oneUnits : Int)) : isFinite x = true := by
  apply isFinite_of_magUnits_lt hn
  have c : 10 * oneUnits < 2 ^ 2098 := by decide +kernel
  have hm : (magUnits x : Int) = units x := by
    clear h c
    rw [units] at h0 ⊢
    cases hs : signBit x
    · rfl
    · rw [hs] at h0; simp only [if_true] at h0 ⊢; omega
  exact lt_trans (by rw [← hm] at h; exact_mod_cast h) c

/-- The new phase: at most one subtraction, and in range again (R150, R152). -/
theorem advancePhase_inRange {v : Osc} (hp : phaseInRange v) (hi : incInRange v) :
    ∃ p, advancePhase v.phase v.inc = some p ∧
      p = (if fge (fadd v.phase v.inc) TWO_PI then fsub (fadd v.phase v.inc) TWO_PI
        else fadd v.phase v.inc) ∧
      fle PZERO p = true ∧ flt p TWO_PI = true := by
  obtain ⟨p1, p2⟩ := hp
  obtain ⟨i1, i2⟩ := hi
  obtain ⟨pn, p0⟩ := (fle_PZERO_iff _).1 p1
  obtain ⟨inn, i0⟩ := (fle_PZERO_iff _).1 i1
  obtain ⟨-, -, p3⟩ := lt_of_flt p2
  have c1 : units TWO_PI * 10 < 63 * (oneUnits : Int) := by decide +kernel
  have c1' : 62 * (oneUnits : Int) < units TWO_PI * 10 := by decide +kernel
  have c2 : (magUnits 0x4024000000000000#64 : Int) = 10 * (oneUnits : Int) := by decide +kernel
  have c3 : (magUnits 0x4010000000000000#64 : Int) = 4 * (oneUnits : Int) := by decide +kernel
  have ct : units (fneg TWO_PI) = -units TWO_PI ∧ isFinite (fneg TWO_PI) = true := by decide +kernel
  have cn : isNaN TWO_PI = false := by decide
  have ho : (0 : Int) < oneUnits := by exact_mod_cast oneUnits_pos
  have hadd := fadd_finite (isFinite_of_small pn p0 (by linarith)) (isFinite_of_small inn i0 (by linarith))
  obtain ⟨s1, s2, s3⟩ := roundSum_bounds (signBit v.phase && signBit v.inc)
    (u := units v.phase + units v.inc) 0x4024000000000000#64 (by linarith) (by decide)
    (by rw [c2]; linarith)
  have snan := isNaN_roundSum (signBit v.phase && signBit v.inc) (units v.phase + units v.inc)
  rw [← hadd] at s1 s2 s3 snan
  unfold advancePhase
  generalize fadd v.phase v.inc = x at *
  rw [c2] at s3
  cases hx : fge x TWO_PI with
  | false =>
    have hlt : units x < units TWO_PI := by
      rw [fge, fle, cn, snan] at hx; simpa using hx
    exact ⟨x, wrapPhase_done hx, by simp, (fle_PZERO_iff _).2 ⟨snan, s2⟩, by
      rw [flt, snan, cn]; simpa using hlt⟩
  | true =>
    have hge : units TWO_PI ≤ units x := (le_of_fle hx).2.2
    have hsub : fsub x TWO_PI
        = roundSum (signBit x && signBit (fneg TWO_PI)) (units x - units TWO_PI) := by
      rw [fsub, if_neg (by decide), fadd_finite s1 ct.2, ct.1]; rfl
    obtain ⟨-, r2, r3⟩ := roundSum_bounds (signBit x && signBit (fneg TWO_PI))
      (u := units x - units TWO_PI) 0x4010000000000000#64 (by linarith) (by decide)
      (by rw [c3]; linarith)
    have rnan := isNaN_roundSum (signBit x && signBit (fneg TWO_PI)) (units x - units TWO_PI)
    rw [← hsub] at r2 r3 rnan
    rw [c3] at r3
    have hlt : units (fsub x TWO_PI) < units TWO_PI := by linarith
    exact ⟨fsub x TWO_PI, wrapPhase_once hx (by rw [fge, fle, rnan, cn]; simpa using hlt), by simp,
      (fle_PZERO_iff _).2 ⟨rnan, r2⟩, by rw [flt, rnan, cn]; simpa using hlt⟩

end Sys2Proof.Machine
end

