-- ==== Sys2Proof/Tests/Slice0.lean ====
section
/-!
SUPPORT. Tests on fixed words and values, and a witness for the hypotheses of every statement. The expected
value of a test comes from the spec: each names its vector of spec/95_test_vectors.md, or the rule it was
worked out from.
-/

namespace Sys2Proof.Tests

-- One theorem at a time: each pending evaluation holds a thread with a large stack.
set_option Elab.async false

open Sys2Proof.Machine

/-! ### Small states and readings of one step -/

/-- The state of an outcome, if there is one. -/
def stateOf : Host.Outcome State Fault Refusal → Option State
  | .next t => some t
  | .fault _ => none
  | .refused _ => none

/-- The outcome is a next state. -/
def completes (o : Host.Outcome State Fault Refusal) : Bool := (stateOf o).isSome

theorem next_of_completes {o : Host.Outcome State Fault Refusal} (h : completes o = true) :
    ∃ t, o = .next t := by
  cases o with
  | next t => exact ⟨t, rfl⟩
  | fault _ => cases h
  | refused _ => cases h

theorem next_reads {α : Type} {o : Host.Outcome State Fault Refusal} (f : State → α) {x : α}
    (h : (stateOf o).map f = some x) : ∃ t, o = .next t ∧ f t = x := by
  cases o with
  | next t => exact ⟨t, rfl, Option.some.inj h⟩
  | fault _ => cases h
  | refused _ => cases h

/-- `s` with one host transaction presented and `HOST` next. -/
def givenHost (cmd : CmdWord) (opnd : Wide) (s : State) : State :=
  { s with sched := [.host], hostPort := [⟨cmd, opnd⟩] }

/-- `s` with one producer transaction presented and `PROD` next. -/
def givenProducer (cmd : CmdWord) (opnd : Wide) (s : State) : State :=
  { s with sched := [.producer], prodPort := [⟨cmd, opnd⟩] }

/-- What is read of the state one host transaction leaves. -/
def afterHost {α : Type} (read : State → α) (cmd : CmdWord) (opnd : Wide) (s : State) : Option α :=
  (stateOf (step (givenHost cmd opnd s))).map read

/-- What is read of the state one producer transaction leaves. -/
def afterProducer {α : Type} (read : State → α) (cmd : CmdWord) (opnd : Wide) (s : State) : Option α :=
  (stateOf (step (givenProducer cmd opnd s))).map read

/-- `RESP` and `RES` of one host transaction. -/
def answer (cmd : CmdWord) (opnd : Wide) (s : State) : Option HostResponse :=
  (afterHost (·.hostResp) cmd opnd s).bind id

/-- `RESP` of one producer transaction. -/
def producerAnswer (cmd : CmdWord) (opnd : Wide) (s : State) : Option Resp :=
  (afterProducer (·.prodResp) cmd opnd s).bind id

/-- The answer `OK` with a result. -/
def okWith (res : Wide) : Option HostResponse := some ⟨.ok, res⟩

/-- The reset state with an event visible in the FIFO. -/
def withEvent (e : EventWord) : State := { State.reset with qe := [e], wvis := 1 }

/-- The reset state with oscillator 0 changed. -/
def withOsc (f : Osc → Osc) : State := { State.reset with osc := ⟨f Osc.reset, []⟩ }

/-- The reset state with `n` words queued, all visible. -/
def withQueue (n : Nat) : State := { State.reset with qe := List.replicate n 0x3#128, wvis := n }

/-- The reset state in the middle of a period. -/
def inPeriod (q : Seq) : State := { State.reset with seq := q, sched := [.host] }

/-! ### WellFormed refuses (R103, R106) -/

theorem test_wf_reserved_selector : Instr.wellFormed (.rdreg 0x08#8 0#8) = false := by decide
theorem test_wf_selector_above : Instr.wellFormed (.rdreg 0x17#8 0#8) = false := by decide
theorem test_wf_selector_gap : Instr.wellFormed (.rdreg 0x0D#8 0#8) = false := by decide
theorem test_wf_global_with_idx : Instr.wellFormed (.rdreg 0x0C#8 1#8) = false := by decide
theorem test_wf_osc_with_idx : Instr.wellFormed (.rdreg 0x10#8 1#8) = true := by decide
theorem test_wf_wrcsr_sr : Instr.wellFormed (.wrcsr 0x00#8 0#64) = false := by decide
theorem test_wf_wrcsr_fifo_level : Instr.wellFormed (.wrcsr 0x04#8 0#64) = false := by decide
theorem test_wf_wrcsr_drops : Instr.wellFormed (.wrcsr 0x03#8 0#64) = true := by decide

/-! ### Words decode to the commands they stand for

`CMD = {reserved, SEL, IDX, OPC}`, eight bits each (R92, R97); `PCMD = {reserved, POPC}` (R95, R98); the
operand bits by R104 and R105. -/

theorem test_decode_nop :
    decodeHost ⟨0b00000000#8 ++ 0b00000000#8 ++ 0b00000000#8 ++ 0b00000000#8, 0#128⟩ = .ok .nop := by decide
theorem test_decode_setmode :
    decodeHost ⟨0b00000000#8 ++ 0b00000000#8 ++ 0b00000101#8 ++ 0b00000001#8, 0b111#128⟩
      = .ok (.setmode 5#8 .triangle) := by decide
theorem test_decode_setmode_saw :
    decodeHost ⟨0b00000000#8 ++ 0b00000000#8 ++ 0b10000000#8 ++ 0b00000001#8, 0b101#128⟩
      = .ok (.setmode 128#8 .saw) := by decide
theorem test_decode_setfreq :
    decodeHost ⟨0b00000000#8 ++ 0b00000000#8 ++ 0b00000010#8 ++ 0b00000010#8,
      0xFFFFFFFFFFFFFFFF408F400000000001#128⟩ = .ok (.setfreq 2#8 0x408F400000000001#64) := by decide
theorem test_decode_setpitch :
    decodeHost ⟨0b00000000#8 ++ 0b00000000#8 ++ 0b00000001#8 ++ 0b00000011#8, 0xBFE0000000000000#128⟩
      = .ok (.setpitch 1#8 0xBFE0000000000000#64) := by decide
theorem test_decode_mute :
    decodeHost ⟨0b00000000#8 ++ 0b00000000#8 ++ 0b11111111#8 ++ 0b00000100#8, 0#128⟩
      = .ok (.mute 255#8) := by decide
theorem test_decode_unmute :
    decodeHost ⟨0b00000000#8 ++ 0b00000000#8 ++ 0b00000001#8 ++ 0b00000101#8, 0#128⟩
      = .ok (.unmute 1#8) := by decide
theorem test_decode_usenaive :
    decodeHost ⟨0b00000000#8 ++ 0b00000000#8 ++ 0b00000011#8 ++ 0b00000110#8, 0b10#128⟩
      = .ok (.usenaive 3#8 false) := by decide
theorem test_decode_next :
    decodeHost ⟨0b00000000#8 ++ 0b00000000#8 ++ 0b00000001#8 ++ 0b00000111#8, 0#128⟩
      = .ok (.next 1#8) := by decide
theorem test_decode_setsr :
    decodeHost ⟨0b00000000#8 ++ 0b00000000#8 ++ 0b00000000#8 ++ 0b00001000#8, 0x40E7700000000000#128⟩
      = .ok (.setsr 0x40E7700000000000#64) := by decide
theorem test_decode_deq :
    decodeHost ⟨0b00000000#8 ++ 0b00000000#8 ++ 0b00000000#8 ++ 0b00010000#8, 0#128⟩ = .ok .deq := by decide
theorem test_decode_tick :
    decodeHost ⟨0b00000000#8 ++ 0b00000000#8 ++ 0b00000000#8 ++ 0b00010001#8, 0#128⟩ = .ok .tick := by decide
theorem test_decode_noteheld :
    decodeHost ⟨0b00000000#8 ++ 0b00000000#8 ++ 0b01000101#8 ++ 0b00010010#8, 0#128⟩
      = .ok (.noteheld 69#8) := by decide
theorem test_decode_getfreq :
    decodeHost ⟨0b00000000#8 ++ 0b00000000#8 ++ 0b00000000#8 ++ 0b00010011#8, 0#128⟩
      = .ok .getfreq := by decide
theorem test_decode_getvel :
    decodeHost ⟨0b00000000#8 ++ 0b00000000#8 ++ 0b00000000#8 ++ 0b00010100#8, 0#128⟩ = .ok .getvel := by decide
theorem test_decode_getbend :
    decodeHost ⟨0b00000000#8 ++ 0b00000000#8 ++ 0b00000000#8 ++ 0b00010101#8, 0#128⟩
      = .ok .getbend := by decide
theorem test_decode_getnote :
    decodeHost ⟨0b00000000#8 ++ 0b00000000#8 ++ 0b00000000#8 ++ 0b00010110#8, 0#128⟩
      = .ok .getnote := by decide
theorem test_decode_runperiod :
    decodeHost ⟨0b00000000#8 ++ 0b00000000#8 ++ 0b00000000#8 ++ 0b00100000#8, 0x100000003#128⟩
      = .ok (.runperiod 3#32) := by decide
theorem test_decode_rdreg :
    decodeHost ⟨0b00000000#8 ++ 0b00010100#8 ++ 0b00000010#8 ++ 0b00110000#8, 0#128⟩
      = .ok (.rdreg 0x14#8 2#8) := by decide
theorem test_decode_wrcsr :
    decodeHost ⟨0b00000000#8 ++ 0b00000010#8 ++ 0b00000000#8 ++ 0b00110001#8, 0x1F#128⟩
      = .ok (.wrcsr 0x02#8 0x1F#64) := by decide
theorem test_decode_penq :
    decodeProducer ⟨0b000000000000000000000000#24 ++ 0b00000001#8,
      0x3FE0000000000000#64 ++ 0b0000000000000000000000000000000000000000000000000#49 ++ 0b0111100#7
        ++ 0b00000#5 ++ 0b001#3⟩ = .ok (.penq 1#3 60#7 0x3FE0000000000000#64) := by decide
theorem test_decode_prawin :
    decodeProducer ⟨0b000000000000000000000000#24 ++ 0b00000010#8, 0x10000000000407B03#128⟩
      = .ok (.prawin 0x407B03#64) := by decide

/-! ### Words that are no commands, each by its name (R265 steps 1 to 4, R266) -/

theorem test_decode_reserved_opcodes :
    decodeHost ⟨0x00000009#32, 0#128⟩ = .error .reservedOpcode ∧
    decodeHost ⟨0x00000021#32, 0#128⟩ = .error .reservedOpcode ∧
    decodeHost ⟨0x000000FF#32, 0#128⟩ = .error .reservedOpcode := by decide
theorem test_decode_reserved_bits_first : decodeHost ⟨0x01000107#32, 0#128⟩ = .error .reservedBits := by decide
theorem test_decode_unused_idx :
    decodeHost ⟨0x00000100#32, 0#128⟩ = .error .unusedIdx ∧
    decodeHost ⟨0x00010131#32, 0#128⟩ = .error .unusedIdx ∧
    decodeHost ⟨0x00000108#32, 0#128⟩ = .error .unusedIdx := by decide
theorem test_decode_unused_sel :
    decodeHost ⟨0x00010000#32, 0#128⟩ = .error .unusedSel ∧
    decodeHost ⟨0x00010001#32, 0#128⟩ = .error .unusedSel := by decide
theorem test_decode_producer_rejects :
    decodeProducer ⟨0x00000100#32, 0#128⟩ = .error .reservedOpcode ∧
    decodeProducer ⟨0x00000101#32, 0#128⟩ = .error .reservedBits ∧
    decodeProducer ⟨0x80000002#32, 0#128⟩ = .error .reservedBits ∧
    decodeProducer ⟨0x00000003#32, 0#128⟩ = .error .reservedOpcode := by decide

/-! ### Serialised transactions and table words -/

/-- R78: little-endian, the command word `0x00140030` and the operand's first and last bytes. -/
theorem test_bytes_little_endian :
    (bytesOfRequest ⟨0x00140030#32, 0xAB0000000000000000000000000000CD#128⟩).take 5
      = [0x30#8, 0x00#8, 0x14#8, 0x00#8, 0xCD#8] ∧
    (bytesOfRequest ⟨0x00140030#32, 0xAB0000000000000000000000000000CD#128⟩)[19]? = some 0xAB#8 := by
  decide +kernel
theorem test_bytes_truncated : decodeBytes .host (List.replicate 19 0#8) = .error .truncated := by decide
theorem test_bytes_nop_and_rest :
    decodeBytes .host (List.replicate 20 0#8 ++ [7#8]) = .ok (.nop, [7#8]) := by decide +kernel
theorem test_table_word_with_operand :
    decodeTableWord 160 (0x408F400000000000 * 2 ^ 32 + 0x00000002)
      = some (.setfreq 0#8 0x408F400000000000#64) := by decide +kernel
theorem test_table_word_producer :
    decodeTableWord 168 (2 ^ 160 + 0x7F4501 * 2 ^ 32 + 0x00000002) = some (.prawin 0x7F4501#64) := by
  decide +kernel
theorem test_table_word_reserved : decodeTableWord 32 0x00000009 = none := by decide +kernel

/-! ### Numerics -/

/-- R12: ties to even at the last bit of a significand. -/
theorem test_add_ties_to_even :
    fadd 0x4340000000000000#64 0x3FF0000000000000#64 = 0x4340000000000000#64 ∧
    fadd 0x4340000000000001#64 0x3FF0000000000000#64 = 0x4340000000000002#64 := by decide +kernel
/-- R12: subnormals are kept, and a product too large is infinite. -/
theorem test_mul_ends_of_the_range :
    fmul 0x0010000000000000#64 HALF = 0x0008000000000000#64 ∧
    fmul 0x7FE0000000000000#64 TWO = PINF ∧ fmul 0x0000000000000001#64 HALF = PZERO := by decide +kernel
/-- R12: the sign of an exact zero. -/
theorem test_zero_signs : fsub ONE ONE = PZERO ∧ fadd NZERO NZERO = NZERO ∧ fadd NZERO PZERO = PZERO := by
  decide +kernel
/-- R13: comparisons with a NaN are false; the two zeros are equal. -/
theorem test_compare_nan_and_zero :
    fle CNAN CNAN = false ∧ flt CNAN ONE = false ∧ feq NZERO PZERO = true ∧ flt NZERO PZERO = false := by decide
/-- V-NUM-2. -/
theorem test_normalised :
    normalised7 64#7 = 0x3FE0204081020408#64 ∧ normalisedBend 8192#32 = 0x3FF0000000000000#64 ∧
    normalisedBend 0x7FFFFFFF#32 = 0x410FFFFFFFC00000#64 ∧
    normalisedBend 0x80000000#32 = 0xC110000000000000#64 := by decide +kernel
/-- V-NUM-1: `DEVIATION(2.0)`, exact under every configuration. -/
theorem test_deviation_two : deviation 0x4000000000000000#64 = 0x41AFFFFFFE000000#64 := by
  have h : Config.EXP2 (ofInt 28) = pow2 28 := (@Config.exp2Param ⟨Config.someExp2⟩).exact 28 (by decide) (by decide)
  have e : deviation 0x4000000000000000#64 = fsub (Config.EXP2 (ofInt 28)) ONE := by
    have h1 : fmul (fabs 0x4000000000000000#64) FOURTEEN = ofInt 28 := by decide +kernel
    rw [deviation, if_neg (by decide), if_neg (by decide)]
    simp only [h1]
    rw [if_pos (by decide)]
  rw [e, h]
  decide +kernel
/-- V-OSC-2, every row at pitch 0: the increment at 44100 Hz. -/
theorem test_increment_table :
    incrementOf SR_RESET 0x408F400000000000#64 PZERO = 0x3FC23CA61DCC76A2#64 ∧
    incrementOf SR_RESET 0x40C5888000000000#64 PZERO = 0x3FF921FB54442D18#64 ∧
    incrementOf SR_RESET 0x40DD4C0000000000#64 PZERO = 0x400921FB54442D18#64 ∧
    incrementOf SR_RESET PINF PZERO = 0x400921FB54442D18#64 ∧
    incrementOf SR_RESET 0xC014000000000000#64 PZERO = PZERO ∧
    incrementOf SR_RESET CNAN PZERO = PZERO := by decide +kernel
/-- V-BLEP-2, 3, 6, 7, 8, 9. -/
theorem test_blep_table :
    blep 0x3F87384EF2A605CD#64 0x3F97384EF2A605CD#64 = 0xBFD0000000000000#64 ∧
    blep 0x3F97384EF2A605CC#64 0x3F97384EF2A605CD#64 = PZERO ∧
    blep 0x3FEF463D886ACFD2#64 0x3F97384EF2A605CD#64 = PZERO ∧
    blep 0x3FEF463D886ACFD3#64 0x3F97384EF2A605CD#64 = PZERO ∧
    blep 0x3FEFA31EC43567E9#64 0x3F97384EF2A605CD#64 = 0x3FD0000000000012#64 ∧
    blep 0x3FEFFFFDE7210BE9#64 0x3F97384EF2A605CD#64 = 0x3FEFFF4709079898#64 := by decide +kernel

/-! ### One step of each command -/

/-- V-SYS-1. -/
theorem test_nop : answer 0x00000000#32 0#128 State.reset = okWith 0#128 := by decide +kernel
/-- V-OSC-4: only `OPND[1:0]` is read. -/
theorem test_setmode : afterHost (·.osc.first.mode) 0x00000001#32 0x7#128 State.reset = some .triangle := by
  decide +kernel
/-- V-OSC-17: a mode switch keeps `LAST`. -/
theorem test_setmode_keeps_last :
    afterHost (·.osc.first.last) 0x00000001#32 1#128 (withOsc fun v => { v with last := ONE }) = some ONE := by
  decide +kernel
/-- V-OSC-3: a NaN frequency is stored as it is and its increment is `+0.0`. -/
theorem test_setfreq_nan :
    afterHost (fun t => (t.osc.first.freq, t.osc.first.inc)) 0x00000002#32 0x7FF8000000000000#128 State.reset
      = some (CNAN, PZERO) := by decide +kernel
/-- P6: `SETFREQ` computes under the new rate and clears `STALE`. -/
theorem test_setfreq_new_rate :
    afterHost (fun t => (t.osc.first.inc, t.osc.first.stale)) 0x00000002#32 0x407B800000000000#128
      { withOsc (fun v => { v with stale := true }) with sr := 0x40E7700000000000#64 }
      = some (0x3FAD7D348BD51D05#64, false) := by decide +kernel
/-- W-7, step 6: `SETPITCH 0, 0.5` at 440 Hz, exact because `EXP2(7)` is. -/
theorem test_setpitch_half :
    afterHost (·.osc.first.inc) 0x00000003#32 0x3FE0000000000000#128 State.reset
      = some 0x3FB4AE3F72B00DB3#64 := by
  have h : Config.EXP2 (ofInt 7) = pow2 7 := (@Config.exp2Param ⟨Config.someExp2⟩).exact 7 (by decide) (by decide)
  have e : deviation HALF = fsub (Config.EXP2 (ofInt 7)) ONE := by
    have h1 : fmul (fabs HALF) FOURTEEN = ofInt 7 := by decide +kernel
    rw [deviation, if_neg (by decide), if_neg (by decide)]
    simp only [h1]
    rw [if_pos (by decide)]
  have hd : fadd A4_HZ (deviation HALF) = 0x4081B80000000000#64 := by rw [e, h]; decide +kernel
  have hi : incrementOf SR_RESET A4_HZ HALF = 0x3FB4AE3F72B00DB3#64 := by
    simp only [incrementOf, effectiveFreq, hd]; decide +kernel
  have hs : afterHost (·.osc.first.inc) 0x00000003#32 0x3FE0000000000000#128 State.reset
      = some (incrementOf SR_RESET A4_HZ HALF) := rfl
  rw [hs, hi]
/-- W-7, step 7: the phase does not move. -/
theorem test_setpitch_keeps_phase :
    afterHost (·.osc.first.phase) 0x00000003#32 0x3FE0000000000000#128
      (withOsc fun v => { v with phase := 0x3FB00C6938F15E29#64 }) = some 0x3FB00C6938F15E29#64 := by
  decide +kernel
/-- V-OSC-5. -/
theorem test_mute : afterHost (fun t => oscFlags t.osc.first) 0x00000004#32 0#128 State.reset = some 1#3 := by
  decide +kernel
/-- V-OSC-5. -/
theorem test_unmute :
    afterHost (fun t => oscFlags t.osc.first) 0x00000005#32 0#128 (withOsc fun v => { v with muted := true })
      = some 0#3 := by decide +kernel
/-- V-OSC-6: `OPND = 1` sets `NAIVE`, `OPND = 2` clears it. -/
theorem test_usenaive :
    afterHost (fun t => oscFlags t.osc.first) 0x00000006#32 1#128 State.reset = some 2#3 ∧
    afterHost (fun t => oscFlags t.osc.first) 0x00000006#32 2#128 (withOsc fun v => { v with naive := true })
      = some 0#3 := by decide +kernel
/-- V-OSC-8: the first sample after reset. -/
theorem test_next_after_reset :
    answer 0x00000007#32 0#128 State.reset = okWith 0#128 ∧
    afterHost (·.osc.first.phase) 0x00000007#32 0#128 State.reset = some 0x3FB00C6938F15E29#64 := by
  decide +kernel
/-- V-OSC-17, third sample, and V-OSC-10, fourth: the triangle's integrator and the phase wrap. -/
theorem test_next_triangle_and_wrap :
    afterHost (·.osc.first.last) 0x00000007#32 0#128
      (withOsc fun v => { v with
        mode := .triangle, inc := 0x3FC23CA61DCC76A2#64, phase := 0x3FD23CA61DCC76A2#64
        last := 0x3FC23CA61DCC76A2#64 }) = some 0x3FD0F0106351F373#64 ∧
    afterHost (·.osc.first.phase) 0x00000007#32 0#128
      (withOsc fun v => { v with mode := .saw, inc := 0x3FF921FB54442D18#64, phase := 0x4012D97C7F3321D2#64 })
      = some 0#64 ∧
    answer 0x00000007#32 0#128
      (withOsc fun v => { v with mode := .saw, inc := 0x3FF921FB54442D18#64, phase := 0x4012D97C7F3321D2#64 })
      = okWith 0x3FE0000000000000#128 := by decide +kernel
/-- V-OSC-7: an accepted rate marks the instance stale and keeps its increment. -/
theorem test_setsr :
    afterHost (fun t => (t.sr, oscFlags t.osc.first, statusWord t, t.osc.first.inc)) 0x00000008#32
      0x40E7700000000000#128 State.reset
      = some (0x40E7700000000000#64, 4#3, 0x500#64, 0x3FB00C6938F15E29#64) := by decide +kernel
/-- V-ERR-2: the two ends of the range and the values just outside them, a NaN, an infinity and zero. -/
theorem test_setsr_range :
    answer 0x00000008#32 0x3FF0000000000000#128 State.reset = okWith 0#128 ∧
    answer 0x00000008#32 0x3FEFFFFFFFFFFFFF#128 State.reset = some ⟨.badValue, 0#128⟩ ∧
    answer 0x00000008#32 0x41F0000000000000#128 State.reset = okWith 0#128 ∧
    answer 0x00000008#32 0x41F0000000100000#128 State.reset = some ⟨.badValue, 0#128⟩ ∧
    answer 0x00000008#32 0x7FF8000000000000#128 State.reset = some ⟨.badValue, 0#128⟩ ∧
    answer 0x00000008#32 0x7FF0000000000000#128 State.reset = some ⟨.badValue, 0#128⟩ ∧
    answer 0x00000008#32 0xC0E5888000000000#128 State.reset = some ⟨.badValue, 0#128⟩ ∧
    afterHost (·.errInfo) 0x00000008#32 0#128 State.reset = some 0x300000008#64 := by decide +kernel
/-- P7: `DEQ` answers the oldest visible word and frees its slot. -/
theorem test_deq :
    answer 0x00000010#32 0#128 (withEvent 0x3C02#128) = okWith 0x3C02#128 ∧
    afterHost (fun t => (t.qe, t.wvis, t.rfree, t.held)) 0x00000010#32 0#128 (withEvent 0x3C02#128)
      = some ([], 0, 1, 0#128) := by decide +kernel
/-- V-EC-4. -/
theorem test_deq_empty : answer 0x00000010#32 0#128 State.reset = okWith 0#128 := by decide +kernel
/-- V-EC-3, rows 2 and 5: a NaN velocity does nothing; a NoteOff of another note silences the voice and
keeps the held bit of the sounding one. -/
theorem test_tick_noteon_nan_noteoff :
    afterHost (fun t => (t.cFreq, t.cNote, t.held)) 0x00000011#32 0#128
      (withEvent 0x7FF80000000000000000000000003C01#128) = some (SILENT, 0xFF#8, 0#128) ∧
    afterHost (fun t => (t.cFreq, t.cVel, t.cNote, t.held)) 0x00000011#32 0#128
      { withEvent 0x3D02#128 with cFreq := ONE, cVel := HALF, cNote := 60#8, held := 1#128 <<< 60 }
      = some (SILENT, PZERO, 0xFF#8, 1#128 <<< 60) := by decide +kernel
/-- P2: the NoteOn of the source's scenario, and W-1 for a note an octave off the listed ones. -/
theorem test_tick_noteon :
    afterHost (fun t => (t.cVel, t.cNote, t.held)) 0x00000011#32 0#128
      (withEvent 0x3FF00000000000000000000000004501#128) = some (ONE, 69#8, 1#128 <<< 69) ∧
    noteFreq 33#7 = 0x404B800000000000#64 := by
  refine ⟨by decide +kernel, ?_⟩
  have h : Config.EXP2 (ofInt (-3)) = pow2 (-3) :=
    (@Config.exp2Param ⟨Config.someExp2⟩).exact (-3) (by decide) (by decide)
  have e : fdiv (ofInt (((33#7).toNat : Int) - 69)) TWELVE = ofInt (-3) := by decide +kernel
  rw [noteFreq, e, h]
  decide +kernel
/-- V-EC-4. -/
theorem test_noteheld :
    answer 0x00004512#32 0#128 { State.reset with held := 1#128 <<< 69 } = okWith 1#128 ∧
    answer 0x00007F12#32 0#128 State.reset = okWith 0#128 ∧
    answer 0x00008012#32 0#128 State.reset = some ⟨.badIndex, 0#128⟩ := by decide +kernel
/-- V-EC-4. -/
theorem test_getfreq : answer 0x00000013#32 0#128 State.reset = okWith 0xBFF0000000000000#128 := by decide +kernel
/-- P2. -/
theorem test_getvel :
    answer 0x00000014#32 0#128 { State.reset with cVel := ONE } = okWith 0x3FF0000000000000#128 := by
  decide +kernel
/-- W-7, step 4. -/
theorem test_getbend :
    answer 0x00000015#32 0#128 { State.reset with cBend := HALF } = okWith 0x3FE0000000000000#128 := by
  decide +kernel
/-- V-EC-4: the note is sign-extended to 64 bits and no further. -/
theorem test_getnote :
    answer 0x00000016#32 0#128 State.reset = okWith 0xFFFFFFFFFFFFFFFF#128 ∧
    answer 0x00000016#32 0#128 { State.reset with cNote := 69#8 } = okWith 0x45#128 := by decide +kernel
/-- R234: the first step of a period pops the event, raises `BUSY` and answers nothing yet. -/
theorem test_runperiod_first_step :
    afterHost (fun t => (t.seq, t.cBend, busy t, t.hostResp)) 0x00000020#32 3#128
      (withEvent 0x3FE00000000000000000000000000003#128)
      = some (.couple 3#32 0x3FE00000000000000000000000000003#128, HALF, true, none) := by decide +kernel
/-- P3, period 1: the coupling mutes a silent voice and keeps its frequency; and R235 with `AUTO = 0`. -/
theorem test_coupling_silent :
    (stateOf (step (inPeriod (.couple 2#32 0#128)))).map
      (fun t => (t.osc.first.muted, t.osc.first.freq, t.osc.first.inc, t.seq))
      = some (true, A4_HZ, 0x3FB00C6938F15E29#64, .samples 2#32 0#128) ∧
    (stateOf (step { inPeriod (.couple 2#32 0#128) with ctrl := ⟨false, true, 0#5⟩ })).map
      (fun t => t.osc.first.muted) = some false := by decide +kernel
/-- V-SYS-2: every selector after reset. -/
theorem test_rdreg_after_reset :
    answer 0x00000030#32 0#128 State.reset = okWith 0x40E5888000000000#128 ∧
    answer 0x00010030#32 0#128 State.reset = okWith 0x3#128 ∧
    answer 0x00020030#32 0#128 State.reset = okWith 0x100#128 ∧
    answer 0x00030030#32 0#128 State.reset = okWith 0#128 ∧
    answer 0x00040030#32 0#128 State.reset = okWith 0#128 ∧
    answer 0x00050030#32 0#128 State.reset = okWith 0#128 ∧
    answer 0x00060030#32 0#128 State.reset = okWith 0x400001#128 ∧
    answer 0x00070030#32 0#128 State.reset = okWith 0#128 ∧
    answer 0x00090030#32 0#128 State.reset = okWith 0xBFF0000000000000#128 ∧
    answer 0x000A0030#32 0#128 State.reset = okWith 0#128 ∧
    answer 0x000B0030#32 0#128 State.reset = okWith 0#128 ∧
    answer 0x000C0030#32 0#128 State.reset = okWith 0xFFFFFFFFFFFFFFFF#128 ∧
    answer 0x00100030#32 0#128 State.reset = okWith 0x2#128 ∧
    answer 0x00110030#32 0#128 State.reset = okWith 0x407B800000000000#128 ∧
    answer 0x00120030#32 0#128 State.reset = okWith 0#128 ∧
    answer 0x00130030#32 0#128 State.reset = okWith 0#128 ∧
    answer 0x00140030#32 0#128 State.reset = okWith 0x3FB00C6938F15E29#128 ∧
    answer 0x00150030#32 0#128 State.reset = okWith 0#128 ∧
    answer 0x00160030#32 0#128 State.reset = okWith 0#128 := by decide +kernel
/-- V-EC-3's last line, V-FIFO-4, and `PARAMS` with four oscillators and 16 slots. -/
theorem test_rdreg_held_status_params :
    answer 0x00070030#32 0#128 { State.reset with held := 1#128 <<< 60 ||| 1#128 <<< 72 }
      = okWith 0x1001000000000000000#128 ∧
    answer 0x00020030#32 0#128 { State.resetWith 0 2 with rfree := 2, sticky := 1#5 } = okWith 0x301#128 ∧
    answer 0x00060030#32 0#128 (State.resetWith 3 16) = okWith 0x100004#128 := by decide +kernel
/-- V-SYS-3. -/
theorem test_wrcsr_ctrl :
    afterHost (fun t => ctrlWord t.ctrl) 0x00010031#32 0x0F03#128 State.reset = some 0xF03#64 ∧
    afterHost (fun t => ctrlWord t.ctrl) 0x00010031#32 0xFFFF#128 State.reset = some 0x1F03#64 := by
  decide +kernel
/-- V-ERR-4 and V-FIFO-3: write-1-to-clear, and `DROPS`. -/
theorem test_wrcsr_status_drops :
    afterHost (·.sticky) 0x00020031#32 0x15#128 { State.reset with sticky := 0x1F#5 } = some 0x0A#5 ∧
    afterHost (·.drops) 0x00030031#32 0xFFFFFFFF#128 State.reset = some 0xFFFFFFFF#32 := by decide +kernel
/-- V-EC-2: reserved bits of the operand are dropped, the value is kept. -/
theorem test_penq_masks :
    afterProducer (·.qe) 0x00000001#32 0xFFFFFFFFFFFFFFFFFFFFFFFFFFFFFFFF#128 State.reset
      = some [0xFFFFFFFFFFFFFFFF0000000000007F07#128] := by decide +kernel
/-- P5 and V-FIFO-3: a push into a full queue, a slot not yet released included; `DROPS` saturates. -/
theorem test_penq_dropped :
    producerAnswer 0x00000001#32 0x3#128 { State.resetWith 0 2 with qe := [3#128], rfree := 1 }
      = some .dropped ∧
    afterProducer (fun t => (t.qe, t.drops, t.sticky)) 0x00000001#32 0x3#128
      { State.resetWith 0 2 with qe := [3#128, 3#128], drops := 0xFFFFFFFF#32 }
      = some ([3#128, 3#128], 0xFFFFFFFF#32, 1#5) := by decide +kernel
/-- V-EC-1. -/
theorem test_prawin :
    afterProducer (·.qe) 0x00000002#32 0x7F4501#128 State.reset
      = some [0x3FF00000000000000000000000004501#128] ∧
    producerAnswer 0x00000002#32 0x7F4501#128 State.reset = some .ok := by decide +kernel
/-- V-EC-1, the other rows. -/
theorem test_classify :
    classify 0x0000000000004501#64 = 0x5#128 ∧
    classify 0x0000000000017F01#64 = 0x3F802040810204080000000000007F01#128 ∧
    classify 0x00000000FF7FFFF1#64 = 0x3FF00000000000000000000000007F01#128 ∧
    classify 0x0000000000003C02#64 = 0x3C02#128 ∧ classify 0x00000000007F0002#64 = 0x2#128 ∧
    classify 0x0000000000407B03#64 = 0x3FE02040810204080000000000007B04#128 ∧
    classify 0xFFFFE00000000004#64 = 0xBFF00000000000000000000000000003#128 ∧
    classify 0x8000000000000004#64 = 0xC1100000000000000000000000000003#128 ∧
    classify 0#64 = 0x5#128 ∧ classify 0xF#64 = 0x5#128 := by decide +kernel

/-! ### Errors and agents -/

/-- V-ERR-1, the rows answered `ILLEGAL`. -/
theorem test_illegal_rows :
    [0x01000107#32, 0x00000100#32, 0x00010000#32, 0x00010001#32, 0x00000009#32, 0x00080030#32, 0x000C0130#32,
      0x00000031#32, 0x00040031#32, 0x00010131#32, 0x00000108#32].map (fun c => answer c 0#128 State.reset)
    = List.replicate 11 (some ⟨.illegal, 0#128⟩) := by decide +kernel
/-- V-ERR-1: `ERR_INFO` after the `SETMODE` with `SEL`, `RDREG O_MODE, 1`, and V-OSC-24. -/
theorem test_error_info :
    afterHost (·.errInfo) 0x00010001#32 0#128 State.reset = some 0x100010001#64 ∧
    answer 0x00100130#32 0#128 State.reset = some ⟨.badIndex, 0#128⟩ ∧
    afterHost (fun t => (t.errInfo, t.sticky)) 0x00000107#32 0#128 State.reset
      = some (0x200000107#64, 0b00100#5) := by decide +kernel
/-- V-ERR-3. -/
theorem test_producer_errors :
    producerAnswer 0x00000100#32 0#128 State.reset = some .illegal ∧
    producerAnswer 0x00000000#32 0#128 State.reset = some .illegal ∧
    afterProducer (fun t => (t.sticky, t.errInfo, t.qe)) 0x00000003#32 0#128 State.reset
      = some (0b10000#5, 0#64, []) := by decide +kernel
/-- V-ERR-4: `IE = 0x0F` raises the line on `ILLEGAL` and not on the producer's `PILL`. -/
theorem test_irq :
    afterHost irq 0x00000009#32 0#128 { State.reset with ctrl := ⟨true, true, 0x0F#5⟩ } = some true ∧
    afterProducer irq 0x00000003#32 0#128 { State.reset with ctrl := ⟨true, true, 0x0F#5⟩ } = some false := by
  decide +kernel
/-- V-ERR-5: with `PEN = 0` the transaction waits. -/
theorem test_producer_held :
    afterProducer (fun t => (t.prodPort, t.prodResp)) 0x00000001#32 0x3#128
      { State.reset with ctrl := ⟨true, false, 0#5⟩ } = some ([⟨0x00000001#32, 0x3#128⟩], none) := by
  decide +kernel
/-- R237: a sample step waits while `SOUT` is full, and emits when it is free (P3, sample 3). -/
theorem test_sample_step :
    (stateOf (step { inPeriod (.samples 2#32 0#128) with sout := some ONE })).map
      (fun t => (t.sout, t.seq)) = some (some ONE, .samples 2#32 0#128) ∧
    (stateOf (step { withOsc (fun v => { v with mode := .saw, phase := 0x3FC00C6938F15E29#64 }) with
      sched := [.host], seq := .samples 2#32 0#128 })).map (fun t => (t.sout, t.seq))
      = some (some 0xBFEEB910234B5948#64, .samples 1#32 0#128) := by decide +kernel
/-- R291: reset keeps the sink's record and nothing else. -/
theorem test_reset_step :
    (stateOf (step { inPeriod (.samples 2#32 0#128) with
      sched := [.reset], sinkLog := [ONE], hostPort := [⟨0#32, 0#128⟩], held := 1#128 }))
      = some { State.reset with sinkLog := [ONE] } := by decide +kernel

/-! ### Assembler (R109, R110) -/

theorem test_asm_pseudo :
    assembleLine "P.NOTEON 69, 1.0   ; a note" = .transaction .producer
      ⟨0x00000001#32, 0x3FF00000000000000000000000004501#128⟩ ∧
    assembleLine "P.NOTEOFF 69" = .transaction .producer ⟨0x00000001#32, 0x4502#128⟩ ∧
    assembleLine "P.BEND 0.5" = .transaction .producer
      ⟨0x00000001#32, 0x3FE00000000000000000000000000003#128⟩ ∧
    assembleLine "CLRSTATUS" = .transaction .host ⟨0x00020031#32, 0x1F#128⟩ ∧
    assembleLine "RDSTATUS" = .transaction .host ⟨0x00020030#32, 0#128⟩ ∧
    assembleLine "SILENCE 0" = .transaction .host ⟨0x00000004#32, 0#128⟩ := by decide +kernel
theorem test_asm_commands :
    assembleLine "SETFREQ 0, 11025.0" = .transaction .host ⟨0x00000002#32, 0x40C5888000000000#128⟩ ∧
    assembleLine "SETMODE 0, saw" = .transaction .host ⟨0x00000001#32, 1#128⟩ ∧
    assembleLine "WRCSR CTRL, 0x0F03" = .transaction .host ⟨0x00010031#32, 0xF03#128⟩ ∧
    assembleLine "RDREG O_FLAGS, 0" = .transaction .host ⟨0x00150030#32, 0#128⟩ ∧
    assembleLine "P.ENQ pitchbend, 0, f64:0x7FF8000000000000" = .transaction .producer
      ⟨0x00000001#32, 0x7FF80000000000000000000000000003#128⟩ ∧
    assembleLine "P.RAWIN 0x7F4501" = .transaction .producer ⟨0x00000002#32, 0x7F4501#128⟩ := by decide +kernel
theorem test_asm_words_and_comments :
    assembleLine ".word 0x00000009" = .transaction .host ⟨0x00000009#32, 0#128⟩ ∧
    assembleLine ".pword 0x00000100" = .transaction .producer ⟨0x00000100#32, 0#128⟩ ∧
    assembleLine "  ; nothing here" = .blank ∧ assembleLine "NOSUCH 1" = .invalid := by decide +kernel

/-! ### Witnesses

For every statement with hypotheses, a state and operands that meet them, clause by clause, at the ends of
their ranges. -/

/-- The reset oscillator with a phase and an increment. -/
def oscAt (phase inc : F64) : Osc := { Osc.reset with phase := phase, inc := inc }

/-- The largest value below `TWO_PI`. -/
def belowTwoPi : F64 := 0x401921FB54442D17#64

theorem witness_DecodedWordHasNoOtherBits :
    decodeOn .host ⟨0x00160030#32, 5#128⟩ = .ok (.rdreg 0x16#8 0#8) ∧
    decodeOn .producer ⟨0x00000001#32, 0x7F07#128⟩ = .ok (.penq 7#3 127#7 0#64) := by decide

theorem witness_SerialisedTransactionIsLittleEndian :
    (bytesOfRequest ⟨0xAB000000#32, 0xCD000000000000000000000000000000#128⟩)[3]? = some 0xAB#8 ∧
    (bytesOfRequest ⟨0xAB000000#32, 0xCD000000000000000000000000000000#128⟩)[4 + 15]? = some 0xCD#8 ∧
    requestOfBytes (bytesOfRequest ⟨0xAB000001#32, 7#128⟩ ++ [9#8]) = some (⟨0xAB000001#32, 7#128⟩, [9#8]) := by
  decide +kernel

theorem witness_StepRunsTheDecodedCommand_host :
    ∃ (s : State) (rest : List Move) (r : Request) (ps : List Request) (i : Instr),
      s.sched = .host :: rest ∧ s.seq = .idle ∧ s.hostPort = r :: ps ∧ decodeHost r = .ok i :=
  ⟨givenHost 0x00000011#32 0#128 State.reset, [], _, [], .tick, rfl, rfl, rfl, by decide⟩

theorem witness_StepRunsTheDecodedCommand_producer :
    ∃ (s : State) (rest : List Move) (r : Request) (ps : List Request) (i : Instr),
      s.sched = .producer :: rest ∧ s.ctrl.pen = true ∧ s.prodPort = r :: ps ∧ decodeProducer r = .ok i :=
  ⟨givenProducer 0x00000002#32 9#128 State.reset, [], _, [], .prawin 9#64, rfl, rfl, rfl, by decide⟩

theorem witness_PlacedWordRunsNext :
    (tablePort (0x00140030 % 2 ^ 32) = .host ∧ decodeTableWord 32 0x00140030 = some (.rdreg 0x14#8 0#8)) ∧
    (tablePort ((2 ^ 160 - 2 ^ 32 + 8) % 2 ^ 160) = .host ∧
      decodeTableWord 160 (2 ^ 160 - 2 ^ 32 + 8) = some (.setsr 0xFFFFFFFFFFFFFFFF#64)) := by decide +kernel

/-- The four clauses: the first reserved opcode, `IDX = NUM_OSC` and note 128, the rate just below 1.0, and a
command that passes. -/
theorem witness_HostChecksInOrder :
    hostIllegal 0x00000009#32 ∧
    (¬ hostIllegal 0x00000107#32 ∧ hostBadIndex 0x00000107#32 State.reset) ∧
    (¬ hostIllegal 0x00008012#32 ∧ hostBadIndex 0x00008012#32 State.reset) ∧
    (¬ hostIllegal 0x00000008#32 ∧ ¬ hostBadIndex 0x00000008#32 State.reset ∧
      hostBadValue ⟨0x00000008#32, 0x3FEFFFFFFFFFFFFF#128⟩) ∧
    (¬ hostIllegal 0x00000007#32 ∧ ¬ hostBadIndex 0x00000007#32 State.reset ∧
      ¬ hostBadValue ⟨0x00000007#32, 0#128⟩) := by
  unfold hostIllegal hostBadIndex hostBadValue
  exact ⟨by decide, ⟨by decide, by decide⟩, ⟨by decide, by decide⟩,
    ⟨by decide, by decide, by decide +kernel⟩, ⟨by decide, by decide, by decide⟩⟩

theorem witness_HostChecksInOrder_step (cmd : CmdWord) (opnd : Wide) :
    (givenHost cmd opnd State.reset).sched = .host :: [] ∧ (givenHost cmd opnd State.reset).seq = .idle ∧
    (givenHost cmd opnd State.reset).hostPort = ⟨cmd, opnd⟩ :: [] := ⟨rfl, rfl, rfl⟩

theorem witness_ProducerChecks (cmd : CmdWord) (opnd : Wide) :
    ((givenProducer cmd opnd State.reset).sched = .producer :: [] ∧
      (givenProducer cmd opnd State.reset).ctrl.pen = true ∧
      (givenProducer cmd opnd State.reset).prodPort = ⟨cmd, opnd⟩ :: []) ∧
    producerIllegal 0x00000101#32 ∧ producerIllegal 0x00000003#32 ∧ ¬ producerIllegal 0x00000002#32 := by
  refine ⟨⟨rfl, rfl, rfl⟩, ?_⟩
  unfold producerIllegal
  decide

theorem witness_RefusedCommandHasNoPartialEffect :
    ∃ t x, Instr.port (.next 1#8) = .host ∧ exec (.next 1#8) State.reset = .next t ∧
      t.hostResp = some x ∧ x.resp ≠ .ok :=
  ⟨_, ⟨.badIndex, 0#128⟩, rfl, rfl, rfl, by decide⟩

theorem witness_ResponsesOfEachCommand :
    (∃ t, exec (.setsr CNAN) State.reset = .next t ∧ t.hostResp = some ⟨.badValue, 0#128⟩) ∧
    (∃ t, exec (.noteheld 128#8) State.reset = .next t ∧ t.hostResp = some ⟨.badIndex, 0#128⟩) ∧
    (∃ t, exec (.wrcsr 4#8 0#64) State.reset = .next t ∧ t.hostResp = some ⟨.illegal, 0#128⟩) ∧
    (∃ t, exec (.penq 7#3 127#7 CNAN) State.reset = .next t ∧ t.prodResp = some .ok) ∧
    (∃ t, exec (.penq 7#3 127#7 CNAN) (withQueue 64) = .next t ∧ t.prodResp = some .dropped) :=
  ⟨next_reads (·.hostResp) (by decide +kernel), next_reads (·.hostResp) (by decide +kernel),
    next_reads (·.hostResp) (by decide +kernel), next_reads (·.prodResp) (by decide +kernel),
    next_reads (·.prodResp) (by decide +kernel)⟩

theorem wrapPhase_infinity (n : Nat) : wrapPhase n PINF = none := by
  induction n with
  | zero => rfl
  | succ n ih =>
    rw [wrapPhase, if_pos (by decide +kernel), show fsub PINF TWO_PI = PINF by decide +kernel, ih]

theorem next_faults {s : State} {o : BitVec 8} {v : Osc} (hv : IsOsc s o.toNat v)
    (h : advancePhase v.phase v.inc = none) : exec (.next o) s = .fault .phaseLoopDiverges := by
  rw [exec, execNext, onOscillator_of_isOsc hv]
  simp only [nextSample, h]

/-- The one fault, in a state no run reaches: an infinite phase. -/
theorem witness_NoRefusalAndOnlyNextFaults :
    exec (.next 0#8) (withOsc fun _ => oscAt PINF PZERO) = .fault .phaseLoopDiverges := by
  refine next_faults (v := oscAt PINF PZERO) rfl ?_
  rw [show (oscAt PINF PZERO).phase = PINF from rfl, show (oscAt PINF PZERO).inc = PZERO from rfl, advancePhase,
    show fadd PINF PZERO = PINF by decide +kernel, wrapPhase_infinity]

theorem witness_DisabledAgentsHold :
    (∃ (s : State) (rest : List Move), s.sched = .producer :: rest ∧ s.ctrl.pen = false ∧ s.prodPort ≠ []) ∧
    (∃ (s : State) (rest : List Move), s.sched = .producer :: rest ∧ s.prodPort = []) ∧
    (∃ (s : State) (rest : List Move), s.sched = .host :: rest ∧ s.seq = .idle ∧ s.hostPort = []) ∧
    (∃ (s : State) (rest : List Move) (n : BitVec 32) (e : EventWord) (y : F64),
      s.sched = .host :: rest ∧ s.seq = .samples n e ∧ n ≠ 0#32 ∧ s.sout = some y) ∧
    (∃ (s : State) (rest : List Move), s.sched = .sink :: rest ∧ s.sout = none) :=
  ⟨⟨givenProducer 1#32 3#128 { State.reset with ctrl := ⟨true, false, 0#5⟩ }, [], rfl, rfl, by decide⟩,
    ⟨{ State.reset with sched := [.producer] }, [], rfl, rfl⟩,
    ⟨{ State.reset with sched := [.host] }, [], rfl, rfl, rfl⟩,
    ⟨{ inPeriod (.samples 1#32 0#128) with sout := some ONE }, [], 1#32, 0#128, ONE, rfl, rfl, by decide, rfl⟩,
    ⟨{ State.reset with sched := [.sink] }, [], rfl, rfl⟩⟩

theorem witness_SynchroniserSinkAndPortSteps :
    (∃ s : State, s.sched = [.syncW] ∧ s.wvis < s.qe.length) ∧
    (∃ s : State, s.sched = [.syncW] ∧ s.qe.length ≤ s.wvis) ∧
    (∃ s : State, s.sched = [.syncR] ∧ 0 < s.rfree) ∧ (∃ s : State, s.sched = [.syncR] ∧ s.rfree = 0) ∧
    (∃ (s : State) (y : F64), s.sched = [.sink] ∧ s.sout = some y) ∧
    (∃ (s : State) (r : Request), s.sched = [.presentHost r]) ∧
    (∃ (s : State) (r : Request), s.sched = [.presentProducer r]) :=
  ⟨⟨{ withQueue 2 with sched := [.syncW], wvis := 1 }, rfl, by decide⟩,
    ⟨{ withQueue 1 with sched := [.syncW] }, rfl, by decide⟩,
    ⟨{ State.reset with sched := [.syncR], rfree := 1 }, rfl, by decide⟩,
    ⟨{ State.reset with sched := [.syncR] }, rfl, rfl⟩,
    ⟨{ State.reset with sched := [.sink], sout := some ONE }, ONE, rfl, rfl⟩,
    ⟨{ State.reset with sched := [.presentHost ⟨0#32, 0#128⟩] }, _, rfl⟩,
    ⟨{ State.reset with sched := [.presentProducer ⟨2#32, 0#128⟩] }, _, rfl⟩⟩

/-- The FIFO with room for one and with none. -/
theorem witness_ProducerNeverWaitsOnTheFifo :
    ∀ n, (givenProducer 1#32 3#128 (withQueue n)).sched = .producer :: [] ∧
      (givenProducer 1#32 3#128 (withQueue n)).ctrl.pen = true ∧
      (givenProducer 1#32 3#128 (withQueue n)).prodPort = ⟨1#32, 3#128⟩ :: [] ∧
      producerAnswer 1#32 3#128 (withQueue 63) = some .ok ∧
      producerAnswer 1#32 3#128 (withQueue 64) = some .dropped :=
  fun _ => ⟨rfl, rfl, rfl, by decide +kernel, by decide +kernel⟩

theorem witness_ProducerSideLeavesConsumerState (m : Move)
    (h : m ∈ [Move.producer, .syncW, .syncR, .presentProducer ⟨1#32, 3#128⟩]) :
    ∃ t, step { givenProducer 1#32 3#128 (withQueue 64) with sched := [m], wvis := 63, rfree := 1 } = .next t := by
  apply next_of_completes
  revert m
  decide +kernel

/-- Two blocks that agree where the statement asks and differ in the consumer's state. -/
theorem witness_ProducerReadsNoConsumerState :
    ∃ s s' t t' : State, s.sched = .producer :: [] ∧ s'.sched = .producer :: [] ∧ s.prodPort = s'.prodPort ∧
      s.ctrl.pen = s'.ctrl.pen ∧ s.qe = s'.qe ∧ s.rfree = s'.rfree ∧ s.fifoDepth = s'.fifoDepth ∧
      s.drops = s'.drops ∧ s.prodResp = s'.prodResp ∧ s.held ≠ s'.held ∧ s.wvis ≠ s'.wvis ∧
      step s = .next t ∧ step s' = .next t' ∧ ∀ j, (j = 0 ∨ j = 4) → s.sticky.getLsbD j = s'.sticky.getLsbD j := by
  obtain ⟨t, ht⟩ := next_of_completes (o := step (givenProducer 1#32 3#128 (withQueue 63))) (by decide +kernel)
  obtain ⟨t', ht'⟩ := next_of_completes
    (o := step { givenProducer 1#32 3#128 (withQueue 63) with held := 1#128, wvis := 0 }) (by decide +kernel)
  exact ⟨givenProducer 1#32 3#128 (withQueue 63),
    { givenProducer 1#32 3#128 (withQueue 63) with held := 1#128, wvis := 0 }, t, t', rfl, rfl, rfl, rfl, rfl, rfl, rfl, rfl,
    rfl, by decide, by decide, ht, ht', fun _ _ => rfl⟩

theorem witness_RenderAndProducerStepsCommute (q : Seq)
    (hq : q ∈ [Seq.couple 1#32 0#128, .samples 1#32 0#128, .samples 0#32 0#128]) (m : Move)
    (hm : m ∈ [Move.producer, .syncW, .syncR, .presentProducer ⟨1#32, 3#128⟩]) :
    ∃ t u, busy (givenProducer 1#32 3#128 (inPeriod q)) = true ∧
      hostMove (givenProducer 1#32 3#128 (inPeriod q)) = .next t ∧
      runMove m (givenProducer 1#32 3#128 (inPeriod q)) = .next u := by
  have h : busy (givenProducer 1#32 3#128 (inPeriod q)) = true ∧
      completes (hostMove (givenProducer 1#32 3#128 (inPeriod q))) = true ∧
      completes (runMove m (givenProducer 1#32 3#128 (inPeriod q))) = true := by
    revert q m
    decide +kernel
  obtain ⟨t, ht⟩ := next_of_completes h.2.1
  obtain ⟨u, hu⟩ := next_of_completes h.2.2
  exact ⟨t, u, h.1, ht, hu⟩

theorem witness_ResetLeavesTheListedValues :
    IsOsc (State.resetWith 255 65536) 0 Osc.reset ∧ IsOsc (State.resetWith 1 64) 1 Osc.reset := ⟨rfl, rfl⟩

theorem witness_ResetStepFromAnyState :
    { inPeriod (.samples 3#32 0#128) with sched := [.reset, .host] }.sched = .reset :: [.host] := rfl

/-- The last instance of four, and the first index beyond: the hypotheses of `SetmodeStoresTheMode`,
`SetfreqAndSetpitchRecomputeTheIncrement` and `FlagCommandsWriteTheirFlag`. -/
theorem witness_oscillator_index :
    IsOsc (State.resetWith 3 64) (3#8).toNat Osc.reset ∧ numOsc (State.resetWith 3 64) ≤ (4#8).toNat ∧
    IsOsc (State.resetWith 255 64) (0#8).toNat Osc.reset ∧ numOsc State.reset ≤ (255#8).toNat := by
  refine ⟨rfl, ?_, rfl, ?_⟩ <;> decide

theorem witness_SetsrMarksEveryInstanceStale :
    (fle 0x3FF0000000000000#64 ONE = true ∧ fle ONE 0x41F0000000000000#64 = true) ∧
    (fle 0x3FF0000000000000#64 SR_MAX = true ∧ fle SR_MAX 0x41F0000000000000#64 = true) ∧
    ¬ (fle 0x3FF0000000000000#64 0x3FEFFFFFFFFFFFFF#64 = true ∧
      fle 0x3FEFFFFFFFFFFFFF#64 0x41F0000000000000#64 = true) ∧
    ¬ (fle 0x3FF0000000000000#64 CNAN = true ∧ fle CNAN 0x41F0000000000000#64 = true) ∧
    getOsc State.reset.osc 0 = some Osc.reset := by
  refine ⟨by decide +kernel, by decide +kernel, by decide +kernel, by decide +kernel, rfl⟩

/-- Phase `+0.0`, and the largest phase with the largest increment, `PI`. -/
theorem witness_NextSamplesThenAdvances :
    (IsOsc (withOsc fun _ => oscAt PZERO PZERO) (0#8).toNat (oscAt PZERO PZERO) ∧
      phaseInRange (oscAt PZERO PZERO) ∧ incInRange (oscAt PZERO PZERO)) ∧
    (IsOsc (withOsc fun _ => oscAt belowTwoPi PI) (0#8).toNat (oscAt belowTwoPi PI) ∧
      phaseInRange (oscAt belowTwoPi PI) ∧ incInRange (oscAt belowTwoPi PI)) ∧
    numOsc State.reset ≤ (1#8).toNat := by
  unfold phaseInRange incInRange
  exact ⟨⟨rfl, by decide +kernel, by decide +kernel⟩, ⟨rfl, by decide +kernel, by decide +kernel⟩, by decide⟩

/-- The eight paths: muted, Sine, three naive, three band-limited. -/
theorem witness_SampleOnEachPath (m : Mode) (n mu : Bool) :
    { Osc.reset with mode := m, naive := n, muted := mu }.muted = mu ∧
    { Osc.reset with mode := m, naive := n, muted := mu }.naive = n ∧
    { Osc.reset with mode := m, naive := n, muted := mu }.mode = m := ⟨rfl, rfl, rfl⟩

/-- V-BLEP-2 and 3, 7 to 9, 4 and 6: the two polynomials and the window; W-5: both ends of the window at
1000 Hz, and both ends of `[0, 1)`. -/
theorem witness_BlepAtTheWindow :
    (flt 0x3F87384EF2A605CD#64 0x3F97384EF2A605CD#64 = true ∧
      flt 0x3F97384EF2A605CC#64 0x3F97384EF2A605CD#64 = true) ∧
    (∀ t, t = 0x3FEF463D886ACFD3#64 ∨ t = 0x3FEFA31EC43567E9#64 ∨ t = 0x3FEFFFFDE7210BE9#64 →
      flt t 0x3F97384EF2A605CD#64 = false ∧ fgt t (fsub ONE 0x3F97384EF2A605CD#64) = true) ∧
    (∀ t, t = 0x3F97384EF2A605CD#64 ∨ t = 0x3FEF463D886ACFD2#64 ∨ t = CNAN →
      flt t 0x3F97384EF2A605CD#64 = false ∧ fgt t (fsub ONE 0x3F97384EF2A605CD#64) = false) ∧
    flt PZERO 0x3F97384EF2A605CD#64 = true ∧
    (fle 0x3F97384EF2A605CD#64 0x3F97384EF2A605CD#64 = true ∧
      fle 0x3F97384EF2A605CD#64 (fsub ONE 0x3F97384EF2A605CD#64) = true) ∧
    (fle 0x3F97384EF2A605CD#64 0x3FEF463D886ACFD2#64 = true ∧
      fle 0x3FEF463D886ACFD2#64 (fsub ONE 0x3F97384EF2A605CD#64) = true) ∧
    (fle PZERO PZERO = true ∧ flt PZERO ONE = true) ∧
    (fle PZERO 0x3FEFFFFFFFFFFFFF#64 = true ∧ flt 0x3FEFFFFFFFFFFFFF#64 ONE = true) := by
  refine ⟨by decide +kernel, ?_, ?_, by decide +kernel⟩ <;> rintro t (rfl | rfl | rfl) <;> decide +kernel

theorem witness_SineSampleIsInRange :
    ({ oscAt PZERO PZERO with mode := .sine }.muted = false ∧
      phaseInRange { oscAt PZERO PZERO with mode := .sine } ∧
      { oscAt PZERO PZERO with mode := .sine }.phase = PZERO) ∧
    phaseInRange { oscAt belowTwoPi PZERO with mode := .sine } := by
  unfold phaseInRange
  decide +kernel

/-- A NaN, and the values next to zero on both sides. -/
theorem witness_DeviationOfPitch :
    isNaN 0xFFF0000000000001#64 = true ∧ fgt 0x0000000000000001#64 PZERO = true ∧
    flt 0x8000000000000001#64 PZERO = true := by decide +kernel

/-- V-OSC-2: a negative and a NaN frequency, one above half the rate, and half the rate itself. -/
theorem witness_IncrementClampsTheFrequency :
    fgt (fadd 0xC014000000000000#64 (deviation PZERO)) PZERO = false ∧
    fgt (fadd CNAN (deviation PZERO)) PZERO = false ∧
    (fgt (fadd 0x40DD4C0000000000#64 (deviation PZERO)) PZERO = true ∧
      fgt (fadd 0x40DD4C0000000000#64 (deviation PZERO)) (fmul SR_RESET HALF) = true) ∧
    (fgt (fadd 0x40D5888000000000#64 (deviation PZERO)) PZERO = true ∧
      fgt (fadd 0x40D5888000000000#64 (deviation PZERO)) (fmul SR_RESET HALF) = false) := by decide +kernel

theorem witness_IncrementIsBounded :
    (fle ONE ONE = true ∧ fle ONE SR_MAX = true) ∧ (fle ONE SR_MAX = true ∧ fle SR_MAX SR_MAX = true) := by
  decide +kernel

theorem witness_ProducerCommandsPushOrDrop :
    (withQueue 63).qe.length + (withQueue 63).rfree < (withQueue 63).fifoDepth ∧
    (withQueue 64).fifoDepth ≤ (withQueue 64).qe.length + (withQueue 64).rfree ∧
    (∃ (i : Instr) (e : EventWord) (tag : BitVec 3) (key : BitVec 7) (x : F64),
      i = .penq tag key x ∧ e = x ++ 0#49 ++ key ++ 0#5 ++ tag) ∧
    (∃ (i : Instr) (e : EventWord) (r : RawRecord), i = .prawin r ∧ e = classify r) :=
  ⟨by decide, by decide, ⟨_, _, 7#3, 127#7, CNAN, rfl, rfl⟩, ⟨_, _, 0x7F4501#64, rfl, rfl⟩⟩

theorem witness_ClassifyEveryRecord :
    ((0x4501#64).extractLsb' 0 4 = 1#4 ∧ (0x4501#64).extractLsb' 16 7 = 0#7) ∧
    ((0x17F01#64).extractLsb' 0 4 = 1#4 ∧ (0x17F01#64).extractLsb' 16 7 ≠ 0#7) ∧
    (0x3C02#64).extractLsb' 0 4 = 2#4 ∧ (0x7F7F03#64).extractLsb' 0 4 = 3#4 ∧
    (0x8000000000000004#64).extractLsb' 0 4 = 4#4 ∧
    (∀ k : BitVec 4, k = 0#4 ∨ k = 5#4 ∨ k = 15#4 → k ≠ 1#4 ∧ k ≠ 2#4 ∧ k ≠ 3#4 ∧ k ≠ 4#4) := by decide

/-- `DeqPopsTheOldestVisibleWord`, and the two cases of `TickAppliesOneEvent` by visibility. -/
theorem witness_visible_and_empty (e : EventWord) :
    ((withEvent e).wvis = 0 + 1 ∧ (withEvent e).qe = e :: []) ∧ State.reset.wvis = 0 := ⟨⟨rfl, rfl⟩, rfl⟩

/-- The five events: NoteOn just above velocity 0, NoteOn with `−0.0` and with a NaN, NoteOff, bend, and the
tags on both sides of those three. -/
theorem witness_TickAppliesOneEvent :
    (eventTag 0x00000000000000010000000000007F01#128 = 1#3 ∧
      fgt (eventValue 0x00000000000000010000000000007F01#128) PZERO = true) ∧
    (eventTag 0x80000000000000000000000000007F01#128 = 1#3 ∧
      fgt (eventValue 0x80000000000000000000000000007F01#128) PZERO = false) ∧
    (eventTag 0x7FF80000000000000000000000000001#128 = 1#3 ∧
      fgt (eventValue 0x7FF80000000000000000000000000001#128) PZERO = false) ∧
    eventTag 0x3C02#128 = 2#3 ∧ eventTag 0x3#128 = 3#3 ∧
    (∀ e : EventWord, e = 0#128 ∨ e = 4#128 ∨ e = 7#128 →
      eventTag e ≠ 1#3 ∧ eventTag e ≠ 2#3 ∧ eventTag e ≠ 3#3) := by
  refine ⟨by decide +kernel, by decide +kernel, by decide +kernel, by decide, by decide, ?_⟩
  rintro e (rfl | rfl | rfl) <;> decide

theorem witness_HeldBitOfEachNote :
    ∃ t, (withEvent 0x3FF00000000000000000000000007F01#128).wvis = 0 + 1 ∧
      (withEvent 0x3FF00000000000000000000000007F01#128).qe
        = 0x3FF00000000000000000000000007F01#128 :: [] ∧
      exec .tick (withEvent 0x3FF00000000000000000000000007F01#128) = .next t ∧ 127 < 128 ∧
      eventTag 0x3FF00000000000000000000000007F01#128 = 1#3 ∧
      (eventKey 0x3FF00000000000000000000000007F01#128).toNat = 127 :=
  ⟨_, rfl, rfl, rfl, by decide, by decide, by decide⟩

theorem witness_NoteheldAnswersTheBit : (127#8).toNat ≤ 127 ∧ 127 < (128#8).toNat := by decide

theorem witness_RdregAnswersEverySelector :
    ((0x08#8).toNat ∉ globalSelectors ∧ (0x08#8).toNat ∉ oscSelectors) ∧
    ((0x17#8).toNat ∉ globalSelectors ∧ (0x17#8).toNat ∉ oscSelectors) ∧
    ((0x0C#8).toNat ∈ globalSelectors ∧ 1#8 ≠ 0#8) ∧
    ((0x16#8).toNat ∈ oscSelectors ∧ numOsc State.reset ≤ (1#8).toNat) ∧
    IsOsc (State.resetWith 3 64) (3#8).toNat Osc.reset := by
  refine ⟨by decide, by decide, by decide, by decide, rfl⟩

theorem witness_WrcsrWritesThreeRegisters :
    (0x00#8 ≠ 0x01#8 ∧ 0x00#8 ≠ 0x02#8 ∧ 0x00#8 ≠ 0x03#8) ∧
    (0x04#8 ≠ 0x01#8 ∧ 0x04#8 ≠ 0x02#8 ∧ 0x04#8 ≠ 0x03#8) := by decide

theorem witness_ControlAndStatusBits :
    4 < 5 ∧ (∀ j, j = 5 ∨ j = 7 ∨ j = 11 ∨ j = 63 → j < 64 ∧ ¬ j < 5 ∧ j ≠ 8 ∧ j ≠ 9 ∧ j ≠ 10) ∧
    configLegal (State.resetWith 0 2) ∧ configLegal (State.resetWith 255 65536) := by
  unfold configLegal
  refine ⟨by decide, ?_, ⟨by decide, by decide⟩, by decide +kernel, by decide +kernel⟩
  rintro j (rfl | rfl | rfl | rfl) <;> decide

theorem witness_IrqIsTheEnabledStickyBits :
    ∃ t, exec (.wrcsr 0x02#8 0x1F#64) { State.reset with sticky := 0x1F#5, ctrl := ⟨true, true, 0x1F#5⟩ }
      = .next t := ⟨_, rfl⟩

theorem witness_CouplingStep :
    (∃ s : State, s.sched = .host :: [] ∧ s.seq = .couple 0#32 0#128 ∧ s.ctrl.auto = true ∧
      fgt s.cFreq PZERO = true) ∧
    (∃ s : State, s.sched = .host :: [] ∧ s.seq = .couple 0xFFFFFFFF#32 0#128 ∧ s.ctrl.auto = true ∧
      fgt s.cFreq PZERO = false) ∧
    (∃ s : State, s.sched = .host :: [] ∧ s.seq = .couple 1#32 0#128 ∧ s.ctrl.auto = false) :=
  ⟨⟨{ inPeriod (.couple 0#32 0#128) with cFreq := 1#64 }, rfl, rfl, rfl, by decide +kernel⟩,
    ⟨inPeriod (.couple 0xFFFFFFFF#32 0#128), rfl, rfl, rfl, by decide +kernel⟩,
    ⟨{ inPeriod (.couple 1#32 0#128) with ctrl := ⟨false, true, 0#5⟩ }, rfl, rfl, rfl⟩⟩

theorem witness_SampleStepAndEndOfPeriod :
    (∃ s : State, s.sched = .host :: [] ∧ s.seq = .samples 1#32 0#128 ∧ 1#32 ≠ 0#32 ∧ s.sout = none ∧
      phaseInRange s.osc.first ∧ incInRange s.osc.first) ∧
    (∃ s : State, s.sched = .host :: [] ∧ s.seq = .samples 0#32 0#128) := by
  refine ⟨⟨{ withOsc (fun _ => oscAt belowTwoPi PI) with sched := [.host], seq := .samples 1#32 0#128 },
    rfl, rfl, by decide, rfl, ?_, ?_⟩, ⟨inPeriod (.samples 0#32 0#128), rfl, rfl⟩⟩
  · unfold phaseInRange; decide +kernel
  · unfold incInRange; decide +kernel

/-- A period of `n` samples of a silent voice, from reset. -/
def periodOf (n : BitVec 32) : State :=
  { State.reset with
    hostPort := [encode (.runperiod n)], sched := .host :: .host :: (sampleMoves n.toNat ++ .host :: []) }

/-- Periods of no sample and of two. -/
theorem witness_RunperiodEmitsExactlyNSamples (n : BitVec 32) (hn : n = 0#32 ∨ n = 2#32) :
    ∃ ys v, (periodOf n).seq = .idle ∧ (periodOf n).sout = none ∧
      (periodOf n).hostPort = encode (.runperiod n) :: [] ∧
      (periodOf n).sched = .host :: .host :: (sampleMoves n.toNat ++ .host :: []) ∧
      renderSamples n.toNat (if (periodOf n).ctrl.auto
        then coupledOsc (periodOf n).sr (tickBody (periodOf n)).2.cFreq (tickBody (periodOf n)).2.cBend
          (periodOf n).osc.first
        else (periodOf n).osc.first) = some (ys, v) := by
  have h : (renderSamples n.toNat (if (periodOf n).ctrl.auto
        then coupledOsc (periodOf n).sr (tickBody (periodOf n)).2.cFreq (tickBody (periodOf n)).2.cBend
          (periodOf n).osc.first
        else (periodOf n).osc.first)).isSome = true := by
    rcases hn with rfl | rfl <;> decide +kernel
  obtain ⟨⟨ys, v⟩, hv⟩ := Option.isSome_iff_exists.1 h
  exact ⟨ys, v, rfl, rfl, rfl, rfl, hv⟩

theorem witness_OnlyNextMovesPhaseAndLast :
    (∃ t, exec (.mute 0#8) State.reset = .next t ∧ ∀ o, Instr.mute 0#8 ≠ .next o) ∧
    (∃ t, exec (.next 1#8) (State.resetWith 1 64) = .next t) ∧ IsOsc (State.resetWith 1 64) 0 Osc.reset ∧
    IsOsc (State.resetWith 1 64) 1 Osc.reset := by
  refine ⟨⟨_, rfl, fun o h => by cases h⟩, next_of_completes (by decide +kernel), rfl, rfl⟩

/-- One command of each sort: one that writes nothing, one refused, one that clears every sticky bit and each
that sets one; the last of four instances and one that the command does not name. -/
theorem witness_WhoWritesEachRegister :
    (∃ t, exec .nop State.reset = .next t) ∧
    (∃ t, exec (.next 1#8) State.reset = .next t ∧ t.errInfo ≠ State.reset.errInfo ∧ t.sticky.getLsbD 2 = true) ∧
    (∃ t, exec (.rdreg 0x08#8 0#8) State.reset = .next t ∧ t.sticky.getLsbD 1 = true) ∧
    (∃ t, exec (.setsr CNAN) State.reset = .next t ∧ t.sticky.getLsbD 3 = true) ∧
    (∃ t, exec (.penq 3#3 0#7 PZERO) (withQueue 64) = .next t ∧ t.sticky.getLsbD 0 = true) ∧
    (∃ t, exec (.wrcsr 0x02#8 0x1F#64) { State.reset with sticky := 0x1F#5 } = .next t ∧
      t.sticky.getLsbD 4 = false) ∧
    IsOsc (State.resetWith 3 64) 3 Osc.reset ∧ (∀ o m, Instr.setmode 0#8 .saw = .setmode o m → o.toNat ≠ 3) := by
  refine ⟨⟨_, rfl⟩, ⟨_, rfl, by decide, by decide⟩, next_reads (·.sticky.getLsbD 1) (by decide +kernel),
    next_reads (·.sticky.getLsbD 3) (by decide +kernel), next_reads (·.sticky.getLsbD 0) (by decide +kernel),
    next_reads (·.sticky.getLsbD 4) (by decide +kernel), rfl, ?_⟩
  intro o m h
  cases h
  decide

/-- A full FIFO, half of it visible, at the largest depth's bound on a small one. -/
theorem witness_FifoBoundsAreKept :
    ∃ t, fifoBounded { withQueue 63 with rfree := 1, wvis := 1, sched := [.syncW] } ∧
      step { withQueue 63 with rfree := 1, wvis := 1, sched := [.syncW] } = .next t := by
  refine ⟨_, ?_, rfl⟩
  unfold fifoBounded
  decide

/-- A run of two steps that accepts a word and shows it. -/
theorem witness_FifoLaw :
    ∃ t, Host.Core.run Sys2Proof.core 2
        { givenProducer 1#32 3#128 State.reset with sched := [.producer, .syncW] } = .next t ∧
      ∀ m ∈ ([.producer, .syncW] : List Move).take 2, m ≠ .reset := by
  refine ⟨_, rfl, ?_⟩
  decide

/-- A silent voice and a sounding one. -/
theorem witness_VoiceConsistencyIsKept :
    (voiceConsistent (givenHost 0x11#32 0#128 State.reset) ∧
      ∃ t, step (givenHost 0x11#32 0#128 State.reset) = .next t) ∧
    voiceConsistent { State.reset with cFreq := A4_HZ, cVel := ONE } := by
  refine ⟨⟨Or.inr ⟨rfl, rfl⟩, next_of_completes (by decide +kernel)⟩, Or.inl ?_⟩
  decide +kernel

/-- The invariant holds of the reset state whatever the environment has presented and scheduled. -/
theorem witness_inv (sched : List Move) (hp pp : List Request) :
    Inv { State.reset with sched := sched, hostPort := hp, prodPort := pp } where
  config := ⟨show Config.legalDepth State.reset.fifoDepth = true by decide,
    show numOsc State.reset ≤ 256 by decide⟩
  fifo := show fifoBounded State.reset by unfold fifoBounded; decide
  words := fun e h => by cases h
  rate := show rateLegal State.reset by unfold rateLegal; decide +kernel
  phases := fun i v h => by
    rw [isOsc_resetWith (extra := 0) (depth := 64) (i := i) (v := v) h]
    unfold phaseInRange; decide +kernel
  incs := fun i v h => by
    rw [isOsc_resetWith (extra := 0) (depth := 64) (i := i) (v := v) h]
    unfold incInRange; decide +kernel
  voice := Or.inr ⟨rfl, rfl⟩
  note := Or.inl rfl
  errInfo := show errInfoCanonical State.reset by unfold errInfoCanonical; decide

/-- `PhaseInvariantIsKept`, `EveryStepKeepsTheInvariant` and `EveryStepCompletes`: a `NEXT` from reset. -/
theorem witness_invariants_step :
    ∃ t, Inv (givenHost 0x07#32 0#128 State.reset) ∧ rateLegal (givenHost 0x07#32 0#128 State.reset) ∧
      (∀ i v, IsOsc (givenHost 0x07#32 0#128 State.reset) i v → phaseInRange v ∧ incInRange v) ∧
      step (givenHost 0x07#32 0#128 State.reset) = .next t := by
  have h : Inv (givenHost 0x07#32 0#128 State.reset) := witness_inv _ _ _
  obtain ⟨t, ht⟩ := next_of_completes (o := step (givenHost 0x07#32 0#128 State.reset)) (by decide +kernel)
  exact ⟨t, h, h.rate, fun i v hv => ⟨h.phases i v hv, h.incs i v hv⟩, ht⟩

/-- The synchronisers and the sink, in turn. -/
def turn (k : Nat) : Move := if k % 3 = 0 then .syncW else if k % 3 = 1 then .syncR else .sink

/-- The states from `s` on as they step in turn. -/
def turnStates (s : State) : Nat → State
  | 0 => s
  | k + 1 =>
    if k % 3 = 0 then syncW { turnStates s k with sched := [] }
    else if k % 3 = 1 then syncR { turnStates s k with sched := [] }
    else sinkMove { turnStates s k with sched := [] }

/-- An execution in which the synchronisers and the sink step in turn for ever. -/
def inTurn (s : State) : Execution where
  states := turnStates s
  moves := turn
  steps := fun k => by
    simp only [step, stepMachine, turn, turnStates]
    split
    · rfl
    · split <;> rfl

theorem inTurn_fair (s : State) : (inTurn s).fair := by
  refine ⟨fun k _ => ⟨3 * k, by omega, ?_⟩, fun k _ => ⟨3 * k + 1, by omega, ?_⟩,
    fun k _ => ⟨3 * k + 2, by omega, ?_⟩⟩
  · exact if_pos (by omega)
  · exact (if_neg (by omega)).trans (if_pos (by omega))
  · exact (if_neg (by omega)).trans (if_neg (by omega))

/-- A fair execution from a state with hidden words, freed slots and a held sample. -/
theorem witness_VisibilityLatencies :
    ∃ s : State, (inTurn s).fair ∧ fifoBounded ((inTurn s).states 0) ∧ (hiddenWords s).length = 2 ∧ s.rfree = 62 ∧
      ((inTurn s).states 0).sout = some ONE :=
  ⟨{ withQueue 2 with wvis := 0, rfree := 62, sout := some ONE }, inTurn_fair _,
    by unfold fifoBounded; decide, by decide, rfl, rfl⟩

/-- R66: an execution that leaves a queued word hidden for ever is not fair. -/
theorem test_unfair :
    ∃ x : Execution, ¬ x.fair ∧ ∀ k, hiddenWords (x.states k) = [0x3#128] := by
  refine ⟨⟨fun _ => { withQueue 1 with wvis := 0 }, fun _ => .sink, fun _ => rfl⟩, ?_, fun _ => rfl⟩
  intro h
  obtain ⟨j, _, hj⟩ := h.1 0 fun _ _ => rfl
  cases hj

theorem witness_ResetMeetsTheInvariant :
    (0 + 1 ≤ 256 ∧ Config.legalDepth 2 = true) ∧ (255 + 1 ≤ 256 ∧ Config.legalDepth 65536 = true) ∧
    Config.legalDepth 1 = false ∧ Config.legalDepth 131072 = false := by decide +kernel

/-- A third of a unit; a tie, between `2^53` and `2^53 + 2` units, that goes to the even one; and both sides of
the least value that overflows. -/
theorem witness_RoundingIsToNearestEven :
    (0 < 3 ∧ isFinite (roundRatio true 1 3) = true ∧ isFinite (0x0000000000000001#64) = true) ∧
    (isFinite (roundRatio false (2 ^ 53 + 1) 1) = true ∧
      units (roundRatio false (2 ^ 53 + 1) 1) = 2 ^ 53 ∧
      units 0x0020000000000001#64 = 2 ^ 53 + 2 ∧ isFinite 0x0020000000000001#64 = true) ∧
    (isFinite (roundRatio true ((2 ^ 54 - 1) * 2 ^ 2044) 1) = false ∧
      isFinite (roundRatio true ((2 ^ 54 - 1) * 2 ^ 2044 - 1) 1) = true) := by decide +kernel

/-- The operations' clauses: a sum and a difference that are not zero and one of each that is, and a divisor that
is not. -/
theorem witness_RoundingIsToNearestEven_operations :
    (isFinite 0x7FEFFFFFFFFFFFFF#64 = true ∧ isFinite MINUS_ONE = true ∧ isFinite NZERO = true) ∧
    units ONE + units TWO ≠ 0 ∧ units ONE + units MINUS_ONE = 0 ∧ units NZERO + units NZERO = 0 ∧
    units ONE - units TWO ≠ 0 ∧ units NZERO - units PZERO = 0 ∧ magUnits 0x0000000000000001#64 ≠ 0 := by
  decide +kernel

theorem witness_OperationsDeliverTheCanonicalNaN :
    isNaN (fadd PINF NINF) = true ∧ isNaN (fsub PINF PINF) = true ∧ isNaN (fmul PZERO NINF) = true ∧
    isNaN (fdiv PZERO NZERO) = true ∧ isFinite 0x7FEFFFFFFFFFFFFF#64 = true ∧ isFinite 0x1#64 = true := by
  decide +kernel

end Sys2Proof.Tests
end

/-! ## The event parser on every record (R184) -/
section

namespace Sys2Proof.Machine

/-- A kind code other than the four of R102 is an unrecognised record. -/
theorem rawKindOfCode_unrecognised {c : BitVec 4} (h1 : c ≠ 1#4) (h2 : c ≠ 2#4) (h3 : c ≠ 3#4)
    (h4 : c ≠ 4#4) : rawKindOfCode c = .unrecognised := by
  unfold rawKindOfCode
  split
  case h_1 h => exact absurd (BitVec.eq_of_toNat_eq h) h1
  case h_2 h => exact absurd (BitVec.eq_of_toNat_eq h) h2
  case h_3 h => exact absurd (BitVec.eq_of_toNat_eq h) h3
  case h_4 h => exact absurd (BitVec.eq_of_toNat_eq h) h4
  case h_5 => rfl

section
variable {r : RawRecord}

theorem classify_noteOn_zero (hk : rawKind r = 1#4) (hv : rawVal7 r = 0#7) :
    classify r = eventWord 5#3 0#7 PZERO := by
  simp [classify, rawKindOfCode, hk, hv]

theorem classify_noteOn (hk : rawKind r = 1#4) (hv : rawVal7 r ≠ 0#7) :
    classify r = eventWord 1#3 (rawNum r) (normalised7 (rawVal7 r)) := by
  simp [classify, rawKindOfCode, hk, hv]

theorem classify_noteOff (hk : rawKind r = 2#4) : classify r = eventWord 2#3 (rawNum r) PZERO := by
  simp [classify, rawKindOfCode, hk]

theorem classify_controller (hk : rawKind r = 3#4) :
    classify r = eventWord 4#3 (rawNum r) (normalised7 (rawVal7 r)) := by
  simp [classify, rawKindOfCode, hk]

theorem classify_bend (hk : rawKind r = 4#4) :
    classify r = eventWord 3#3 0#7 (normalisedBend (rawBend r)) := by
  simp [classify, rawKindOfCode, hk]

theorem classify_unrecognised (hk : rawKindOfCode (rawKind r) = .unrecognised) :
    classify r = eventWord 5#3 0#7 PZERO := by
  simp [classify, hk]

end

/-- Settles O33, by one equation of `classify` per kind of record: the statement's fields and words are
`rawKind`, `rawNum`, `rawVal7`, `rawBend` and `eventWord` written out. -/
theorem classifyEveryRecord : Obligations.ClassifyEveryRecord := fun _ =>
  ⟨classify_noteOn_zero, classify_noteOn, classify_noteOff, classify_controller, classify_bend,
    fun h1 h2 h3 h4 => classify_unrecognised (rawKindOfCode_unrecognised h1 h2 h3 h4)⟩

end Sys2Proof.Machine
end

/-! ## The checks of a transaction (R265, R266) -/
section

namespace Sys2Proof.Machine

/-! ### What the host decoder reads (R97, R265 steps 1 to 4) -/

/-- A row builds a host command, whose word is assembled from the row's opcode and the fields; `SETSR` reads
its rate from the operand. -/
theorem hostRow_builds {sel idx opc : BitVec 8} {f : Format} {b : BitVec 8 → BitVec 8 → Wide → Instr}
    (w : Wide) (hr : hostRow opc = some (f, b)) (hi : f.usesIdx = true ∨ idx = 0#8)
    (hs : f.usesSel = true ∨ sel = 0#8) :
    (b idx sel w).port = .host ∧ cmdOf (b idx sel w) = commandWord sel idx opc ∧
      ∀ x, b idx sel w = .setsr x → x = opnd64 w := by
  have hopc : BitVec.ofNat 8 opc.toNat = opc := by simp
  unfold hostRow at hr
  split at hr <;> cases hr
  all_goals
    rename_i hn
    rw [← hopc, hn]
    simp_all [Format.usesIdx, Format.usesSel, Instr.port, cmdOf, encode]

/-- What decoding fixes of a host command: its port, its word (R96) and the rate of `SETSR`. -/
theorem decodeHost_ok {r : Request} {i : Instr} (h : decodeHost r = .ok i) :
    i.port = .host ∧ cmdOf i = r.cmd ∧ ∀ x, i = .setsr x → x = opnd64 r.opnd := by
  rcases decodeHost_cases r with
    ⟨-, he⟩ | ⟨f, b, hr, ⟨-, he⟩ | ⟨-, -, -, he⟩ | ⟨-, -, -, he⟩ | ⟨ht, hi, hs, he⟩⟩ <;>
    cases he.symm.trans h
  have hb := hostRow_builds r.opnd hr hi hs
  rwa [commandWord_of_fields r.cmd ht] at hb

/-- A transaction the decoder refuses is `ILLEGAL` by the tables. -/
theorem hostIllegal_of_decodeHost_error {r : Request} {d : DecodeError} (h : decodeHost r = .error d) :
    hostIllegal r.cmd := by
  unfold hostIllegal
  rcases decodeHost_cases r with ⟨hr, -⟩ | ⟨f, b, hr, hc⟩
  · refine Or.inl fun hmem => ?_
    have := (hostRow_isSome_iff _).2 hmem
    simp [hr] at this
  · obtain ⟨hi, hs⟩ := hostRow_format _ f b hr
    rcases hc with ⟨ht, -⟩ | ⟨-, h0, hf, -⟩ | ⟨-, h0, hf, -⟩ | ⟨-, -, -, hok⟩
    · exact Or.inr (Or.inl ht)
    · exact Or.inr (Or.inr (Or.inl ⟨h0, by simpa [hf] using hi⟩))
    · exact Or.inr (Or.inr (Or.inr (Or.inl ⟨h0, by simpa [hf] using hs⟩)))
    · rw [hok] at h; cases h

/-! ### The selector tables (R103, R106) -/

/-- The codes of scope `O`. -/
theorem mem_oscSelectors_iff (c : BitVec 8) :
    c.toNat ∈ oscSelectors ↔ (selectorOfCode c).any perOscillator = true := by
  revert c
  decide

/-- The codes of scope `G`. -/
theorem mem_globalSelectors_iff (c : BitVec 8) :
    c.toNat ∈ globalSelectors ↔ (selectorOfCode c).any (!perOscillator ·) = true := by
  revert c
  decide

theorem readableSelector_eq_false_iff (sel o : BitVec 8) : readableSelector sel o = false ↔
    sel.toNat ∉ globalSelectors ++ oscSelectors ∨ (sel.toNat ∈ globalSelectors ∧ o ≠ 0#8) := by
  rw [List.mem_append, mem_globalSelectors_iff, mem_oscSelectors_iff, readableSelector]
  cases selectorOfCode sel with
  | none => simp
  | some q => cases hq : perOscillator q <;> simp [hq]

theorem writableSelector_eq_false_iff (sel : BitVec 8) :
    writableSelector sel = false ↔ sel.toNat ∉ [0x01, 0x02, 0x03] := by
  simp [writableSelector, ← BitVec.toNat_inj, and_assoc]

theorem acceptableRate_iff (x : F64) :
    acceptableRate x = true ↔ fge x ONE = true ∧ fle x SR_MAX = true := by
  simp [acceptableRate]

/-! ### The checks of R265 on a decoded command -/

/-- Step 6 of R265 on a command: its index names no oscillator, or no note. -/
def badIndexOf (i : Instr) (s : State) : Bool :=
  match i with
  | .setmode o _ | .setfreq o _ | .setpitch o _ | .mute o | .unmute o | .usenaive o _ | .next o =>
    numOsc s ≤ o.toNat
  | .rdreg sel o => sel.toNat ∈ oscSelectors ∧ numOsc s ≤ o.toNat
  | .noteheld n => 127 < n.toNat
  | _ => false

/-- Step 7 of R265 on a command: a rate `SETSR` does not accept. -/
def badValueOf (i : Instr) : Bool :=
  match i with
  | .setsr x => !acceptableRate x
  | _ => false

/-- Steps 5 to 7 of R265 on a command, in their order; `none` when it passes them. -/
def errorOf (i : Instr) (s : State) : Option HostError :=
  if i.wellFormed = false then some .illegal
  else if badIndexOf i s = true then some .badIndex
  else if badValueOf i = true then some .badValue
  else none

theorem errorOf_illegal {i : Instr} {s : State} (hw : i.wellFormed = false) :
    errorOf i s = some .illegal := by simp [errorOf, hw]

theorem errorOf_badIndex {i : Instr} {s : State} (hw : i.wellFormed = true) (hb : badIndexOf i s = true) :
    errorOf i s = some .badIndex := by simp [errorOf, hw, hb]

theorem errorOf_badValue {i : Instr} {s : State} (hw : i.wellFormed = true) (hb : badIndexOf i s = false)
    (hv : badValueOf i = true) : errorOf i s = some .badValue := by simp [errorOf, hw, hb, hv]

theorem errorOf_passed {i : Instr} {s : State} (hw : i.wellFormed = true) (hb : badIndexOf i s = false)
    (hv : badValueOf i = false) : errorOf i s = none := by simp [errorOf, hw, hb, hv]

section
variable {i : Instr} (hp : i.port = .host)
include hp

/-- The tables call a command's own word `ILLEGAL` exactly when the command is no encoding. -/
theorem hostIllegal_cmdOf : hostIllegal (cmdOf i) ↔ i.wellFormed = false := by
  cases i with
  | penq => cases hp
  | prawin => cases hp
  | rdreg sel o =>
    simp only [Instr.wellFormed, readableSelector_eq_false_iff]
    simp [hostIllegal, cmdOf, encode, hostOpcodes, idxOpcodes, selOpcodes]
  | wrcsr sel v =>
    simp only [Instr.wellFormed, writableSelector_eq_false_iff]
    simp [hostIllegal, cmdOf, encode, hostOpcodes, idxOpcodes, selOpcodes]
  | _ => simp [hostIllegal, cmdOf, encode, Instr.wellFormed, hostOpcodes, idxOpcodes, selOpcodes]

theorem hostBadIndex_cmdOf (s : State) : hostBadIndex (cmdOf i) s ↔ badIndexOf i s = true := by
  cases i with
  | penq => cases hp
  | prawin => cases hp
  | _ => simp [hostBadIndex, cmdOf, encode, badIndexOf, oscOpcodes]

theorem hostBadValue_cmdOf {w : Wide} (hx : ∀ x, i = .setsr x → x = opnd64 w) :
    hostBadValue ⟨cmdOf i, w⟩ ↔ badValueOf i = true := by
  cases i with
  | penq => cases hp
  | prawin => cases hp
  | setsr x =>
    rw [hx x rfl]
    simp [hostBadValue, cmdOf, encode, badValueOf, ← acceptableRate_iff]
  | _ => simp [hostBadValue, cmdOf, encode, badValueOf]

end

/-! ### How a command ends -/

/-- How a command ends when the checks give it an error, or none: with that error alone, or, if it ends at all,
with no error response. -/
def EndsBy (i : Instr) (s : State) : Option HostError → Prop
  | some e => exec i s = failHost e (cmdOf i) s
  | none => ∀ t, exec i s = .next t → t.hostResp = none ∨ ∃ res, t.hostResp = some ⟨.ok, res⟩

theorem EndsBy.ok {i : Instr} {s u : State} {res : Wide} (h : exec i s = okHost res u) :
    EndsBy i s none := by
  intro t ht
  rw [h] at ht
  cases ht
  exact Or.inr ⟨res, rfl⟩

/-- A command whose one check is that of its oscillator. -/
theorem endsBy_errorOf_of_oscillator {i : Instr} {o : BitVec 8} {s : State} (hw : i.wellFormed = true)
    (hb : badIndexOf i s = decide (numOsc s ≤ o.toNat)) (hv : badValueOf i = false)
    (h : (∃ v, IsOsc s o.toNat v ∧ EndsBy i s none) ∨
      (numOsc s ≤ o.toNat ∧ exec i s = failHost .badIndex (cmdOf i) s)) : EndsBy i s (errorOf i s) := by
  rcases h with ⟨v, ho, h⟩ | ⟨hle, h⟩
  · rwa [errorOf_passed hw (hb.trans (decide_eq_false ho.index_lt.not_ge)) hv]
  · rwa [errorOf_badIndex hw (hb.trans (decide_eq_true hle))]

/-- The same for a command that writes its oscillator and then answers `OK`. -/
theorem endsBy_errorOf_of_setter {i : Instr} {o : BitVec 8} {s : State} {f : Osc → State}
    (hw : i.wellFormed = true) (hb : badIndexOf i s = decide (numOsc s ≤ o.toNat))
    (hv : badValueOf i = false)
    (h : (∃ v, IsOsc s o.toNat v ∧ exec i s = okHost 0#128 (f v)) ∨
      (numOsc s ≤ o.toNat ∧ exec i s = failHost .badIndex (cmdOf i) s)) : EndsBy i s (errorOf i s) :=
  endsBy_errorOf_of_oscillator hw hb hv (h.imp_left fun ⟨v, ho, h⟩ => ⟨v, ho, .ok h⟩)

/-- Every host command ends by the error of its checks (R265 steps 5 to 8). -/
theorem endsBy_errorOf {i : Instr} (hp : i.port = .host) (s : State) : EndsBy i s (errorOf i s) := by
  cases i with
  | setmode o m => exact endsBy_errorOf_of_setter rfl rfl rfl (execSetmode_cases o m s)
  | setfreq o x => exact endsBy_errorOf_of_setter rfl rfl rfl (execSetfreq_cases o x s)
  | setpitch o x => exact endsBy_errorOf_of_setter rfl rfl rfl (execSetpitch_cases o x s)
  | mute o => exact endsBy_errorOf_of_setter rfl rfl rfl (execMute_cases o s)
  | unmute o => exact endsBy_errorOf_of_setter rfl rfl rfl (execUnmute_cases o s)
  | usenaive o b => exact endsBy_errorOf_of_setter rfl rfl rfl (execUsenaive_cases o b s)
  | next o =>
    refine endsBy_errorOf_of_oscillator (o := o) rfl rfl rfl ?_
    rcases execNext_cases o s with ⟨v, p, ho, -, h⟩ | ⟨v, ho, -, h⟩ | h
    · exact Or.inl ⟨v, ho, .ok h⟩
    · exact Or.inl ⟨v, ho, fun t ht => nomatch h.symm.trans ht⟩
    · exact Or.inr h
  | setsr x =>
    rcases execSetsr_cases x s with ⟨hx, h⟩ | ⟨hx, h⟩
    · rw [errorOf_passed rfl rfl (by simp [badValueOf, hx])]
      exact .ok h
    · rwa [errorOf_badValue rfl rfl (by simp [badValueOf, hx])]
  | noteheld n =>
    rcases execNoteheld_cases n s with ⟨hn, h⟩ | ⟨hn, h⟩
    · rw [errorOf_passed rfl (by simpa [badIndexOf] using hn) rfl]
      exact .ok h
    · rwa [errorOf_badIndex rfl (by simpa [badIndexOf] using hn)]
  | rdreg sel o =>
    rcases execRdreg_cases sel o s with ⟨hr, h⟩ | ⟨q, v, hq, hok, ho, h⟩ | ⟨q, hq, hosc, hle, h⟩
    · rwa [errorOf_illegal (i := .rdreg sel o) hr]
    · have hread : readableSelector sel o = true := by simpa [readableSelector, hq] using hok
      rw [errorOf_passed (i := .rdreg sel o) hread (by simp [badIndexOf, ho.index_lt]) rfl]
      exact .ok h
    · have hread : readableSelector sel o = true := by simp [readableSelector, hq, hosc]
      have hsel : sel.toNat ∈ oscSelectors := by simp [mem_oscSelectors_iff, hq, hosc]
      rwa [errorOf_badIndex (i := .rdreg sel o) hread (by simp [badIndexOf, hsel, hle])]
  | wrcsr sel v =>
    rcases execWrcsr_cases sel v s with ⟨rfl, h⟩ | ⟨rfl, h⟩ | ⟨rfl, h⟩ | ⟨hw, h⟩
    · exact .ok h
    · exact .ok h
    · exact .ok h
    · rwa [errorOf_illegal (i := .wrcsr sel v) hw]
  | runperiod n => exact fun t ht => by cases ht; exact Or.inl rfl
  | penq => cases hp
  | prawin => cases hp
  | nop => exact .ok rfl
  | deq => exact .ok rfl
  | tick => exact .ok rfl
  | getfreq => exact .ok rfl
  | getvel => exact .ok rfl
  | getbend => exact .ok rfl
  | getnote => exact .ok rfl

/-! ### A transaction that starts -/

theorem step_startsHost {s : State} {rest : List Move} {r : Request} {ps : List Request}
    (hs : s.sched = .host :: rest) (hq : s.seq = .idle) (hp : s.hostPort = r :: ps) :
    step s = runHost r { s with sched := rest, hostPort := ps } :=
  (step_cons hs).trans (hostMove_start hq hp)

theorem step_startsProducer {s : State} {rest : List Move} {r : Request} {ps : List Request}
    (hs : s.sched = .producer :: rest) (hpen : s.ctrl.pen = true) (hp : s.prodPort = r :: ps) :
    step s = runProducer r { s with sched := rest, prodPort := ps } :=
  (step_cons hs).trans (producerMove_start hpen hp)

/-- A decoded transaction whose command has an error answers with that error alone. -/
theorem runHost_of_errorOf {r : Request} {i : Instr} {s : State} {e : HostError} (hd : decodeHost r = .ok i)
    (he : errorOf i s = some e) : runHost r s = failHost e r.cmd s := by
  obtain ⟨hp, hc, -⟩ := decodeHost_ok hd
  have hend := endsBy_errorOf hp s
  rw [he] at hend
  rw [runHost, hd, ← hc]
  exact hend

/-- Whichever of decoder and command finds it, what the tables call `ILLEGAL` answers so (steps 1 to 5). -/
theorem runHost_of_illegal {r : Request} {s : State} (hill : hostIllegal r.cmd) :
    runHost r s = failHost .illegal r.cmd s := by
  cases hd : decodeHost r with
  | error d => rw [runHost, hd]
  | ok i =>
    obtain ⟨hp, hc, -⟩ := decodeHost_ok hd
    rw [← hc, hostIllegal_cmdOf hp] at hill
    exact runHost_of_errorOf hd (errorOf_illegal hill)

section
variable {r : Request} {s : State} (hill : ¬ hostIllegal r.cmd)
include hill

/-- What the tables do not call `ILLEGAL` decodes, to a command whose other checks are those of the tables. -/
theorem decodeHost_of_not_illegal : ∃ i, decodeHost r = .ok i ∧ i.port = .host ∧ i.wellFormed = true ∧
    (hostBadIndex r.cmd s ↔ badIndexOf i s = true) ∧ (hostBadValue r ↔ badValueOf i = true) := by
  cases hd : decodeHost r with
  | error d => exact absurd (hostIllegal_of_decodeHost_error hd) hill
  | ok i =>
    obtain ⟨hp, hc, hx⟩ := decodeHost_ok hd
    have hv := hostBadValue_cmdOf hp hx
    rw [← hc, hostIllegal_cmdOf hp, Bool.not_eq_false] at hill
    rw [hc] at hv
    exact ⟨i, rfl, hp, hill, hc ▸ hostBadIndex_cmdOf hp s, hv⟩

theorem runHost_of_badIndex (hb : hostBadIndex r.cmd s) : runHost r s = failHost .badIndex r.cmd s := by
  obtain ⟨i, hd, -, hw, hidx, -⟩ := decodeHost_of_not_illegal (s := s) hill
  exact runHost_of_errorOf hd (errorOf_badIndex hw (hidx.1 hb))

theorem runHost_of_badValue (hb : ¬ hostBadIndex r.cmd s) (hv : hostBadValue r) :
    runHost r s = failHost .badValue r.cmd s := by
  obtain ⟨i, hd, -, hw, hidx, hval⟩ := decodeHost_of_not_illegal (s := s) hill
  exact runHost_of_errorOf hd (errorOf_badValue hw (Bool.eq_false_iff.2 (mt hidx.2 hb)) (hval.1 hv))

theorem runHost_of_passed (hb : ¬ hostBadIndex r.cmd s) (hv : ¬ hostBadValue r) :
    ∃ i, decodeHost r = .ok i ∧ runHost r s = exec i s ∧
      ∀ t, runHost r s = .next t → t.hostResp = none ∨ ∃ res, t.hostResp = some ⟨.ok, res⟩ := by
  obtain ⟨i, hd, hp, hw, hidx, hval⟩ := decodeHost_of_not_illegal (s := s) hill
  have hrun : runHost r s = exec i s := by rw [runHost, hd]
  have hend := endsBy_errorOf hp s
  rw [errorOf_passed hw (Bool.eq_false_iff.2 (mt hidx.2 hb)) (Bool.eq_false_iff.2 (mt hval.2 hv))] at hend
  exact ⟨i, hd, hrun, hrun ▸ hend⟩

end

/-- Settles O7: the tables' conditions on a word are conditions on the command it decodes to
(`decodeHost_of_not_illegal`), and every command ends by the first of them that holds (`endsBy_errorOf`). -/
theorem hostChecksInOrder : Obligations.HostChecksInOrder := by
  intro s rest r ps hs hq hport
  let u : State := { s with sched := rest, hostPort := ps }
  rw [step_startsHost hs hq hport]
  exact ⟨runHost_of_illegal, runHost_of_badIndex (s := u), runHost_of_badValue (s := u),
    runHost_of_passed (s := u)⟩

/-! ### The producer port (R98, R266) -/

/-- The producer decoder refuses exactly the words the map makes `ILLEGAL`. -/
theorem decodeProducer_cases (r : Request) :
    (producerIllegal r.cmd ∧ ∃ d, decodeProducer r = .error d) ∨
    (¬ producerIllegal r.cmd ∧ ∃ i, decodeProducer r = .ok i) := by
  unfold decodeProducer producerIllegal
  split
  case h_1 hopc => by_cases h : r.cmd.extractLsb' 8 24 = 0#24 <;> simp [hopc, h]
  case h_2 hopc => by_cases h : r.cmd.extractLsb' 8 24 = 0#24 <;> simp [hopc, h]
  case h_3 h1 h2 => exact Or.inl ⟨Or.inl ⟨h1, h2⟩, _, rfl⟩

/-- Settles O8, by the two answers of the producer decoder. -/
theorem producerChecks : Obligations.ProducerChecks := by
  intro s rest r ps hs hpen hport
  rw [step_startsProducer hs hpen hport, runProducer]
  rcases decodeProducer_cases r with ⟨hill, d, hd⟩ | ⟨hill, i, hd⟩ <;> rw [hd]
  · exact ⟨fun _ => rfl, fun h => absurd hill h⟩
  · exact ⟨fun h => absurd h hill, fun _ => ⟨i, rfl, rfl⟩⟩

end Sys2Proof.Machine
end

/-! ## Decoding and encoding (R78, R92 to R98, R105) -/
section

namespace Sys2Proof

@[simp] theorem opnd64_setWidth (x : BitVec 64) : opnd64 (x.setWidth 128) = x :=
  extract_setWidth (by decide) x

@[simp] theorem opnd32_setWidth (n : BitVec 32) : opnd32 (n.setWidth 128) = n :=
  extract_setWidth (by decide) n

/-- The mode codes are read back (R104). -/
@[simp] theorem modeOfCode_modeCode (m : Mode) : Machine.modeOfCode (Machine.modeCode m) = m := by
  cases m <;> decide

@[simp] theorem modeCode_modeOfCode (c : BitVec 2) : Machine.modeCode (Machine.modeOfCode c) = c := by
  revert c; decide

/-- A word of format N decodes to its row's command (R97). -/
theorem decodeHost_formatN (opc : BitVec 8) {b : BitVec 8 → BitVec 8 → Wide → Instr} (w : Wide)
    (hr : hostRow opc = some (.n, b)) : decodeHost ⟨commandWord 0#8 0#8 opc, w⟩ = .ok (b 0#8 0#8 w) :=
  decodeHost_commandWord w hr (.inr rfl) (.inr rfl)

/-- A word of format I decodes to its row's command (R97). -/
theorem decodeHost_formatI (o opc : BitVec 8) {b : BitVec 8 → BitVec 8 → Wide → Instr} (w : Wide)
    (hr : hostRow opc = some (.i, b)) : decodeHost ⟨commandWord 0#8 o opc, w⟩ = .ok (b o 0#8 w) :=
  decodeHost_commandWord w hr (.inl rfl) (.inr rfl)

/-- The word of `RDREG` (R97). -/
theorem decodeHost_rdreg (sel o : BitVec 8) (w : Wide) :
    decodeHost ⟨commandWord sel o 0x30#8, w⟩ = .ok (.rdreg sel o) :=
  decodeHost_commandWord (opc := 0x30#8) (b := fun o sel _ => .rdreg sel o) w rfl (.inl rfl) (.inl rfl)

/-- The word of `WRCSR` (R97). -/
theorem decodeHost_wrcsr (sel : BitVec 8) (w : Wide) :
    decodeHost ⟨commandWord sel 0#8 0x31#8, w⟩ = .ok (.wrcsr sel (opnd64 w)) :=
  decodeHost_commandWord (opc := 0x31#8) (b := fun _ sel w => .wrcsr sel (opnd64 w)) w rfl (.inr rfl) (.inl rfl)

/-- `P.ENQ` reads the fields of its operand (R98, R105). -/
theorem decodeProducer_enq (w : Wide) : decodeProducer ⟨0x00000001#32, w⟩ =
    .ok (.penq (Machine.eventTag w) (Machine.eventKey w) (Machine.eventValue w)) := by
  simp [decodeProducer, fieldOpc]

/-- `P.RAWIN` reads the record in the low half of its operand (R98, R105). -/
theorem decodeProducer_rawin (w : Wide) : decodeProducer ⟨0x00000002#32, w⟩ = .ok (.prawin (opnd64 w)) := by
  simp [decodeProducer, fieldOpc]

/-- Settles O1, by the format of the opcode's row and the field the command reads of its operand. -/
theorem decodeOfEncodeIsTheCommand : Obligations.DecodeOfEncodeIsTheCommand := by
  intro i
  cases i with
  | setmode o m =>
    refine (decodeHost_formatI o 0x01#8 _ rfl).trans ?_
    rw [extract_setWidth (by decide), modeOfCode_modeCode]
  | setfreq o x => exact (decodeHost_formatI o 0x02#8 _ rfl).trans (by rw [opnd64_setWidth])
  | setpitch o x => exact (decodeHost_formatI o 0x03#8 _ rfl).trans (by rw [opnd64_setWidth])
  | usenaive o b => exact (decodeHost_formatI o 0x06#8 _ rfl).trans (by cases b <;> rfl)
  | mute o => exact decodeHost_formatI o 0x04#8 _ rfl
  | unmute o => exact decodeHost_formatI o 0x05#8 _ rfl
  | next o => exact decodeHost_formatI o 0x07#8 _ rfl
  | noteheld n => exact decodeHost_formatI n 0x12#8 _ rfl
  | setsr x => exact (decodeHost_formatN 0x08#8 _ rfl).trans (by rw [opnd64_setWidth x])
  | runperiod n => exact (decodeHost_formatN 0x20#8 _ rfl).trans (by rw [opnd32_setWidth n])
  | nop => exact decodeHost_formatN 0x00#8 0#128 rfl
  | deq => exact decodeHost_formatN 0x10#8 0#128 rfl
  | tick => exact decodeHost_formatN 0x11#8 0#128 rfl
  | getfreq => exact decodeHost_formatN 0x13#8 0#128 rfl
  | getvel => exact decodeHost_formatN 0x14#8 0#128 rfl
  | getbend => exact decodeHost_formatN 0x15#8 0#128 rfl
  | getnote => exact decodeHost_formatN 0x16#8 0#128 rfl
  | rdreg sel o => exact decodeHost_rdreg sel o _
  | wrcsr sel v => exact (decodeHost_wrcsr sel _).trans (by rw [opnd64_setWidth])
  | penq tag key x =>
    obtain ⟨ht, hk, hx⟩ := eventWord_fields tag key x
    exact (decodeProducer_enq _).trans (by rw [ht, hk, hx])
  | prawin rec => exact (decodeProducer_rawin _).trans (by rw [opnd64_setWidth rec])

/-- A command word with nothing above its opcode is that opcode (R98). -/
theorem eq_commandWord_of_opc {c : CmdWord} {opc : BitVec 8} (h0 : c.extractLsb' 8 24 = 0#24)
    (ho : (fieldOpc c).toNat = opc.toNat) : commandWord 0#8 0#8 opc = c := by
  have h := congrArg BitVec.toNat h0
  rw [BitVec.extractLsb'_toNat, Nat.shiftRight_eq_div_pow, BitVec.toNat_ofNat] at h
  rw [fieldOpc_toNat] at ho
  refine BitVec.eq_of_toNat_eq ?_
  rw [commandWord_toNat, ← ho, BitVec.toNat_ofNat]
  omega

/-- What decoding fixes of a producer command: its port and its word (R96, R98). -/
theorem decodeProducer_ok {r : Request} {i : Instr} (h : decodeProducer r = .ok i) :
    i.port = .producer ∧ cmdOf i = r.cmd := by
  unfold decodeProducer at h
  split at h
  case h_1 ho =>
    split at h
    · cases h
    · rename_i h0
      cases h
      exact ⟨rfl, eq_commandWord_of_opc (not_not.1 h0) ho⟩
  case h_2 ho =>
    split at h
    · cases h
    · rename_i h0
      cases h
      exact ⟨rfl, eq_commandWord_of_opc (not_not.1 h0) ho⟩
  case h_3 => cases h

/-- Settles O2, port by port. -/
theorem decodedWordHasNoOtherBits : Obligations.DecodedWordHasNoOtherBits := by
  intro p r i h
  cases p with
  | host => exact ⟨(Machine.decodeHost_ok h).1, (Machine.decodeHost_ok h).2.1⟩
  | producer => exact decodeProducer_ok h

/-- Settles O3, by running the two decoders on the ten words. -/
theorem listedWordsDecode : Obligations.ListedWordsDecode := by
  unfold Obligations.ListedWordsDecode
  decide

/-! ### Bytes (R78) -/

@[simp] theorem length_bytesOfWord {w : Nat} (n : Nat) (v : BitVec w) : (bytesOfWord n v).length = n := by
  simp [bytesOfWord]

/-- Byte `k` of a word is its bits `8k+7:8k` (R78). -/
theorem getElem?_bytesOfWord {w n k : Nat} (v : BitVec w) (h : k < n) :
    (bytesOfWord n v)[k]? = some (v.extractLsb' (8 * k) 8) := by
  simp [bytesOfWord, h]

/-- The bytes of a whole word give it back. -/
theorem ofNat_natOfBytes_bytesOfWord (n : Nat) (v : BitVec (8 * n)) :
    BitVec.ofNat (8 * n) (natOfBytes (bytesOfWord n v)) = v := by
  rw [natOfBytes_bytesOfWord, Nat.mod_eq_of_lt v.isLt, BitVec.ofNat_toNat, BitVec.setWidth_eq]

/-- A serialised transaction at the head of a stream is read whole. -/
theorem requestOfBytes_bytesOfRequest (r : Request) (rest : List Byte) :
    requestOfBytes (bytesOfRequest r ++ rest) = some (r, rest) := by
  have hc : (bytesOfWord 4 r.cmd).length = 4 := length_bytesOfWord 4 r.cmd
  have ho : (bytesOfWord 16 r.opnd).length = 16 := length_bytesOfWord 16 r.opnd
  have e1 : (bytesOfRequest r ++ rest).take 4 = bytesOfWord 4 r.cmd := by
    rw [bytesOfRequest, List.append_assoc, List.take_left' hc]
  have e2 : (bytesOfRequest r ++ rest).drop 4 = bytesOfWord 16 r.opnd ++ rest := by
    rw [bytesOfRequest, List.append_assoc, List.drop_left' hc]
  have e3 : (bytesOfRequest r ++ rest).drop 20 = rest :=
    List.drop_left' (by simp [bytesOfRequest])
  have hlen : ¬ (bytesOfRequest r ++ rest).length < 20 := by simp [bytesOfRequest]; omega
  rw [requestOfBytes, if_neg hlen, e1, e2, e3, List.take_left' ho,
    ofNat_natOfBytes_bytesOfWord 4 r.cmd, ofNat_natOfBytes_bytesOfWord 16 r.opnd]

/-- Settles O4. -/
theorem serialisedTransactionIsLittleEndian : Obligations.SerialisedTransactionIsLittleEndian := by
  refine ⟨fun r k hk => ?_, fun r k hk => ?_, requestOfBytes_bytesOfRequest⟩
  · rw [bytesOfRequest, List.getElem?_append_left (by simpa using hk), getElem?_bytesOfWord _ hk]
  · rw [bytesOfRequest, List.getElem?_append_right (by simp), length_bytesOfWord, Nat.add_sub_cancel_left,
      getElem?_bytesOfWord _ hk]

end Sys2Proof
end

/-! ## What one command and one entry of the schedule can do -/
section

namespace Sys2Proof.Machine

/-! ### Host commands -/

/-- What an oscillator command on index `o` makes of its oscillator `v` under the rate `sr` (R133 to R140). -/
inductive OscCommand (sr : F64) (o : BitVec 8) (v : Osc) : Instr → Osc → Prop where
  | setmode (m : Mode) : OscCommand sr o v (.setmode o m) { v with mode := m }
  | setfreq (x : F64) : OscCommand sr o v (.setfreq o x) (updateInc sr { v with freq := x })
  | setpitch (x : F64) : OscCommand sr o v (.setpitch o x) (updateInc sr { v with pitch := x })
  | mute : OscCommand sr o v (.mute o) { v with muted := true }
  | unmute : OscCommand sr o v (.unmute o) { v with muted := false }
  | usenaive (b : Bool) : OscCommand sr o v (.usenaive o b) { v with naive := b }
  | next {p : F64} (hp : advancePhase v.phase v.inc = some p) :
      OscCommand sr o v (.next o) { v with last := lastAfterSample v, phase := p }

/-- The next states of a host command: an error response, an answer that leaves everything else, or the
command's own effect with its answer (R261 to R264). -/
inductive HostEffect (s : State) : Instr → State → Prop where
  | error (i : Instr) (e : HostError) : HostEffect s i (raiseHost e (cmdOf i) s)
  | answer (i : Instr) (res : Wide) : HostEffect s i (respondHost .ok res s)
  | oscillator {i : Instr} {o : BitVec 8} {v v' : Osc} (res : Wide) (hv : IsOsc s o.toNat v)
      (hc : OscCommand s.sr o v i v') : HostEffect s i (respondHost .ok res (putOsc o v' s))
  | setsr {x : F64} (hx : acceptableRate x = true) : HostEffect s (.setsr x) (respondHost .ok 0#128
      { s with sr := x, osc := mapOsc (fun v => { v with stale := true }) s.osc })
  | deq : HostEffect s .deq (respondHost .ok (fifoPop s).1 (fifoPop s).2)
  | tick : HostEffect s .tick (respondHost .ok (tickBody s).1 (tickBody s).2)
  | runperiod (n : BitVec 32) : HostEffect s (.runperiod n)
      { (tickBody s).2 with seq := .couple n (tickBody s).1, hostResp := none }
  | ctrl (v : BitVec 64) :
      HostEffect s (.wrcsr 0x01#8 v) (respondHost .ok 0#128 { s with ctrl := ctrlOfWord v })
  | status (v : BitVec 64) :
      HostEffect s (.wrcsr 0x02#8 v) (respondHost .ok 0#128 (clearSticky (v.extractLsb' 0 5) s))
  | drops (v : BitVec 64) :
      HostEffect s (.wrcsr 0x03#8 v) (respondHost .ok 0#128 { s with drops := v.extractLsb' 0 32 })

section
variable {i : Instr} {s t : State}

theorem HostEffect.of_okHost {u : State} {res : Wide} (hx : exec i s = okHost res u) (h : exec i s = .next t)
    (he : HostEffect s i (respondHost .ok res u)) : HostEffect s i t := by
  cases hx.symm.trans h; exact he

theorem HostEffect.of_failHost {e : HostError} (hx : exec i s = failHost e (cmdOf i) s)
    (h : exec i s = .next t) : HostEffect s i t := by
  cases hx.symm.trans h; exact .error i e

/-- The commands that write their oscillator and answer `OK`, or answer `BAD_INDEX`. -/
theorem HostEffect.of_setter {o : BitVec 8} {f : Osc → Osc} (h : exec i s = .next t)
    (hc : ∀ v, OscCommand s.sr o v i (f v))
    (hx : (∃ v, IsOsc s o.toNat v ∧ exec i s = okHost 0#128 (putOsc o (f v) s)) ∨
      (numOsc s ≤ o.toNat ∧ exec i s = failHost .badIndex (cmdOf i) s)) : HostEffect s i t := by
  rcases hx with ⟨v, hv, hx⟩ | ⟨-, hx⟩
  · exact .of_okHost hx h (.oscillator _ hv (hc v))
  · exact .of_failHost hx h

/-- Every host command that ends has one of these effects. -/
theorem exec_host_effect (hp : i.port = .host) (h : exec i s = .next t) : HostEffect s i t := by
  cases i with
  | setmode o m => exact .of_setter h (fun _ => .setmode m) (execSetmode_cases o m s)
  | setfreq o x => exact .of_setter h (fun _ => .setfreq x) (execSetfreq_cases o x s)
  | setpitch o x => exact .of_setter h (fun _ => .setpitch x) (execSetpitch_cases o x s)
  | mute o => exact .of_setter h (fun _ => .mute) (execMute_cases o s)
  | unmute o => exact .of_setter h (fun _ => .unmute) (execUnmute_cases o s)
  | usenaive o b => exact .of_setter h (fun _ => .usenaive b) (execUsenaive_cases o b s)
  | next o =>
    rcases execNext_cases o s with ⟨v, p, hv, hp, hx⟩ | ⟨v, -, -, hx⟩ | ⟨-, hx⟩
    · exact .of_okHost hx h (.oscillator _ hv (.next hp))
    · cases hx.symm.trans h
    · exact .of_failHost hx h
  | setsr x =>
    rcases execSetsr_cases x s with ⟨hr, hx⟩ | ⟨-, hx⟩
    · exact .of_okHost hx h (.setsr hr)
    · exact .of_failHost hx h
  | noteheld n =>
    rcases execNoteheld_cases n s with ⟨-, hx⟩ | ⟨-, hx⟩
    · exact .of_okHost hx h (.answer _ _)
    · exact .of_failHost hx h
  | rdreg sel o =>
    rcases execRdreg_cases sel o s with ⟨-, hx⟩ | ⟨_, _, -, -, -, hx⟩ | ⟨_, -, -, -, hx⟩
    · exact .of_failHost hx h
    · exact .of_okHost hx h (.answer _ _)
    · exact .of_failHost hx h
  | wrcsr sel v =>
    rcases execWrcsr_cases sel v s with ⟨rfl, hx⟩ | ⟨rfl, hx⟩ | ⟨rfl, hx⟩ | ⟨-, hx⟩
    · exact .of_okHost hx h (.ctrl v)
    · exact .of_okHost hx h (.status v)
    · exact .of_okHost hx h (.drops v)
    · exact .of_failHost hx h
  | deq => cases h; exact .deq
  | tick => cases h; exact .tick
  | runperiod n => cases h; exact .runperiod n
  | penq => cases hp
  | prawin => cases hp
  | nop => cases h; exact .answer _ _
  | getfreq => cases h; exact .answer _ _
  | getvel => cases h; exact .answer _ _
  | getbend => cases h; exact .answer _ _
  | getnote => cases h; exact .answer _ _

/-- A producer command is one push of its word. -/
theorem exec_producer (hp : i.port = .producer) (s : State) :
    ∃ e, pushedWord i = some e ∧ exec i s = .next (enqueue e s) := by
  cases i with
  | penq => exact ⟨_, rfl, rfl⟩
  | prawin => exact ⟨_, rfl, rfl⟩
  | _ => cases hp

end

/-! ### The render sequencer -/

/-- The next states of a render step while a period is in progress (R234 to R237). -/
inductive RenderEffect (s : State) : State → Prop where
  | couple {n : BitVec 32} {e : EventWord} (hq : s.seq = .couple n e) :
      RenderEffect s { (if s.ctrl.auto then couple s else s) with seq := .samples n e }
  | wait {n : BitVec 32} {e : EventWord} {y : F64} (hq : s.seq = .samples n e) (hn : n ≠ 0#32)
      (hy : s.sout = some y) : RenderEffect s s
  | sample {n : BitVec 32} {e : EventWord} {p : F64} (hq : s.seq = .samples n e) (hn : n ≠ 0#32)
      (hs : s.sout = none) (hp : advancePhase s.osc.first.phase s.osc.first.inc = some p) :
      RenderEffect s { s with
        osc := { s.osc with first := { s.osc.first with last := lastAfterSample s.osc.first, phase := p } }
        sout := some (sampleValue s.osc.first), seq := .samples (n - 1#32) e }
  | finish {e : EventWord} (hq : s.seq = .samples 0#32 e) :
      RenderEffect s (respondHost .ok e { s with seq := .idle })

theorem renderStep_effect {s t : State} (hb : s.seq ≠ .idle) (h : renderStep s = .next t) :
    RenderEffect s t := by
  rcases renderStep_cases s with ⟨hq, -⟩ | ⟨n, e, hq, hx⟩ | ⟨n, e, hq, rfl, hx⟩ | ⟨n, e, hq, hn, hx⟩
  · exact absurd hq hb
  · cases hx.symm.trans h; exact .couple hq
  · cases hx.symm.trans h; exact .finish hq
  · rcases sampleStep_cases (n - 1#32) e s with ⟨y, hy, hs⟩ | ⟨h0, p, hp, hs⟩ | ⟨-, -, hs⟩ <;>
      cases (hx.trans hs).symm.trans h
    · exact .wait hq hn hy
    · exact .sample hq hn h0 hp

/-! ### An entry of the schedule -/

/-- The next states of an entry of the schedule. -/
inductive MoveEffect (s : State) : Move → State → Prop where
  | hold (m : Move) : MoveEffect s m s
  | presentHost (r : Request) : MoveEffect s (.presentHost r) { s with hostPort := s.hostPort ++ [r] }
  | presentProducer (r : Request) : MoveEffect s (.presentProducer r) { s with prodPort := s.prodPort ++ [r] }
  | render {t : State} (h : RenderEffect s t) : MoveEffect s .host t
  | badWord (r : Request) (ps : List Request) :
      MoveEffect s .host (raiseHost .illegal r.cmd { s with hostPort := ps })
  | command {i : Instr} {ps : List Request} {t : State} (h : HostEffect { s with hostPort := ps } i t) :
      MoveEffect s .host t
  | badProducerWord (ps : List Request) : MoveEffect s .producer (raiseProducer { s with prodPort := ps })
  | push {i : Instr} {e : EventWord} {ps : List Request} (he : pushedWord i = some e) :
      MoveEffect s .producer (enqueue e { s with prodPort := ps })
  | syncW (h : s.wvis < s.qe.length) : MoveEffect s .syncW { s with wvis := s.wvis + 1 }
  | syncR (h : 0 < s.rfree) : MoveEffect s .syncR { s with rfree := s.rfree - 1 }
  | sink {y : F64} (h : s.sout = some y) :
      MoveEffect s .sink { s with sout := none, sinkLog := s.sinkLog ++ [y] }
  | reset : MoveEffect s .reset (resetMove s)

theorem runMove_effect {m : Move} {s t : State} (h : runMove m s = .next t) : MoveEffect s m t := by
  cases m with
  | presentHost r => cases h; exact .presentHost r
  | presentProducer r => cases h; exact .presentProducer r
  | reset => cases h; exact .reset
  | syncW =>
    cases h
    unfold syncW
    split
    · exact .syncW ‹_›
    · exact .hold _
  | syncR =>
    cases h
    unfold syncR
    split
    · exact .syncR ‹_›
    · exact .hold _
  | sink =>
    cases h
    unfold sinkMove
    split
    · exact .hold _
    · exact .sink ‹_›
  | producer =>
    rcases producerMove_cases s with ⟨hx, -⟩ | ⟨r, ps, -, -, ⟨d, -, hx⟩ | ⟨i, e, -, he, hx⟩⟩ <;>
      cases hx.symm.trans h
    · exact .hold _
    · exact .badProducerWord ps
    · exact .push he
  | host =>
    rcases hostMove_cases s with ⟨hq, hx⟩ | ⟨-, -, hx⟩ | ⟨r, ps, -, -, ⟨d, -, hx⟩ | ⟨i, hd, hx⟩⟩
    · exact .render (renderStep_effect hq (hx.symm.trans h))
    · cases hx.symm.trans h; exact .hold _
    · cases hx.symm.trans h; exact .badWord r ps
    · exact .command (exec_host_effect (decodeHost_port hd) (hx.symm.trans h))

/-- A step does nothing when the schedule is empty, and else takes its first entry. -/
theorem step_effect {s t : State} (h : step s = .next t) :
    (s.sched = [] ∧ t = s) ∨
    ∃ m rest, s.sched = m :: rest ∧ MoveEffect { s with sched := rest } m t := by
  cases hs : s.sched with
  | nil => cases (step_nil hs).symm.trans h; exact Or.inl ⟨rfl, rfl⟩
  | cons m rest => exact Or.inr ⟨m, rest, rfl, runMove_effect ((step_cons hs).symm.trans h)⟩

theorem RenderEffect.sched {s t : State} (h : RenderEffect s t) : t.sched = s.sched := by
  cases h with
  | couple => simp only; split <;> rfl
  | _ => rfl

/-- No entry of the schedule touches those after it. -/
theorem MoveEffect.sched {m : Move} {s t : State} (h : MoveEffect s m t) : t.sched = s.sched := by
  cases h with
  | render h => exact h.sched
  | command h => cases h <;> simp
  | push => simp
  | _ => rfl

/-- A step takes one entry off the schedule. -/
theorem step_sched {s t : State} (h : step s = .next t) : t.sched = s.sched.tail := by
  rcases step_effect h with ⟨hs, rfl⟩ | ⟨m, rest, hs, he⟩
  · rw [hs]; rfl
  · rw [hs, he.sched]; rfl

/-! ### The FIFO law (R68) -/

/-- In one step without a reset, what is popped and what stays is what was queued and what is accepted. -/
theorem FifoStep.law {s t : State} {accepted popped : List EventWord} (h : FifoStep s t accepted popped) :
    popped ++ t.qe = s.qe ++ accepted := by
  rcases h with ⟨hqe, -, -⟩ | ⟨e, -, hqe⟩ | ⟨e, hsqe⟩ | ⟨-, -, hqe⟩ | ⟨-, hqe⟩
  · simp [hqe]
  · simp [hqe]
  · simp [hsqe]
  · simp [hqe]
  · simp [hqe]

/-- A run of `k + 1` steps is one step and a run of `k`. -/
theorem run_succ {M : Host.Core} {k : Nat} {s t : M.State} (h : M.run (k + 1) s = .next t) :
    ∃ u, M.step s = .next u ∧ M.run k u = .next t := by
  rw [Host.Core.run] at h
  cases hs : M.step s with
  | next u => rw [hs] at h; exact ⟨u, rfl, h⟩
  | fault r => rw [hs] at h; cases h
  | refused r => rw [hs] at h; cases h

theorem acceptedBy_succ {k : Nat} {s u : State} (h : step s = .next u) :
    acceptedBy (k + 1) s = acceptsNow s ++ acceptedBy k u := by
  rw [acceptedBy, h]

theorem poppedBy_succ {k : Nat} {s u : State} (h : step s = .next u) :
    poppedBy (k + 1) s = popsNow s ++ poppedBy k u := by
  rw [poppedBy, h]

/-- Settles O52, by induction on the number of steps, each of which keeps the law (`FifoStep.law`). -/
theorem fifoLaw : Obligations.FifoLaw := by
  intro k
  induction k with
  | zero =>
    intro s t h _
    cases h
    simp [poppedBy, acceptedBy]
  | succ k ih =>
    intro s t h hr
    obtain ⟨u, hs, hu⟩ : ∃ u, step s = .next u ∧ core.run k u = .next t := run_succ h
    have hstep : popsNow s ++ u.qe = s.qe ++ acceptsNow s :=
      (step_fifo hs fun rest hrest => hr .reset (by simp [hrest]) rfl).law
    have hrest : poppedBy k u ++ t.qe = u.qe ++ acceptedBy k u :=
      ih u t hu fun m hm => by
        rw [step_sched hs] at hm
        exact hr m (List.mem_of_mem_tail (by rwa [List.tail_take_eq_take_tail]))
    calc poppedBy (k + 1) s ++ t.qe = popsNow s ++ (poppedBy k u ++ t.qe) := by
          rw [poppedBy_succ hs, List.append_assoc]
      _ = s.qe ++ acceptsNow s ++ acceptedBy k u := by rw [hrest, ← List.append_assoc, hstep]
      _ = s.qe ++ acceptedBy (k + 1) s := by rw [acceptedBy_succ hs, List.append_assoc]

end Sys2Proof.Machine
end

/-! ## Rounding and the four operations (R12 to R15) -/
section

namespace Sys2Proof.Machine

/-! ### The nearest integer -/

/-- The distances of two multiples of `D` from a value between two neighbours of it. -/
theorem step_cases_of_mul (i : Int) {D : Int} (hD : 0 < D) :
    i * D ≤ -D ∨ (i = 0 ∧ i * D = 0) ∨ (i = 1 ∧ i * D = D) ∨ 2 * D ≤ i * D := by
  obtain h | rfl | rfl | h : i ≤ -1 ∨ i = 0 ∨ i = 1 ∨ 2 ≤ i := by omega
  · exact Or.inl (by nlinarith)
  · exact Or.inr (Or.inl ⟨rfl, zero_mul D⟩)
  · exact Or.inr (Or.inr (Or.inl ⟨rfl, one_mul D⟩))
  · exact Or.inr (Or.inr (Or.inr (by nlinarith)))

/-- No multiple of `D` is nearer to `num` than the one `divNearestEven` gives, and at equal distance of another
it is even. -/
theorem divNearestEven_nearest (num : Nat) {D : Nat} (hD : 0 < D) (j : Int) :
    |(divNearestEven num D : Int) * D - num| ≤ |j * D - num| ∧
    (|(divNearestEven num D : Int) * D - num| = |j * D - num| →
      j = divNearestEven num D ∨ divNearestEven num D % 2 = 0) := by
  have hdiv : (num : Int) = (num / D : Nat) * (D : Int) + (num % D : Nat) := by
    exact_mod_cast (Nat.div_add_mod' num D).symm
  have hr := Nat.mod_lt num hD
  have hstep := step_cases_of_mul (j - (num / D : Nat)) (Int.natCast_pos.2 hD)
  have hj : j * (D : Int) - num = (j - (num / D : Nat)) * D - (num % D : Nat) := by rw [hdiv]; ring
  have hk : (divNearestEven num D : Int) * D - num
      = (divNearestEven num D - (num / D : Nat) : Int) * D - (num % D : Nat) := by rw [hdiv]; ring
  rw [hj, hk]
  clear hj hk hdiv
  unfold divNearestEven
  simp only
  generalize num / D = q at *
  generalize num % D = r at *
  generalize (j - (q : Int)) * D = p at *
  simp only [Int.abs_eq_natAbs]
  split_ifs with h1 h2
  · rw [sub_self, zero_mul]
    omega
  · rw [Nat.cast_add, Nat.cast_one, add_sub_cancel_left, one_mul]
    omega
  · rcases Nat.mod_two_eq_zero_or_one q with hq | hq <;> rw [hq]
    · rw [Nat.add_zero, sub_self, zero_mul]
      omega
    · rw [Nat.cast_add, Nat.cast_one, add_sub_cancel_left, one_mul]
      omega

/-! ### The nearest value (R12) -/

/-- Where bits were dropped, the value has all 53 bits of the kept ones. -/
theorem le_of_roundShift_pos {num den : Nat} (hd : 0 < den) (h : 0 < roundShift (num / den)) :
    2 ^ 52 * (den * 2 ^ roundShift (num / den)) ≤ num := by
  have hq : num / den ≠ 0 := by rintro hq; rw [hq] at h; exact absurd h (by decide)
  have hl : 2 ^ (52 + roundShift (num / den)) ≤ num / den := by
    have e : 52 + roundShift (num / den) = Nat.log2 (num / den) := by unfold roundShift at h ⊢; omega
    rw [e]
    exact ((Nat.log2_eq_iff hq).1 rfl).1
  have := (Nat.le_div_iff_mul_le hd).1 hl
  rwa [pow_add, mul_assoc, mul_comm (2 ^ roundShift (num / den)) den] at this

/-- The magnitude of a value that does not overflow is the nearest multiple of its last place. -/
theorem roundMag_bits (num : Nat) {den : Nat} (h : roundMag num den < 0x7FF0000000000000) :
    roundMag num den =
      divNearestEven num (den <<< roundShift (num / den)) + roundShift (num / den) * 2 ^ 52 := by
  unfold roundMag at h ⊢
  simp only at h ⊢
  omega

/-- No value of a significand of at most 53 bits, of either sign, is nearer to `num / den` than its rounding, and
at equal distance of another the bits of the rounding are even. -/
theorem roundMag_nearest {num den k sh : Nat} (hd : 0 < den) (h : roundMag num den < 0x7FF0000000000000)
    (hk : k < 2 ^ 53) {u : Int} (hu : u.natAbs = k * 2 ^ sh) :
    |(magUnits (BitVec.ofNat 64 (roundMag num den)) : Int) * den - num| ≤ |u * den - num| ∧
    (|(magUnits (BitVec.ofNat 64 (roundMag num den)) : Int) * den - num| = |u * den - num| →
      u = magUnits (BitVec.ofNat 64 (roundMag num den)) ∨ roundMag num den % 2 = 0) := by
  have hlow := le_of_roundShift_pos (num := num) hd
  rw [magUnits_roundMag num hd h, roundMag_bits num h, Nat.shiftLeft_eq]
  generalize roundShift (num / den) = t at *
  have hD : 0 < den * 2 ^ t := Nat.mul_pos hd (by positivity)
  have hnear := divNearestEven_nearest num hD
  generalize divNearestEven num (den * 2 ^ t) = q at *
  have hq : ((q * 2 ^ t : Nat) : Int) * den = q * ((den * 2 ^ t : Nat) : Int) := by push_cast; ring
  rw [hq]
  rcases Nat.lt_or_ge sh t with hlt | hge
  · -- `u` is below the 53-bit values with this last place, so the least of those is nearer.
    have hu' : u < 2 ^ 52 * 2 ^ t := by
      have h1 : k * 2 ^ sh < 2 ^ 52 * 2 ^ t := by
        calc k * 2 ^ sh < 2 ^ 53 * 2 ^ sh := Nat.mul_lt_mul_of_pos_right hk (by positivity)
          _ = 2 ^ 52 * 2 ^ (sh + 1) := by ring
          _ ≤ 2 ^ 52 * 2 ^ t := Nat.mul_le_mul_left _ (Nat.pow_le_pow_right two_pos hlt)
      calc u ≤ u.natAbs := Int.le_natAbs
        _ < 2 ^ 52 * 2 ^ t := by rw [hu]; exact_mod_cast h1
    have hlt' : u * den < 2 ^ 52 * ((den * 2 ^ t : Nat) : Int) := by
      calc u * den < 2 ^ 52 * 2 ^ t * den := mul_lt_mul_of_pos_right hu' (by exact_mod_cast hd)
        _ = 2 ^ 52 * ((den * 2 ^ t : Nat) : Int) := by push_cast; ring
    have hle : 2 ^ 52 * ((den * 2 ^ t : Nat) : Int) ≤ num := by exact_mod_cast hlow (by omega)
    have hnear' := (hnear (2 ^ 52)).1
    rw [abs_of_nonpos (by linarith : 2 ^ 52 * ((den * 2 ^ t : Nat) : Int) - num ≤ 0)] at hnear'
    rw [abs_of_nonpos (by linarith : u * den - num ≤ 0)]
    exact ⟨by linarith, fun he => by linarith⟩
  · obtain ⟨j, hj⟩ : ((2 ^ t : Nat) : Int) ∣ u :=
      Int.natCast_dvd.2 (hu ▸ Dvd.dvd.mul_left (pow_dvd_pow 2 hge) k)
    rw [show u * den = j * ((den * 2 ^ t : Nat) : Int) by rw [hj]; push_cast; ring]
    refine ⟨(hnear j).1, fun he => ((hnear j).2 he).imp (fun h => ?_) fun h => by omega⟩
    rw [hj, h]
    push_cast
    ring

@[simp] theorem natAbs_units (x : F64) : (units x).natAbs = magUnits x := by
  unfold units
  split <;> simp

/-- The last bit of a rounded value, whichever its sign. -/
theorem getLsbD_zero_roundRatio (neg : Bool) (num den : Nat) :
    (roundRatio neg num den).getLsbD 0 = decide (roundMag num den % 2 = 1) := by
  rw [roundRatio, withSign, BitVec.getLsbD_ofNat, Nat.testBit_zero]
  cases neg
  · simp
  · simp [Nat.add_mod]

/-- R12: no finite value is nearer than the rounded one, and of two equally near ones it is the even one. -/
theorem roundRatio_nearest (neg : Bool) (num : Nat) {den : Nat} (hd : 0 < den) (y : F64)
    (hr : isFinite (roundRatio neg num den) = true) (hy : isFinite y = true) :
    let x : Int := if neg then -(num : Int) else (num : Int)
    |units (roundRatio neg num den) * den - x| ≤ |units y * den - x| ∧
    (|units (roundRatio neg num den) * den - x| = |units y * den - x| →
      units y = units (roundRatio neg num den) ∨ (roundRatio neg num den).getLsbD 0 = false) := by
  obtain ⟨k, sh, -, hk, -, -, hm⟩ := significand_of_bits _ ((isFinite_iff y).1 hy).le
  rw [← magUnits_low] at hm
  have hfin := (isFinite_roundRatio neg num den).1 hr
  rw [units_roundRatio, getLsbD_zero_roundRatio]
  cases neg with
  | false =>
    have hnear := roundMag_nearest (u := units y) hd hfin hk (by rw [natAbs_units, hm])
    simpa using hnear
  | true =>
    have hnear := roundMag_nearest (u := -units y) hd hfin hk (by rw [Int.natAbs_neg, natAbs_units, hm])
    have hneg : ∀ a : Int, |-a * den - -(num : Int)| = |a * den - num| := fun a => by
      rw [show -a * den - -(num : Int) = -(a * den - num) by ring, abs_neg]
    have hy' : |units y * den - -(num : Int)| = |-units y * den - num| := by rw [← hneg, neg_neg]
    simp only [if_true]
    rw [hneg, hy']
    refine ⟨hnear.1, fun he => (hnear.2 he).imp (fun h => by omega) fun h => by simp [h]⟩

/-- Settles O59: the rounding function overflows where it should (`roundRatio_overflow`) and is nearest-even
(`roundRatio_nearest`), and each operation on finite operands is one rounding of the exact result. -/
theorem roundingIsToNearestEven : Obligations.RoundingIsToNearestEven := by
  refine ⟨fun neg num den hd => ?_, fun x y hx hy => ?_⟩
  · obtain ⟨hover, hinf⟩ := roundRatio_overflow neg num hd
    exact ⟨hover, hinf, fun y hr hy => roundRatio_nearest neg num hd y hr hy⟩
  · rw [fadd_finite hx hy, fsub_finite hx hy]
    exact ⟨fun h => if_neg h, fun h => if_pos h, fun h => if_neg h, fun h => if_pos h, fmul_finite hx hy,
      fun h => fdiv_finite hx hy h⟩

/-! ### NaN (R14) -/

/-- An operation that delivers a NaN delivers the canonical one. -/
def CanonicalIfNaN (z : F64) : Prop := isNaN z = true → z = CNAN

theorem CanonicalIfNaN.cnan : CanonicalIfNaN CNAN := fun _ => rfl

theorem CanonicalIfNaN.of_number {z : F64} (h : isNaN z = false) : CanonicalIfNaN z := fun hz => by
  rw [h] at hz; cases hz

theorem isNaN_of_isInf {x : F64} (h : isInf x = true) : isNaN x = false := by
  simp only [isInf, Bool.and_eq_true, beq_iff_eq] at h
  simp [isNaN, h.2]

theorem canonicalIfNaN_fadd (x y : F64) : CanonicalIfNaN (fadd x y) := by
  unfold fadd
  split
  · exact .cnan
  split
  case isTrue hx =>
    split
    · exact .cnan
    · exact .of_number (isNaN_of_isInf hx)
  split
  case isTrue hy => exact .of_number (isNaN_of_isInf hy)
  · exact .of_number (isNaN_roundSum _ _)

theorem canonicalIfNaN_fsub (x y : F64) : CanonicalIfNaN (fsub x y) := by
  unfold fsub
  split
  · exact .cnan
  · exact canonicalIfNaN_fadd x (fneg y)

@[simp] theorem isNaN_signed_infinity (neg : Bool) : isNaN (withSign neg PINF.toNat) = false := by
  cases neg <;> decide

@[simp] theorem isNaN_signed_zero (neg : Bool) : isNaN (withSign neg 0) = false := by
  cases neg <;> decide

theorem canonicalIfNaN_fmul (x y : F64) : CanonicalIfNaN (fmul x y) := by
  unfold fmul
  simp only
  split
  · exact .cnan
  split
  · split
    · exact .cnan
    · exact .of_number (isNaN_signed_infinity _)
  · exact .of_number (isNaN_roundRatio _ _ _)

theorem canonicalIfNaN_fdiv (x y : F64) : CanonicalIfNaN (fdiv x y) := by
  unfold fdiv
  simp only
  split
  · exact .cnan
  split
  · split
    · exact .cnan
    · exact .of_number (isNaN_signed_infinity _)
  split
  · exact .of_number (isNaN_signed_zero _)
  split
  · split
    · exact .cnan
    · exact .of_number (isNaN_signed_infinity _)
  · exact .of_number (isNaN_roundRatio _ _ _)

/-- Settles O60, operation by operation. -/
theorem operationsDeliverTheCanonicalNaN : Obligations.OperationsDeliverTheCanonicalNaN := fun x y =>
  ⟨canonicalIfNaN_fadd x y, canonicalIfNaN_fsub x y, canonicalIfNaN_fmul x y, canonicalIfNaN_fdiv x y,
    fun hx hy => ⟨by rw [fadd_finite hx hy]; exact isNaN_roundSum _ _,
      by rw [fsub_finite hx hy]; exact isNaN_roundSum _ _, by rw [fmul_finite hx hy]; exact isNaN_roundRatio _ _ _⟩⟩

end Sys2Proof.Machine
end

/-! ## The numeric functions (R15, R18, R19, R131, R132, R141 to R149, R184, R190) -/
section

namespace Sys2Proof.Machine

/-! ### Signs and bounds of rounded results -/

@[simp] theorem signBit_roundRatio (neg : Bool) (num den : Nat) : signBit (roundRatio neg num den) = neg :=
  signBit_withSign _ _ (lt_of_le_of_lt (roundMag_le_inf num den) (by decide))

/-- A coarse form of the relative error, of one part in ten thousand and one unit. -/
theorem magUnits_roundRatio_slack {neg : Bool} {num den : Nat} (hd : 0 < den)
    (h : isFinite (roundRatio neg num den) = true) :
    10000 * (magUnits (roundRatio neg num den) * den) ≤ 10001 * num + 10000 * den := by
  have herr := magUnits_roundMag_le num hd ((isFinite_roundRatio neg num den).1 h)
  rw [← magUnits_roundRatio neg] at herr
  generalize magUnits (roundRatio neg num den) * den = m at *
  omega

/-- A finite magnitude is below that of infinity. -/
theorem magUnits_lt_of_isFinite {x : F64} (h : isFinite x = true) : magUnits x < 2 ^ 2098 := by
  have hb := (isFinite_iff x).1 h
  rw [magUnits_low]
  calc _ ≤ magUnits (BitVec.ofNat 64 0x7FEFFFFFFFFFFFFF) := magUnits_mono (by omega) (by omega)
    _ < 2 ^ 2098 := by decide +kernel

/-- `r` is a number that is not negative, at most `big`, and a little above `num / den` units at most. -/
structure BoundedQuotient (r big : F64) (num den : Nat) : Prop where
  finite : isFinite r = true
  sign : signBit r = false
  le : magUnits r ≤ magUnits big
  slack : 10000 * (magUnits r * den) ≤ 10001 * num + 10000 * den

section
variable {x y big : F64} (hx : isFinite x = true) (sx : signBit x = false) (hy : isFinite y = true)
  (sy : signBit y = false) (hbig : isFinite big = true)
include hx sx hy sy hbig

theorem fmul_bounded (h : magUnits x * magUnits y ≤ magUnits big * oneUnits) :
    BoundedQuotient (fmul x y) big (magUnits x * magUnits y) oneUnits := by
  obtain ⟨hf, hle⟩ := magUnits_roundRatio_le false big oneUnits_pos hbig h
  rw [fmul_finite hx hy, sx, sy]
  exact ⟨hf, signBit_roundRatio _ _ _, hle, magUnits_roundRatio_slack oneUnits_pos hf⟩

theorem fdiv_bounded (h0 : 0 < magUnits y) (h : magUnits x * oneUnits ≤ magUnits big * magUnits y) :
    BoundedQuotient (fdiv x y) big (magUnits x * oneUnits) (magUnits y) := by
  obtain ⟨hf, hle⟩ := magUnits_roundRatio_le false big h0 hbig h
  rw [fdiv_finite hx hy h0.ne', sx, sy]
  exact ⟨hf, signBit_roundRatio _ _ _, hle, magUnits_roundRatio_slack h0 hf⟩

end

/-! ### The increment (R29, R132) -/

/-- The clamped frequency is a number from 0 to half the rate. -/
theorem effectiveFreq_bounds {sr : F64} (freq pitch : F64) (hf : isFinite (fmul sr HALF) = true)
    (hs : signBit (fmul sr HALF) = false) :
    isFinite (effectiveFreq sr freq pitch) = true ∧ signBit (effectiveFreq sr freq pitch) = false ∧
      magUnits (effectiveFreq sr freq pitch) ≤ magUnits (fmul sr HALF) := by
  unfold effectiveFreq
  simp only
  generalize fadd freq (deviation pitch) = f
  generalize fmul sr HALF = nyq at *
  split
  · exact ⟨by decide, by decide, Nat.zero_le _⟩
  split
  · exact ⟨hf, hs, le_rfl⟩
  · rename_i hpos hle
    obtain ⟨hn, h0⟩ := (flt_PZERO_iff f).1 (by simpa [fgt] using hpos)
    have hsf := signBit_of_units_pos h0
    have hm : magUnits f ≤ magUnits nyq := by
      simpa [fgt, flt, hn, isNaN_of_isFinite hf, units_of_signBit_false hsf, units_of_signBit_false hs] using hle
    exact ⟨isFinite_of_magUnits_lt hn (lt_of_le_of_lt hm (magUnits_lt_of_isFinite hf)), hsf, hm⟩

/-- Three roundings, of half a rate `S`, of at most that times `2π`, and of that over the rate, with `1.0` at `O`
units: the last is below 3.15. -/
theorem increment_arithmetic {S O H T N E P I : Nat} (hO : 2000000000000 ≤ O) (hS : O ≤ S) (hH : 2 * H = O)
    (hT : 10000 * T ≤ 62832 * O) (hN : 10000 * (N * O) ≤ 10001 * (S * H) + 10000 * O) (hE : E ≤ N)
    (hP : 10000 * (P * O) ≤ 10001 * (E * T) + 10000 * O)
    (hI : 10000 * (I * S) ≤ 10001 * (P * O) + 10000 * S) : I * 100 < 315 * O := by
  have hO0 : 0 < O := by omega
  have hSH : 2 * (S * H) = S * O := by rw [← hH]; ring
  have hN' : 20000 * N ≤ 10001 * S + 20000 := Nat.le_of_mul_le_mul_right (by linarith) hO0
  have hET : 10000 * (E * T) ≤ 62832 * E * O := by
    calc 10000 * (E * T) = E * (10000 * T) := by ring
      _ ≤ E * (62832 * O) := Nat.mul_le_mul_left E hT
      _ = 62832 * E * O := by ring
  have hP' : 100000000 * P ≤ 10001 * 62832 * E + 100000000 :=
    Nat.le_of_mul_le_mul_right (by linarith) hO0
  have hPS : 2000000000000 * P ≤ 6285114857266 * S := by omega
  have hPO : 2000000000000 * (P * O) ≤ 6285114857266 * O * S := by
    calc 2000000000000 * (P * O) = 2000000000000 * P * O := by ring
      _ ≤ 6285114857266 * S * O := Nat.mul_le_mul_right O hPS
      _ = 6285114857266 * O * S := by ring
  have hI' : 2000000000000 * 10000 * I ≤ 10001 * 6285114857266 * O + 2000000000000 * 10000 :=
    Nat.le_of_mul_le_mul_right (by linarith) (hO0.trans_le hS)
  omega

/-- R29: at a rate `SETSR` accepts, the increment is from `+0.0` to below 3.15. -/
theorem incrementOf_bounds {sr : F64} (freq pitch : F64) (h1 : fle ONE sr = true) (h2 : fle sr SR_MAX = true) :
    fle PZERO (incrementOf sr freq pitch) = true ∧
    units (incrementOf sr freq pitch) * 100 < 315 * (oneUnits : Int) := by
  obtain ⟨-, hn, hlow⟩ := le_of_fle h1
  obtain ⟨-, -, hhigh⟩ := le_of_fle h2
  have ss : signBit sr = false :=
    signBit_of_units_pos (lt_of_lt_of_le (by decide +kernel : 0 < units ONE) hlow)
  rw [units_of_signBit_false ss, show units ONE = (oneUnits : Int) by decide +kernel, Nat.cast_le] at hlow
  rw [units_of_signBit_false ss, units_of_signBit_false (by decide : signBit SR_MAX = false), Nat.cast_le] at hhigh
  have fs : isFinite sr = true :=
    isFinite_of_magUnits_lt hn (lt_of_le_of_lt hhigh (magUnits_lt_of_isFinite (by decide)))
  have nyq := fmul_bounded (big := SR_MAX) fs ss (y := HALF) (by decide) (by decide) (by decide)
    (Nat.mul_le_mul hhigh (by decide +kernel))
  obtain ⟨fe, se, hle⟩ := effectiveFreq_bounds freq pitch nyq.finite nyq.sign
  unfold incrementOf
  generalize effectiveFreq sr freq pitch = eff at *
  -- `2^35`, eight times the largest rate
  have prod := fmul_bounded (big := 0x4220000000000000#64) fe se (y := TWO_PI) (by decide) (by decide) (by decide)
    (calc magUnits eff * magUnits TWO_PI ≤ magUnits SR_MAX * (8 * oneUnits) :=
          Nat.mul_le_mul (hle.trans nyq.le) (by decide +kernel)
      _ = magUnits SR_MAX * 8 * oneUnits := by rw [mul_assoc]
      _ = magUnits 0x4220000000000000#64 * oneUnits := by
          rw [show magUnits SR_MAX * 8 = magUnits 0x4220000000000000#64 by decide +kernel])
  have quot := fdiv_bounded (big := 0x4220000000000000#64) prod.finite prod.sign fs ss (by decide)
    (oneUnits_pos.trans_le hlow) (Nat.mul_le_mul prod.le hlow)
  rw [fle_PZERO_iff, units_of_signBit_false quot.sign]
  have hinc := increment_arithmetic (by decide +kernel) hlow (by decide +kernel) (by decide +kernel) nyq.slack hle
    prod.slack quot.slack
  exact ⟨⟨isNaN_of_isFinite quot.finite, Int.natCast_nonneg _⟩, by exact_mod_cast hinc⟩

/-- Settles O31, by the bounds of the increment's three roundings. -/
theorem incrementIsBounded : Obligations.IncrementIsBounded := fun _ freq pitch => incrementOf_bounds freq pitch

/-- Settles O30, by the clamp's two comparisons. -/
theorem incrementClampsTheFrequency : Obligations.IncrementClampsTheFrequency := by
  intro sr freq pitch
  refine ⟨fun hpos => ?_, fun hpos hnyq => ?_, fun hpos hnyq => ?_⟩ <;> simp [incrementOf, effectiveFreq, *]

/-! ### The deviation of a pitch offset (R131) -/

/-- R19(a), of the configuration's `EXP2`. -/
theorem EXP2_ofInt {k : Int} (h1 : -1074 ≤ k) (h2 : k ≤ 1023) : Config.EXP2 (ofInt k) = pow2 k :=
  (@Config.exp2Param ⟨Config.someExp2⟩).exact k h1 h2

/-- R19(d). -/
theorem EXP2_mono {x y : F64} (h : fle x y = true) : fle (Config.EXP2 x) (Config.EXP2 y) = true :=
  (@Config.exp2Param ⟨Config.someExp2⟩).mono x y h

/-- R19(b). -/
theorem EXP2_PINF : Config.EXP2 PINF = PINF := (@Config.exp2Param ⟨Config.someExp2⟩).posInf

theorem deviation_of_pos {p : F64} (h : fgt p PZERO = true) :
    deviation p = fsub (Config.EXP2 (fmul (fabs p) FOURTEEN)) ONE := by
  obtain ⟨hn, h0⟩ := (flt_PZERO_iff p).1 h
  have heq : feq p PZERO = false := by simp [feq, show units PZERO = 0 by decide, h0.ne']
  simp [deviation, hn, heq, h]

theorem deviation_of_neg {p : F64} (h : flt p PZERO = true) :
    deviation p = fneg (fsub (Config.EXP2 (fmul (fabs p) FOURTEEN)) ONE) := by
  obtain ⟨hn, -, h0⟩ := lt_of_flt h
  rw [show units PZERO = 0 by decide] at h0
  have heq : feq p PZERO = false := by simp [feq, show units PZERO = 0 by decide, h0.ne]
  have hgt : fgt p PZERO = false := by simp [fgt, flt, show units PZERO = 0 by decide, h0.le]
  simp [deviation, hn, heq, hgt]

/-- The deviation where `14 · abs p` is an integer: `EXP2` is exact there. -/
theorem deviation_of_integer {p : F64} {k : Int} (hk : fmul (fabs p) FOURTEEN = ofInt k) (h1 : -1074 ≤ k)
    (h2 : k ≤ 1023) :
    (fgt p PZERO = true → deviation p = fsub (pow2 k) ONE) ∧
    (flt p PZERO = true → deviation p = fneg (fsub (pow2 k) ONE)) := by
  rw [← EXP2_ofInt h1 h2, ← hk]
  exact ⟨deviation_of_pos, deviation_of_neg⟩

/-- Settles O29: the branches of `deviation`, and `EXP2` at the integers 14 and 7 and at infinity. -/
theorem deviationOfPitch : Obligations.DeviationOfPitch := by
  have unit (p : F64) (hk : fmul (fabs p) FOURTEEN = ofInt 14) :=
    deviation_of_integer hk (by decide) (by decide)
  have half (p : F64) (hk : fmul (fabs p) FOURTEEN = ofInt 7) :=
    deviation_of_integer hk (by decide) (by decide)
  refine ⟨fun p hp => by simp [deviation, hp], by decide +kernel, by decide +kernel, fun p => deviation_of_pos,
    fun p => deviation_of_neg, ?_, ?_, ?_, ?_, ?_, ?_⟩
  · exact ((unit ONE (by decide +kernel)).1 (by decide +kernel)).trans (by decide +kernel)
  · exact ((unit MINUS_ONE (by decide +kernel)).2 (by decide +kernel)).trans (by decide +kernel)
  · exact ((half HALF (by decide +kernel)).1 (by decide +kernel)).trans (by decide +kernel)
  · exact ((half _ (by decide +kernel)).2 (by decide +kernel)).trans (by decide +kernel)
  · rw [deviation_of_pos (by decide +kernel), show fmul (fabs PINF) FOURTEEN = PINF by decide +kernel, EXP2_PINF]
    decide +kernel
  · rw [deviation_of_neg (by decide +kernel), show fmul (fabs NINF) FOURTEEN = PINF by decide +kernel, EXP2_PINF]
    decide +kernel

/-! ### The note frequency (R190) -/

/-- The exponents of the 128 notes are from `-6` to `5`. -/
theorem noteExponent_bounds (n : BitVec 7) :
    fle (ofInt (-6)) (fdiv (ofInt ((n.toNat : Int) - 69)) TWELVE) = true ∧
    fle (fdiv (ofInt ((n.toNat : Int) - 69)) TWELVE) (ofInt 5) = true := by
  revert n
  decide +kernel

/-- `NOTEFREQ(n) > 0` (R190): `EXP2` of the exponent is a finite number of at least `2^-6`. -/
theorem noteFreq_pos (n : BitVec 7) : fgt (noteFreq n) PZERO = true := by
  obtain ⟨hlow, hhigh⟩ := noteExponent_bounds n
  have hlow := EXP2_mono hlow
  have hhigh := EXP2_mono hhigh
  rw [EXP2_ofInt (by decide) (by decide)] at hlow hhigh
  unfold noteFreq
  generalize Config.EXP2 (fdiv (ofInt ((n.toNat : Int) - 69)) TWELVE) = x at *
  obtain ⟨-, hn, hlow⟩ := le_of_fle hlow
  obtain ⟨-, -, hhigh⟩ := le_of_fle hhigh
  have sx : signBit x = false :=
    signBit_of_units_pos (lt_of_lt_of_le (by decide +kernel : 0 < units (pow2 (-6))) hlow)
  rw [units_of_signBit_false sx, units_of_signBit_false (by decide), Nat.cast_le] at hlow hhigh
  have fx : isFinite x = true :=
    isFinite_of_magUnits_lt hn (lt_of_le_of_lt hhigh (magUnits_lt_of_isFinite (by decide)))
  have hone : magUnits ONE ≤ magUnits (roundRatio false (magUnits A4_HZ * magUnits x) oneUnits) :=
    le_magUnits_roundRatio false ONE oneUnits_pos (by decide)
      (calc magUnits ONE * oneUnits ≤ magUnits A4_HZ * magUnits (pow2 (-6)) := by decide +kernel
        _ ≤ _ := Nat.mul_le_mul_left _ hlow)
  have hpos : 0 < magUnits ONE := by decide +kernel
  rw [fmul_finite (by decide) fx, sx, show signBit A4_HZ = false by decide, bne_self_eq_false]
  refine (flt_PZERO_iff _).2 ⟨isNaN_roundRatio _ _ _, ?_⟩
  rw [units_of_signBit_false (signBit_roundRatio _ _ _)]
  exact_mod_cast lt_of_lt_of_le hpos hone

/-- A note a whole number of octaves from A4. -/
theorem noteFreq_octave {n : BitVec 7} {k : Int} (h : fdiv (ofInt ((n.toNat : Int) - 69)) TWELVE = ofInt k)
    (h1 : -1074 ≤ k) (h2 : k ≤ 1023) : noteFreq n = fmul A4_HZ (pow2 k) := by
  rw [noteFreq, h, EXP2_ofInt h1 h2]

/-- Settles O38. -/
theorem noteFrequency : Obligations.NoteFrequency := by
  have octave (n : BitVec 7) (k : Int) (h : fdiv (ofInt ((n.toNat : Int) - 69)) TWELVE = ofInt k)
      (h1 : -1074 ≤ k := by decide) (h2 : k ≤ 1023 := by decide) := noteFreq_octave h h1 h2
  exact ⟨fun n => ⟨rfl, noteFreq_pos n⟩,
    (octave 69#7 0 (by decide +kernel)).trans (by decide +kernel),
    (octave 81#7 1 (by decide +kernel)).trans (by decide +kernel),
    (octave 57#7 (-1) (by decide +kernel)).trans (by decide +kernel),
    (octave 21#7 (-4) (by decide +kernel)).trans (by decide +kernel),
    (octave 9#7 (-5) (by decide +kernel)).trans (by decide +kernel)⟩

/-! ### Normalised values (R184, R185) -/

@[simp] theorem isFinite_ofInt {k : Int} (h : k.natAbs < 2 ^ 53) : isFinite (ofInt k) = true := by
  obtain ⟨b, hb, hr, -⟩ := roundMag_integer k.natAbs h
  exact (isFinite_roundRatio _ _ _).2 (by omega)

theorem magUnits_ofInt {k : Int} (h : k.natAbs < 2 ^ 53) : magUnits (ofInt k) = k.natAbs * oneUnits := by
  rw [← natAbs_units, (units_ofInt k h).1, Int.natAbs_mul, Int.natAbs_natCast]

/-- An integer below 2^53 over `2^13` is representable. -/
theorem exists_bits_of_eighth {m : Nat} (hm : m < 2 ^ 53) :
    ∃ b, b < 0x7FF0000000000000 ∧ magUnits (BitVec.ofNat 64 b) * 8192 = m * oneUnits := by
  rcases Nat.eq_zero_or_pos m with rfl | h0
  · exact ⟨0, by omega, by rw [Nat.zero_mul]; decide⟩
  obtain ⟨c, sh, e, h1, h2, h3⟩ := normalised m h0 hm
  have hsh : 13 ≤ sh := by
    by_contra hlt
    have hle : oneUnits ≤ c * 2 ^ sh := e ▸ Nat.le_mul_of_pos_left _ h0
    have hc : c * 2 ^ sh ≤ 2 ^ 53 * 2 ^ 13 :=
      Nat.mul_le_mul h2.le (Nat.pow_le_pow_right two_pos (by omega))
    exact absurd (hle.trans hc) (by decide +kernel)
  refine ⟨c + (sh - 13) * 2 ^ 52, by omega, ?_⟩
  rw [magUnits_encoded c (sh - 13) h2 (by omega) (Or.inr h1), e, mul_assoc, show 8192 = 2 ^ 13 by rfl,
    ← pow_add, Nat.sub_add_cancel hsh]

/-- R185: the bend division is exact. -/
theorem normalisedBend_exact (b : BitVec 32) : isNaN (normalisedBend b) = false ∧
    units (normalisedBend b) * 8192 = b.toInt * (oneUnits : Int) := by
  have hk : b.toInt.natAbs < 2 ^ 53 := by
    have := b.toInt_lt; have := b.le_toInt; omega
  obtain ⟨c, hc, hm⟩ := exists_bits_of_eighth hk
  have hscale : magUnits B_SCALE = 8192 * oneUnits := by decide +kernel
  have hpos : 0 < 8192 * oneUnits := Nat.mul_pos (by decide) oneUnits_pos
  have hdiv : normalisedBend b = roundRatio (decide (b.toInt < 0)) (magUnits (ofInt b.toInt) * oneUnits)
      (8192 * oneUnits) := by
    rw [normalisedBend, fdiv_finite (isFinite_ofInt hk) (by decide) (hscale ▸ hpos.ne'), hscale,
      show signBit B_SCALE = false by decide, Bool.bne_false, ofInt, signBit_roundRatio]
  have hround : roundMag (magUnits (ofInt b.toInt) * oneUnits) (8192 * oneUnits) = c :=
    roundMag_representable hc hpos (by rw [magUnits_ofInt hk, ← hm, mul_assoc])
  have hm' : (magUnits (BitVec.ofNat 64 c) : Int) * 8192 = |b.toInt| * oneUnits := by
    rw [← Int.natCast_natAbs]; exact_mod_cast hm
  refine ⟨by rw [hdiv]; exact isNaN_roundRatio _ _ _, ?_⟩
  rw [hdiv, units_roundRatio, hround]
  generalize magUnits (BitVec.ofNat 64 c) = u at *
  generalize oneUnits = O at *
  rcases lt_or_ge b.toInt 0 with h | h
  · rw [abs_of_neg h] at hm'
    rw [decide_eq_true h, if_pos rfl]
    linarith
  · rw [abs_of_nonneg h] at hm'
    rw [decide_eq_false h.not_gt, if_neg (by simp)]
    exact hm'

/-- Settles O34: the bend division is exact, and the listed values are so many roundings. -/
theorem normalisedValues : Obligations.NormalisedValues :=
  ⟨normalisedBend_exact, by decide +kernel⟩

/-! ### The samples (R141 to R149) -/

theorem blep_below {t dt : F64} (h : flt t dt = true) : blep t dt =
    fsub (fsub (fadd (fdiv t dt) (fdiv t dt)) (fmul (fdiv t dt) (fdiv t dt))) ONE := by
  simp [blep, h]

theorem blep_above {t dt : F64} (h1 : flt t dt = false) (h2 : fgt t (fsub ONE dt) = true) : blep t dt =
    fadd (fadd (fadd (fmul (fdiv (fsub t ONE) dt) (fdiv (fsub t ONE) dt)) (fdiv (fsub t ONE) dt))
      (fdiv (fsub t ONE) dt)) ONE := by
  simp [blep, h1, h2]

theorem blep_window {t dt : F64} (h1 : flt t dt = false) (h2 : fgt t (fsub ONE dt) = false) :
    blep t dt = PZERO := by
  simp [blep, h1, h2]

theorem flt_eq_false_of_fle {x y : F64} (h : fle y x = true) : flt x y = false := by
  obtain ⟨hy, hx, hle⟩ := le_of_fle h
  simp [flt, hx, hy, hle]

/-- Zero over a positive number is zero. -/
theorem fdiv_PZERO_of_pos {x : F64} (h : flt PZERO x = true) : fdiv PZERO x = PZERO := by
  obtain ⟨hn, h0⟩ := (flt_PZERO_iff x).1 h
  have hs := signBit_of_units_pos h0
  rw [units_of_signBit_false hs, Int.natCast_pos] at h0
  cases hf : isFinite x with
  | true =>
    rw [fdiv_finite (by decide) hf h0.ne', hs, show signBit PZERO = false by decide,
      show magUnits PZERO = 0 by decide, Nat.zero_mul]
    exact congrArg (withSign false) (roundMag_representable (b := 0) (by decide) h0
      (by rw [show magUnits (BitVec.ofNat 64 0) = 0 by decide, Nat.zero_mul]))
  | false =>
    have hi : isInf x = true := by
      simp only [isFinite, isNaN, isInf, bne_eq_false_iff_eq] at hf hn ⊢
      simpa [hf] using hn
    simp only [fdiv, hn, hi, hs, show isNaN PZERO = false by decide, show isInf PZERO = false by decide,
      show signBit PZERO = false by decide, Bool.or_self, Bool.false_eq_true, if_false, if_true]
    decide

/-- Settles O27: the three branches of `blep`, and the comparisons that decide them at the corners. -/
theorem blepAtTheWindow : Obligations.BlepAtTheWindow := by
  refine ⟨fun t dt => blep_below, fun t dt => blep_above, fun t dt => blep_window, fun dt h => ?_,
    fun t dt h1 h2 => blep_window (flt_eq_false_of_fle h1) (flt_eq_false_of_fle h2), fun t h0 h1 => ?_⟩
  · rw [blep_below h, fdiv_PZERO_of_pos h]
    decide +kernel
  · refine blep_window (flt_eq_false_of_fle h0) ?_
    rw [show fsub ONE PZERO = ONE by decide +kernel]
    obtain ⟨hn, -, hlt⟩ := lt_of_flt h1
    simp [fgt, flt, hlt.le]

/-- R18(a), of the configuration's `SIN`. -/
theorem SIN_range {x : F64} (h : Config.inSinDomain x = true) :
    fle MINUS_ONE (Config.SIN x) = true ∧ fle (Config.SIN x) ONE = true :=
  (@Config.sinParam ⟨Config.someSin⟩).range x h

/-- R18(b). -/
theorem SIN_PZERO : Config.SIN PZERO = PZERO := (@Config.sinParam ⟨Config.someSin⟩).zero

/-- A Sine sample is `SIN` of the phase, naive or not (R147). -/
theorem sampleValue_sine {v : Osc} (hm : v.muted = false) (hd : v.mode = .sine) :
    sampleValue v = Config.SIN v.phase := by
  cases hn : v.naive <;> simp [sampleValue, hm, hd, hn, naiveWave]

/-- Settles O28, by R18. -/
theorem sineSampleIsInRange : Obligations.SineSampleIsInRange := by
  intro v hm hd ⟨h0, h1⟩
  rw [sampleValue_sine hm hd]
  obtain ⟨hlow, hhigh⟩ := SIN_range (x := v.phase) (by rw [Config.inSinDomain, h0, h1]; rfl)
  exact ⟨hlow, hhigh, fun hp => by rw [hp, SIN_PZERO]⟩

/-- The paths of an unmuted sample other than Sine (R142 to R149). -/
theorem sampleValue_unmuted {v : Osc} (hm : v.muted = false) :
    (v.naive = true → sampleValue v = naiveWave v.mode v.phase (turns v.phase)) ∧
    (v.naive = false → v.mode = .saw → sampleValue v = blSaw v.phase (turns v.phase) (turns v.inc)) ∧
    (v.naive = false → v.mode = .square → sampleValue v = blSquare v.phase (turns v.phase) (turns v.inc)) ∧
    (v.naive = false → v.mode = .triangle → sampleValue v = triangleValue v) := by
  refine ⟨fun hn => ?_, fun hn hd => ?_, fun hn hd => ?_, fun hn hd => ?_⟩ <;> simp [sampleValue, *]

/-- `LAST` stays on every path but the band-limited triangle's (R142, R143). -/
theorem lastAfterSample_of_not {v : Osc} (h : ¬ (v.muted = false ∧ v.naive = false ∧ v.mode = .triangle)) :
    lastAfterSample v = v.last := by
  rcases lastAfterSample_cases v with ⟨hm, hn, hd, -⟩ | ⟨-, h'⟩
  · exact absurd ⟨hm, hn, hd⟩ h
  · exact h'

/-- Settles O26: each path's value is the model's function of that path, written out. -/
theorem sampleOnEachPath : Obligations.SampleOnEachPath := by
  intro v
  refine ⟨fun hm => ⟨by rw [sampleValue, if_pos hm]; rfl, lastAfterSample_of_not (by simp [hm])⟩,
    fun hm hd => ⟨sampleValue_sine hm hd, lastAfterSample_of_not (by simp [hd])⟩,
    fun hm hn hd => ⟨((sampleValue_unmuted hm).1 hn).trans (by rw [hd]; rfl), lastAfterSample_of_not (by simp [hn])⟩,
    fun hm hn hd => ⟨((sampleValue_unmuted hm).1 hn).trans (by rw [hd]; rfl), lastAfterSample_of_not (by simp [hn])⟩,
    fun hm hn hd => ⟨((sampleValue_unmuted hm).1 hn).trans (by rw [hd]; rfl), lastAfterSample_of_not (by simp [hn])⟩,
    fun hm hn hd => ⟨(sampleValue_unmuted hm).2.1 hn hd, lastAfterSample_of_not (by simp [hd])⟩,
    fun hm hn hd => ⟨(sampleValue_unmuted hm).2.2.1 hn hd, lastAfterSample_of_not (by simp [hd])⟩,
    fun hm hn hd => ?_⟩
  rcases lastAfterSample_cases v with ⟨-, -, -, hl⟩ | ⟨h, -⟩
  · exact ⟨(sampleValue_unmuted hm).2.2.2 hn hd, hl⟩
  · exact absurd ⟨hm, hn, hd⟩ h

end Sys2Proof.Machine
end

/-! ## The invariants (R7, R24, R28, R29, R37, R42, R62, R63, R99, R201) -/
section

namespace Sys2Proof.Machine

/-! ### What a step does to the registers the invariants speak of -/

/-- The registers of which an invariant speaks are the same. -/
structure SameRegisters (s t : State) : Prop where
  sr : t.sr = s.sr
  osc : t.osc = s.osc
  cFreq : t.cFreq = s.cFreq
  cVel : t.cVel = s.cVel
  cNote : t.cNote = s.cNote
  qe : t.qe = s.qe
  wvis : t.wvis = s.wvis
  rfree : t.rfree = s.rfree
  fifoDepth : t.fifoDepth = s.fifoDepth
  errInfo : t.errInfo = s.errInfo

theorem SameRegisters.refl (s : State) : SameRegisters s s := by constructor <;> rfl

/-- What a step makes of the phase and the increment of one oscillator under the rate `sr`: nothing, a new
increment (R132), or an advance of the phase (R150). -/
inductive MotionStep (sr : F64) (v v' : Osc) : Prop where
  | still (phase : v'.phase = v.phase) (inc : v'.inc = v.inc)
  | retuned (f p : F64) (phase : v'.phase = v.phase) (inc : v'.inc = incrementOf sr f p)
  | advanced (phase : advancePhase v.phase v.inc = some v'.phase) (inc : v'.inc = v.inc)

/-- What a step makes of those registers. -/
inductive RegisterStep (s t : State) : Prop where
  | same (h : SameRegisters s t)
  | error (e : HostError) (c : CmdWord) (h : SameRegisters { s with errInfo := errInfoWord e c } t)
  | oscillator {k : Nat} {v v' : Osc} (hv : IsOsc s k v) (hm : MotionStep s.sr v v')
      (h : SameRegisters { s with osc := setOsc s.osc k v' } t)
  | rate {x : F64} (hx : acceptableRate x = true)
      (h : SameRegisters { s with sr := x, osc := mapOsc (fun v => { v with stale := true }) s.osc } t)
  | pop (h : SameRegisters (fifoPop s).2 t)
  | tick (h : SameRegisters (tickBody s).2 t)
  | push {i : Instr} {e : EventWord} (he : pushedWord i = some e) (room : s.qe.length + s.rfree < s.fifoDepth)
      (h : SameRegisters { s with qe := s.qe ++ [e] } t)
  | syncW (hidden : s.wvis < s.qe.length) (h : SameRegisters { s with wvis := s.wvis + 1 } t)
  | syncR (h : SameRegisters { s with rfree := s.rfree - 1 } t)
  | reset (h : SameRegisters (State.resetWith s.osc.others.length s.fifoDepth) t)

theorem OscCommand.motion {sr : F64} {o : BitVec 8} {v v' : Osc} {i : Instr} (h : OscCommand sr o v i v') :
    MotionStep sr v v' := by
  cases h with
  | setfreq x => exact .retuned x v.pitch rfl rfl
  | setpitch x => exact .retuned v.freq x rfl rfl
  | next hp => exact .advanced hp rfl
  | setmode _ | mute | unmute | usenaive _ => exact .still rfl rfl

/-- The coupling retunes its oscillator and leaves its phase (R235). -/
theorem coupledOsc_motion (sr cFreq cBend : F64) (v : Osc) : MotionStep sr v (coupledOsc sr cFreq cBend v) := by
  unfold coupledOsc
  split
  · exact .retuned cFreq cBend rfl rfl
  · exact .retuned v.freq cBend rfl rfl

theorem HostEffect.registers {s t : State} {i : Instr} (h : HostEffect s i t) : RegisterStep s t := by
  cases h with
  | error _ e => exact .error e (cmdOf i) (by constructor <;> rfl)
  | oscillator _ hv hc => exact .oscillator hv hc.motion (by constructor <;> rfl)
  | setsr hx => exact .rate hx (by constructor <;> rfl)
  | deq => exact .pop (by constructor <;> rfl)
  | tick | runperiod _ => exact .tick (by constructor <;> rfl)
  | answer _ _ | ctrl _ | status _ | drops _ => exact .same (by constructor <;> rfl)

theorem RenderEffect.registers {s t : State} (h : RenderEffect s t) : RegisterStep s t := by
  cases h with
  | couple hq =>
    cases s.ctrl.auto with
    | true =>
      exact .oscillator (k := 0) rfl (coupledOsc_motion s.sr s.cFreq s.cBend s.osc.first) (by constructor <;> rfl)
    | false => exact .same (by constructor <;> rfl)
  | wait _ _ _ => exact .same (.refl s)
  | @sample _ _ p _ _ _ hp =>
    exact .oscillator (k := 0) (v' := { s.osc.first with last := lastAfterSample s.osc.first, phase := p }) rfl
      (.advanced hp rfl) (by constructor <;> rfl)
  | finish _ => exact .same (by constructor <;> rfl)

theorem MoveEffect.registers {m : Move} {s t : State} (h : MoveEffect s m t) :
    ∃ u, SameRegisters s u ∧ RegisterStep u t := by
  cases h with
  | render h => exact ⟨s, .refl s, h.registers⟩
  | badWord r ps =>
    exact ⟨{ s with hostPort := ps }, by constructor <;> rfl, .error .illegal r.cmd (by constructor <;> rfl)⟩
  | command h => exact ⟨_, by constructor <;> rfl, h.registers⟩
  | @push i e ps he =>
    refine ⟨{ s with prodPort := ps }, by constructor <;> rfl, ?_⟩
    rcases enqueue_cases e { s with prodPort := ps } with ⟨room, hx⟩ | ⟨-, hx⟩ <;> rw [hx]
    · exact .push he room (by constructor <;> rfl)
    · exact .same (by constructor <;> rfl)
  | syncW hidden => exact ⟨s, .refl s, .syncW hidden (.refl _)⟩
  | syncR _ => exact ⟨s, .refl s, .syncR (.refl _)⟩
  | reset => exact ⟨s, .refl s, .reset (by constructor <;> rfl)⟩
  | hold _ => exact ⟨s, .refl s, .same (.refl s)⟩
  | presentHost _ | presentProducer _ | badProducerWord _ | sink _ =>
    exact ⟨s, .refl s, .same (by constructor <;> rfl)⟩

/-- A property of these registers that each of the ways to change them keeps is kept by every step. -/
theorem step_keeps {P : State → Prop} (congr : ∀ {s t}, SameRegisters s t → P s → P t)
    (keeps : ∀ {s t}, RegisterStep s t → P s → P t) {s t : State} (hs : P s) (h : step s = .next t) : P t := by
  rcases step_effect h with ⟨-, rfl⟩ | ⟨m, rest, -, he⟩
  · exact hs
  · obtain ⟨u, hu, ht⟩ := he.registers
    exact keeps ht (congr hu (congr (s := s) (by constructor <;> rfl) hs))

/-! ### The FIFO bounds (R62, R63) -/

theorem fifoBounded_congr {s t : State} (h : SameRegisters s t) (hs : fifoBounded s) : fifoBounded t := by
  unfold fifoBounded at *
  rwa [h.qe, h.wvis, h.rfree, h.fifoDepth]

/-- A pop moves one slot from the queue to those that wait for release. -/
theorem fifoBounded_fifoPop {s : State} (hs : fifoBounded s) : fifoBounded (fifoPop s).2 := by
  rcases fifoPop_cases s with ⟨k, e, q, hw, hq, hx⟩ | ⟨-, hx⟩ <;> rw [hx]
  · unfold fifoBounded at *
    simp only [hq, hw, List.length_cons] at hs ⊢
    omega
  · exact hs

theorem fifoBounded_tickBody {s : State} (hs : fifoBounded s) : fifoBounded (tickBody s).2 := by
  have hp := fifoBounded_fifoPop (s := clearNote s) hs
  simpa [fifoBounded, tickBody] using hp

theorem fifoBounded_kept {s t : State} (h : RegisterStep s t) (hs : fifoBounded s) : fifoBounded t := by
  cases h with
  | same h | error _ _ h | oscillator _ _ h | rate _ h => exact fifoBounded_congr h hs
  | pop h => exact fifoBounded_congr h (fifoBounded_fifoPop hs)
  | tick h => exact fifoBounded_congr h (fifoBounded_tickBody hs)
  | push _ room h =>
    refine fifoBounded_congr h ?_
    unfold fifoBounded at *
    simp only [List.length_append, List.length_singleton]
    omega
  | syncW hidden h => exact fifoBounded_congr h ⟨hidden, hs.2⟩
  | syncR h =>
    refine fifoBounded_congr h ?_
    unfold fifoBounded at *
    dsimp only
    omega
  | reset h => exact fifoBounded_congr h ⟨le_rfl, Nat.zero_le _, Nat.zero_le _⟩

/-- Settles O51. -/
theorem fifoBoundsAreKept : Obligations.FifoBoundsAreKept := fun _ _ =>
  step_keeps fifoBounded_congr fifoBounded_kept

/-! ### The queued words (R99, R105) -/

theorem eventWord_toNat (tag : BitVec 3) (key : BitVec 7) (x : F64) :
    (eventWord tag key x).toNat = x.toNat * 2 ^ 64 + key.toNat * 2 ^ 8 + tag.toNat := by
  rw [show (eventWord tag key x).toNat = (x ++ 0#49 ++ key ++ 0#5 ++ tag).toNat from rfl, BitVec.toNat_append,
    BitVec.toNat_append, BitVec.toNat_append, BitVec.toNat_append, ← Nat.shiftLeft_add_eq_or_of_lt tag.isLt,
    ← Nat.shiftLeft_add_eq_or_of_lt (0#5).isLt, ← Nat.shiftLeft_add_eq_or_of_lt key.isLt,
    ← Nat.shiftLeft_add_eq_or_of_lt (0#49).isLt]
  simp only [Nat.shiftLeft_eq, BitVec.toNat_ofNat]
  omega

theorem canonicalWord_eventWord (tag : BitVec 3) (key : BitVec 7) (x : F64) :
    canonicalWord (eventWord tag key x) := by
  have ht := tag.isLt
  have hk := key.isLt
  constructor <;> apply BitVec.eq_of_toNat_eq <;>
    rw [BitVec.extractLsb'_toNat, eventWord_toNat, Nat.shiftRight_eq_div_pow, BitVec.toNat_ofNat] <;> omega

theorem canonicalWord_classify (r : RawRecord) : canonicalWord (classify r) := by
  unfold classify
  split
  · split <;> exact canonicalWord_eventWord _ _ _
  all_goals exact canonicalWord_eventWord _ _ _

/-- What a producer command pushes has its reserved bits zero (R182, R183). -/
theorem canonicalWord_pushedWord {i : Instr} {e : EventWord} (h : pushedWord i = some e) : canonicalWord e := by
  cases i with
  | penq tag key x => cases h; exact canonicalWord_eventWord tag key x
  | prawin r => cases h; exact canonicalWord_classify r
  | _ => cases h

/-- Every queued word has its reserved bits zero. -/
def wordsCanonical (s : State) : Prop := ∀ e ∈ s.qe, canonicalWord e

theorem wordsCanonical_congr {s t : State} (h : SameRegisters s t) (hs : wordsCanonical s) : wordsCanonical t := by
  unfold wordsCanonical
  rwa [h.qe]

theorem wordsCanonical_fifoPop {s : State} (hs : wordsCanonical s) : wordsCanonical (fifoPop s).2 := by
  rcases fifoPop_cases s with ⟨k, e, q, -, hq, hx⟩ | ⟨-, hx⟩ <;> rw [hx]
  · exact fun w hw => hs w (hq ▸ List.mem_cons_of_mem e hw)
  · exact hs

theorem wordsCanonical_kept {s t : State} (h : RegisterStep s t) (hs : wordsCanonical s) : wordsCanonical t := by
  cases h with
  | pop h => exact wordsCanonical_congr h (wordsCanonical_fifoPop hs)
  | tick h =>
    have hp := wordsCanonical_fifoPop (s := clearNote s) hs
    exact wordsCanonical_congr h (by simpa [wordsCanonical, tickBody] using hp)
  | push he _ h =>
    refine wordsCanonical_congr h fun w hw => ?_
    rcases List.mem_append.1 hw with hw | hw
    · exact hs w hw
    · exact List.mem_singleton.1 hw ▸ canonicalWord_pushedWord he
  | same h | error _ _ h | oscillator _ _ h | rate _ h | syncW _ h | syncR h => exact wordsCanonical_congr h hs
  | reset h => exact wordsCanonical_congr h fun w hw => nomatch hw

/-! ### Rates, phases and increments (R24, R28, R29, R150, R152) -/

/-- The rate is legal and every phase and increment is in its range. -/
def motionInRange (s : State) : Prop := rateLegal s ∧ ∀ k v, IsOsc s k v → phaseInRange v ∧ incInRange v

theorem motionInRange_congr {s t : State} (h : SameRegisters s t) (hs : motionInRange s) : motionInRange t := by
  unfold motionInRange rateLegal IsOsc
  rwa [h.sr, h.osc]

theorem incInRange_incrementOf {sr : F64} (hr : acceptableRate sr = true) (f p : F64) {v : Osc}
    (hv : v.inc = incrementOf sr f p) : incInRange v := by
  obtain ⟨h1, h2⟩ := (acceptableRate_iff sr).1 hr
  rw [incInRange, hv]
  exact incrementOf_bounds f p h1 h2

/-- One oscillator stays in range (R132, R150). -/
theorem MotionStep.inRange {sr : F64} {v v' : Osc} (h : MotionStep sr v v') (hr : acceptableRate sr = true)
    (hp : phaseInRange v) (hi : incInRange v) : phaseInRange v' ∧ incInRange v' := by
  cases h with
  | still hp' hi' => exact ⟨by rwa [phaseInRange, hp'], by rwa [incInRange, hi']⟩
  | retuned f p hp' hi' => exact ⟨by rwa [phaseInRange, hp'], incInRange_incrementOf hr f p hi'⟩
  | advanced hp' hi' =>
    obtain ⟨p, hadv, -, h0, h1⟩ := advancePhase_inRange hp hi
    cases hadv.symm.trans hp'
    exact ⟨⟨h0, h1⟩, by rwa [incInRange, hi']⟩

theorem reset_inRange : phaseInRange Osc.reset ∧ incInRange Osc.reset := by
  unfold phaseInRange incInRange
  decide +kernel

theorem motionInRange_resetWith (extra depth : Nat) : motionInRange (State.resetWith extra depth) :=
  ⟨show acceptableRate SR_RESET = true by decide +kernel, fun _ _ hv => isOsc_resetWith hv ▸ reset_inRange⟩

theorem motionInRange_kept {s t : State} (h : RegisterStep s t) (hs : motionInRange s) : motionInRange t := by
  obtain ⟨hr, ho⟩ := hs
  cases h with
  | oscillator hv hm h =>
    refine motionInRange_congr h ⟨hr, fun j w hw => ?_⟩
    rcases getOsc_setOsc_cases hw with ⟨-, rfl⟩ | ⟨-, hj⟩
    · exact hm.inRange hr (ho _ _ hv).1 (ho _ _ hv).2
    · exact ho j w hj
  | rate hx h =>
    refine motionInRange_congr h ⟨hx, fun j w hw => ?_⟩
    obtain ⟨v, hv, rfl⟩ := Option.map_eq_some_iff.1 ((getOsc_mapOsc _ _ _).symm.trans hw)
    exact ho j v hv
  | pop h | tick h => exact motionInRange_congr h (by simpa [motionInRange, rateLegal, IsOsc] using ⟨hr, ho⟩)
  | same h | error _ _ h | push _ _ h | syncW _ h | syncR h => exact motionInRange_congr h ⟨hr, ho⟩
  | reset h => exact motionInRange_congr h (motionInRange_resetWith _ _)

/-- Settles O54: an advance keeps its oscillator in range (`advancePhase_inRange`), and every increment a step
writes is one of a legal rate (`incrementOf_bounds`). -/
theorem phaseInvariantIsKept : Obligations.PhaseInvariantIsKept := fun _ _ hr ho =>
  step_keeps motionInRange_congr motionInRange_kept ⟨hr, ho⟩

/-! ### The voice and the note (R37, R201) -/

/-- An event leaves the voice, makes it sound, or silences it; a note it sets is one of 0 to 127. -/
theorem voiceConsistent_applyEvent {s : State} (e : EventWord) (hs : voiceConsistent s) :
    voiceConsistent (applyEvent e s) := by
  rcases applyEvent_cases e s with ⟨-, hv, hx⟩ | ⟨-, -, hx⟩ | ⟨-, hx⟩ | ⟨-, hx⟩ | ⟨-, -, -, hx⟩ <;> rw [hx]
  · exact Or.inl ⟨noteFreq_pos _, hv⟩
  · exact hs
  · exact Or.inr ⟨rfl, rfl⟩
  · exact hs
  · exact hs

theorem noteInRange_applyEvent {s : State} (e : EventWord) (hs : noteInRange s) :
    noteInRange (applyEvent e s) := by
  rcases applyEvent_cases e s with ⟨-, -, hx⟩ | ⟨-, -, hx⟩ | ⟨-, hx⟩ | ⟨-, hx⟩ | ⟨-, -, -, hx⟩ <;> rw [hx]
  · have hk := (eventKey e).isLt
    exact Or.inr (by rw [BitVec.toNat_setWidth]; omega)
  · exact hs
  · exact hs
  · exact hs
  · exact hs

theorem voiceConsistent_congr {s t : State} (h : SameRegisters s t) (hs : voiceConsistent s) :
    voiceConsistent t := by
  unfold voiceConsistent
  rwa [h.cFreq, h.cVel]

theorem noteInRange_congr {s t : State} (h : SameRegisters s t) (hs : noteInRange s) : noteInRange t := by
  unfold noteInRange
  rwa [h.cNote]

theorem voiceConsistent_kept {s t : State} (h : RegisterStep s t) (hs : voiceConsistent s) : voiceConsistent t := by
  cases h with
  | pop h => exact voiceConsistent_congr h (by simpa [voiceConsistent] using hs)
  | tick h =>
    exact voiceConsistent_congr h (voiceConsistent_applyEvent _ (by simpa [voiceConsistent, clearNote] using hs))
  | same h | error _ _ h | oscillator _ _ h | rate _ h | push _ _ h | syncW _ h | syncR h =>
    exact voiceConsistent_congr h hs
  | reset h => exact voiceConsistent_congr h (Or.inr ⟨rfl, rfl⟩)

theorem noteInRange_kept {s t : State} (h : RegisterStep s t) (hs : noteInRange s) : noteInRange t := by
  cases h with
  | pop h => exact noteInRange_congr h (by simpa [noteInRange] using hs)
  | tick h => exact noteInRange_congr h (noteInRange_applyEvent _ (Or.inl (by simp)))
  | same h | error _ _ h | oscillator _ _ h | rate _ h | push _ _ h | syncW _ h | syncR h =>
    exact noteInRange_congr h hs
  | reset h => exact noteInRange_congr h (Or.inl rfl)

/-- Settles O53: a NoteOn sets a frequency above 0 (`noteFreq_pos`) and a velocity above 0. -/
theorem voiceConsistencyIsKept : Obligations.VoiceConsistencyIsKept := fun _ _ =>
  step_keeps voiceConsistent_congr voiceConsistent_kept

/-! ### The error record and the configuration (R7, R42) -/

theorem errInfoCanonical_congr {s t : State} (h : SameRegisters s t) (hs : errInfoCanonical s) :
    errInfoCanonical t := by
  unfold errInfoCanonical
  rwa [h.errInfo]

theorem configLegal_congr {s t : State} (h : SameRegisters s t) (hs : configLegal s) : configLegal t := by
  unfold configLegal numOsc
  rwa [h.fifoDepth, h.osc]

/-- What an error records has bits 63:36 zero (R42, R262). -/
theorem errInfoWord_canonical (e : HostError) (c : CmdWord) :
    (errInfoWord e c).extractLsb' 36 28 = 0#28 := by
  refine BitVec.eq_of_toNat_eq ?_
  have hc := c.isLt
  have hr := (respCode (respOfError e)).isLt
  rw [BitVec.extractLsb'_toNat, show (errInfoWord e c).toNat = (0#28 ++ respCode (respOfError e) ++ c).toNat from rfl,
    BitVec.toNat_append, BitVec.toNat_append, ← Nat.shiftLeft_add_eq_or_of_lt hc,
    ← Nat.shiftLeft_add_eq_or_of_lt hr, Nat.shiftRight_eq_div_pow]
  simp only [Nat.shiftLeft_eq, BitVec.toNat_ofNat]
  omega

theorem errInfoCanonical_kept {s t : State} (h : RegisterStep s t) (hs : errInfoCanonical s) :
    errInfoCanonical t := by
  cases h with
  | error e c h => exact errInfoCanonical_congr h (errInfoWord_canonical e c)
  | pop h | tick h => exact errInfoCanonical_congr h (by simpa [errInfoCanonical] using hs)
  | same h | oscillator _ _ h | rate _ h | push _ _ h | syncW _ h | syncR h => exact errInfoCanonical_congr h hs
  | reset h => exact errInfoCanonical_congr h (show (0#64).extractLsb' 36 28 = 0#28 by decide)

theorem numOsc_resetWith (extra depth : Nat) : numOsc (State.resetWith extra depth) = extra + 1 := by
  simp [numOsc, State.resetWith]

theorem configLegal_kept {s t : State} (h : RegisterStep s t) (hs : configLegal s) : configLegal t := by
  cases h with
  | oscillator _ _ h | rate _ h | pop h | tick h =>
    exact configLegal_congr h (by simpa [configLegal, numOsc] using hs)
  | same h | error _ _ h | push _ _ h | syncW _ h | syncR h => exact configLegal_congr h hs
  | reset h => exact configLegal_congr h ⟨hs.1, (numOsc_resetWith _ _).trans_le hs.2⟩

/-! ### The invariant -/

theorem inv_iff (s : State) : Inv s ↔ configLegal s ∧ fifoBounded s ∧ wordsCanonical s ∧ motionInRange s ∧
    voiceConsistent s ∧ noteInRange s ∧ errInfoCanonical s := by
  constructor
  · intro h
    exact ⟨h.config, h.fifo, h.words, ⟨h.rate, fun k v hv => ⟨h.phases k v hv, h.incs k v hv⟩⟩, h.voice, h.note,
      h.errInfo⟩
  · rintro ⟨hc, hf, hw, ⟨hr, ho⟩, hv, hn, he⟩
    exact ⟨hc, hf, hw, hr, fun k v h => (ho k v h).1, fun k v h => (ho k v h).2, hv, hn, he⟩

/-- Settles O55, part by part. -/
theorem everyStepKeepsTheInvariant : Obligations.EveryStepKeepsTheInvariant := by
  intro s t hs h
  rw [inv_iff] at hs ⊢
  obtain ⟨hc, hf, hw, hm, hv, hn, he⟩ := hs
  exact ⟨step_keeps configLegal_congr configLegal_kept hc h, step_keeps fifoBounded_congr fifoBounded_kept hf h,
    step_keeps wordsCanonical_congr wordsCanonical_kept hw h,
    step_keeps motionInRange_congr motionInRange_kept hm h,
    step_keeps voiceConsistent_congr voiceConsistent_kept hv h, step_keeps noteInRange_congr noteInRange_kept hn h,
    step_keeps errInfoCanonical_congr errInfoCanonical_kept he h⟩

/-- Settles O56. -/
theorem resetMeetsTheInvariant : Obligations.ResetMeetsTheInvariant := fun extra depth hn hd =>
  (inv_iff _).2 ⟨⟨hd, (numOsc_resetWith extra depth).trans_le hn⟩, ⟨le_rfl, Nat.zero_le _, Nat.zero_le _⟩,
    fun _ hw => (nomatch hw), motionInRange_resetWith extra depth, Or.inr ⟨rfl, rfl⟩, Or.inl rfl,
    show (0#64).extractLsb' 36 28 = 0#28 by decide⟩

/-! ### Progress (R261, R304) -/

/-- No host command of an in-range block fails to end. -/
theorem exec_completes {s : State} (hs : motionInRange s) (i : Instr) : ∃ t, exec i s = .next t := by
  cases hp : i.port with
  | producer =>
    obtain ⟨e, -, hx⟩ := exec_producer hp s
    exact ⟨_, hx⟩
  | host =>
    rcases exec_host_cases i s hp with ⟨e, hx⟩ | ⟨res, u, hx⟩ | ⟨n, t, -, hx, -⟩ | ⟨o, v, -, hv, hp, -⟩
    · exact ⟨_, hx⟩
    · exact ⟨_, hx⟩
    · exact ⟨t, hx⟩
    · obtain ⟨p, hadv, -⟩ := advancePhase_inRange (hs.2 _ _ hv).1 (hs.2 _ _ hv).2
      cases hadv.symm.trans hp

theorem renderStep_completes {s : State} (hs : motionInRange s) : ∃ t, renderStep s = .next t := by
  rcases renderStep_cases s with ⟨-, hx⟩ | ⟨n, e, -, hx⟩ | ⟨n, e, -, -, hx⟩ | ⟨n, e, -, -, hx⟩
  · exact ⟨_, hx⟩
  · exact ⟨_, hx⟩
  · exact ⟨_, hx⟩
  · rcases sampleStep_cases (n - 1#32) e s with ⟨y, -, hy⟩ | ⟨-, p, -, hy⟩ | ⟨-, hp, -⟩
    · exact ⟨_, hx.trans hy⟩
    · exact ⟨_, hx.trans hy⟩
    · have hfirst := hs.2 0 s.osc.first rfl
      obtain ⟨p, hadv, -⟩ := advancePhase_inRange hfirst.1 hfirst.2
      cases hadv.symm.trans hp

theorem runMove_completes {s : State} (hs : motionInRange s) (m : Move) : ∃ t, runMove m s = .next t := by
  cases m with
  | host =>
    rcases hostMove_cases s with ⟨-, hx⟩ | ⟨-, -, hx⟩ | ⟨r, ps, -, -, ⟨d, -, hx⟩ | ⟨i, -, hx⟩⟩
    · exact (renderStep_completes hs).imp fun _ ht => hx.trans ht
    · exact ⟨_, hx⟩
    · exact ⟨_, hx⟩
    · exact (exec_completes (s := { s with hostPort := ps }) hs i).imp fun _ ht => hx.trans ht
  | producer =>
    rcases producerMove_cases s with ⟨hx, -⟩ | ⟨r, ps, -, -, ⟨d, -, hx⟩ | ⟨i, e, -, -, hx⟩⟩ <;> exact ⟨_, hx⟩
  | _ => exact ⟨_, rfl⟩

/-- Settles O57: the one fault needs a phase or an increment out of range. -/
theorem everyStepCompletes : Obligations.EveryStepCompletes := by
  intro s hs
  obtain ⟨-, -, -, hm, -⟩ := (inv_iff s).1 hs
  cases hx : s.sched with
  | nil => exact ⟨s, step_nil hx⟩
  | cons m rest =>
    exact (runMove_completes (s := { s with sched := rest }) hm m).imp fun _ ht => (step_cons hx).trans ht

end Sys2Proof.Machine
end

/-! ## Answers and errors of the commands (R261 to R264) -/
section

namespace Sys2Proof.Machine

/-- A host command answers an error and does nothing else, gives no answer yet, or answers `OK`. -/
theorem HostEffect.answers {s t : State} {i : Instr} (h : HostEffect s i t) :
    (∃ e, t = raiseHost e (cmdOf i) s) ∨ t.hostResp = none ∨ ∃ res, t.hostResp = some ⟨.ok, res⟩ := by
  cases h with
  | error _ e => exact Or.inl ⟨e, rfl⟩
  | runperiod _ => exact Or.inr (Or.inl rfl)
  | answer _ _ | oscillator _ _ _ | setsr _ | deq | tick | ctrl _ | status _ | drops _ =>
    exact Or.inr (Or.inr ⟨_, rfl⟩)

/-- Settles O10. -/
theorem refusedCommandHasNoPartialEffect : Obligations.RefusedCommandHasNoPartialEffect := by
  intro i s t x hp h hx hne
  rcases (exec_host_effect hp h).answers with ⟨e, rfl⟩ | hnone | ⟨res, hok⟩
  · exact ⟨e, (Option.some.inj hx).symm, rfl⟩
  · rw [hnone] at hx; cases hx
  · rw [hok] at hx; cases hx; exact absurd rfl hne

/-- What each error of `errorOf` says of its command. -/
theorem errorOf_cases (i : Instr) (s : State) :
    (errorOf i s = some .illegal ∧ i.wellFormed = false) ∨
    (errorOf i s = some .badIndex ∧ badIndexOf i s = true) ∨
    (errorOf i s = some .badValue ∧ badValueOf i = true) ∨ errorOf i s = none := by
  unfold errorOf
  split
  · exact Or.inl ⟨rfl, ‹_›⟩
  split
  · exact Or.inr (Or.inl ⟨rfl, ‹_›⟩)
  split
  · exact Or.inr (Or.inr (Or.inl ⟨rfl, ‹_›⟩))
  · exact Or.inr (Or.inr (Or.inr rfl))

/-- The answer of a host command: the error of its checks, or `OK`. -/
theorem resp_cases {i : Instr} {s t : State} {x : HostResponse} (hp : i.port = .host) (h : exec i s = .next t)
    (hx : t.hostResp = some x) :
    (x.resp = .illegal ∧ i.wellFormed = false) ∨ (x.resp = .badIndex ∧ badIndexOf i s = true) ∨
    (x.resp = .badValue ∧ badValueOf i = true) ∨ x.resp = .ok := by
  have fails : ∀ {e}, errorOf i s = some e → x.resp = respOfError e := by
    intro e he
    have hend : exec i s = failHost e (cmdOf i) s := by
      have := endsBy_errorOf hp s
      rwa [he] at this
    cases hend.symm.trans h
    cases hx
    rfl
  rcases errorOf_cases i s with ⟨he, hw⟩ | ⟨he, hb⟩ | ⟨he, hv⟩ | he
  · exact Or.inl ⟨fails he, hw⟩
  · exact Or.inr (Or.inl ⟨fails he, hb⟩)
  · exact Or.inr (Or.inr (Or.inl ⟨fails he, hv⟩))
  · have hend := endsBy_errorOf hp s
    rw [he] at hend
    rcases hend t h with hnone | ⟨res, hok⟩
    · rw [hnone] at hx; cases hx
    · rw [hok] at hx; cases hx; exact Or.inr (Or.inr (Or.inr rfl))

theorem eq_setsr_of_badValueOf {i : Instr} (h : badValueOf i = true) : ∃ v, i = .setsr v := by
  cases i with
  | setsr v => exact ⟨v, rfl⟩
  | _ => cases h

/-- The commands with an index that can be out of range (R265 step 6). -/
theorem indexed_of_badIndexOf {i : Instr} {s : State} (h : badIndexOf i s = true) :
    (∃ o m, i = .setmode o m) ∨ (∃ o v, i = .setfreq o v) ∨ (∃ o v, i = .setpitch o v) ∨ (∃ o, i = .mute o) ∨
    (∃ o, i = .unmute o) ∨ (∃ o b, i = .usenaive o b) ∨ (∃ o, i = .next o) ∨ (∃ n, i = .noteheld n) ∨
    (∃ sel o, i = .rdreg sel o) := by
  cases i <;> simp [badIndexOf] at h ⊢

/-- Settles O11, by the order of the checks (`endsBy_errorOf`). -/
theorem responsesOfEachCommand : Obligations.ResponsesOfEachCommand := by
  refine ⟨fun i s t x hp h hx => ?_, fun i s t hp h => ?_⟩
  · rcases resp_cases hp h hx with ⟨hr, hw⟩ | ⟨hr, hb⟩ | ⟨hr, hv⟩ | hr <;> rw [hr]
    · exact ⟨by decide, (nomatch ·), (nomatch ·), fun _ => hw⟩
    · exact ⟨by decide, (nomatch ·), fun _ => indexed_of_badIndexOf hb, (nomatch ·)⟩
    · exact ⟨by decide, fun _ => eq_setsr_of_badValueOf hv, (nomatch ·), (nomatch ·)⟩
    · exact ⟨by decide, (nomatch ·), (nomatch ·), (nomatch ·)⟩
  · obtain ⟨e, -, hx⟩ := exec_producer hp s
    cases hx.symm.trans h
    rcases enqueue_cases e s with ⟨-, hx⟩ | ⟨-, hx⟩ <;> rw [hx]
    · exact ⟨rfl, Or.inl rfl⟩
    · exact ⟨rfl, Or.inr rfl⟩

/-- Settles O12. -/
theorem noRefusalAndOnlyNextFaults : Obligations.NoRefusalAndOnlyNextFaults := by
  intro i s
  cases hp : i.port with
  | producer =>
    obtain ⟨e, -, hx⟩ := exec_producer hp s
    exact ⟨fun _ h => (nomatch hx.symm.trans h), fun _ h => (nomatch hx.symm.trans h)⟩
  | host =>
    rcases exec_host_cases i s hp with ⟨e, hx⟩ | ⟨res, u, hx⟩ | ⟨n, t, -, hx, -⟩ | ⟨o, v, hi, hv, hadv, hx⟩
    · exact ⟨fun _ h => (nomatch hx.symm.trans h), fun _ h => (nomatch hx.symm.trans h)⟩
    · exact ⟨fun _ h => (nomatch hx.symm.trans h), fun _ h => (nomatch hx.symm.trans h)⟩
    · exact ⟨fun _ h => (nomatch hx.symm.trans h), fun _ h => (nomatch hx.symm.trans h)⟩
    · exact ⟨fun _ h => (nomatch hx.symm.trans h), fun _ _ => ⟨o, v, hi, hv, hadv⟩⟩

/-- Settles O9. -/
theorem errorResponseEffect : Obligations.ErrorResponseEffect := fun _ _ => ⟨rfl, rfl, rfl⟩

end Sys2Proof.Machine
end

/-! ## Who writes each register (R21, R24 to R38, R153) -/
section

namespace Sys2Proof.Machine

/-! ### The oscillators -/

/-- What a command makes of oscillator `k`. -/
inductive OscEffect (sr : F64) (k : Nat) (v : Osc) (i : Instr) (v' : Osc) : Prop where
  | same (h : v' = v)
  | command {o : BitVec 8} (ho : o.toNat = k) (hc : OscCommand sr o v i v')
  | stale {x : F64} (hi : i = .setsr x) (h : v' = { v with stale := true })

/-- Every oscillator is there after a command, as one of these made it. -/
theorem exec_oscEffect {i : Instr} {s t : State} (h : exec i s = .next t) {k : Nat} {v : Osc} (hv : IsOsc s k v) :
    ∃ v', IsOsc t k v' ∧ OscEffect s.sr k v i v' := by
  have kept : t.osc = s.osc → ∃ v', IsOsc t k v' ∧ OscEffect s.sr k v i v' := fun ht =>
    ⟨v, by rwa [IsOsc, ht], .same rfl⟩
  cases hp : i.port with
  | producer =>
    obtain ⟨e, -, hx⟩ := exec_producer hp s
    cases hx.symm.trans h
    exact kept (by simp)
  | host =>
    cases exec_host_effect hp h with
    | @oscillator _ o w w' _ hw hc =>
      by_cases hk : k = o.toNat
      · subst hk
        cases (show getOsc s.osc o.toNat = some v from hv).symm.trans hw
        exact ⟨w', getOsc_setOsc_same w' hw, .command rfl hc⟩
      · exact ⟨v, (getOsc_setOsc_other s.osc w' hk).trans hv, .same rfl⟩
    | setsr _ =>
      refine ⟨{ v with stale := true }, ?_, .stale rfl rfl⟩
      exact (getOsc_mapOsc _ s.osc k).trans (by rw [show getOsc s.osc k = some v from hv]; rfl)
    | deq => exact kept (by simp)
    | tick => exact kept (by simp)
    | runperiod _ => exact kept (by simp)
    | error _ _ | answer _ _ | ctrl _ | status _ | drops _ => exact kept rfl

/-- Settles O49. -/
theorem onlyNextMovesPhaseAndLast : Obligations.OnlyNextMovesPhaseAndLast := by
  intro i s t h
  refine ⟨fun hi k v hv => ?_, fun o hi k v hv => ?_⟩
  · obtain ⟨v', hv', he⟩ := exec_oscEffect h hv
    refine ⟨v', hv', ?_⟩
    cases he with
    | same h => subst h; exact ⟨rfl, rfl⟩
    | stale _ h => subst h; exact ⟨rfl, rfl⟩
    | @command o _ hc =>
      cases hc with
      | next _ => exact absurd rfl (hi o)
      | setmode _ | setfreq _ | setpitch _ | mute | unmute | usenaive _ => exact ⟨rfl, rfl⟩
  · subst hi
    obtain ⟨v', hv', he⟩ := exec_oscEffect h hv
    refine ⟨v', hv', ?_⟩
    cases he with
    | same h => exact ⟨fun _ => h, fun _ => by rw [h]⟩
    | stale hi _ => cases hi
    | command ho hc =>
      cases hc
      exact ⟨fun hk => absurd ho.symm hk, lastAfterSample_of_not⟩

/-! ### The other registers -/

section
variable {i : Instr} {s t : State} (h : exec i s = .next t)
include h

/-- A register that the producer commands leave, and each host command but those that write it. -/
theorem exec_leaves {α : Type} (f : State → α) (hpush : ∀ e, f (enqueue e s) = f s)
    (hhost : HostEffect s i t → f t = f s) : f t = f s := by
  cases hp : i.port with
  | producer =>
    obtain ⟨e, -, hx⟩ := exec_producer hp s
    cases hx.symm.trans h
    exact hpush e
  | host => exact hhost (exec_host_effect hp h)

theorem exec_sr (hi : ∀ x, i ≠ .setsr x) : t.sr = s.sr := by
  refine exec_leaves h (·.sr) (by simp) fun he => ?_
  cases he with
  | setsr _ => exact absurd rfl (hi _)
  | deq => simp
  | tick => simp
  | runperiod _ => simp
  | error _ _ | answer _ _ | oscillator _ _ _ | ctrl _ | status _ | drops _ => rfl

/-- The state of the event controller (R34 to R38). -/
def controllerState (s : State) : F64 × F64 × F64 × BitVec 8 × BitVec 128 :=
  (s.cFreq, s.cVel, s.cBend, s.cNote, s.held)

theorem exec_controllerState (htick : i ≠ .tick) (hrun : ∀ n, i ≠ .runperiod n) :
    controllerState t = controllerState s := by
  refine exec_leaves h controllerState (by simp [controllerState]) fun he => ?_
  cases he with
  | tick => exact absurd rfl htick
  | runperiod n => exact absurd rfl (hrun n)
  | deq => simp [controllerState]
  | error _ _ | answer _ _ | oscillator _ _ _ | setsr _ | ctrl _ | status _ | drops _ => rfl

theorem exec_fifo (hi : popsFifo i = false) :
    t.wvis = s.wvis ∧ t.rfree = s.rfree ∧ (i.port = .host → t.qe = s.qe) := by
  cases hp : i.port with
  | producer =>
    obtain ⟨e, -, hx⟩ := exec_producer hp s
    cases hx.symm.trans h
    exact ⟨by simp, by simp, (nomatch ·)⟩
  | host =>
    rcases exec_host_fifo hp h with ⟨hpop, -⟩ | ⟨-, hf⟩
    · rw [hi] at hpop; cases hpop
    · exact ⟨hf.wvis, hf.rfree, fun _ => hf.qe⟩

theorem exec_seq (hi : ∀ n, i ≠ .runperiod n) : t.seq = s.seq := by
  refine exec_leaves h (·.seq) (by simp) fun he => ?_
  cases he with
  | runperiod n => exact absurd rfl (hi n)
  | deq => simp
  | tick => simp
  | error _ _ | answer _ _ | oscillator _ _ _ | setsr _ | ctrl _ | status _ | drops _ => rfl

theorem exec_ctrl (hi : ∀ sel v, i ≠ .wrcsr sel v) : t.ctrl = s.ctrl := by
  refine exec_leaves h (·.ctrl) (by simp) fun he => ?_
  cases he with
  | ctrl v => exact absurd rfl (hi _ v)
  | deq => simp
  | tick => simp
  | runperiod _ => simp
  | error _ _ | answer _ _ | oscillator _ _ _ | setsr _ | status _ | drops _ => rfl

theorem exec_drops (hi : ∀ sel v, i ≠ .wrcsr sel v) (hp : i.port = .host) : t.drops = s.drops := by
  cases exec_host_effect hp h with
  | drops v => exact absurd rfl (hi _ v)
  | deq => simp
  | tick => simp
  | runperiod _ => simp
  | error _ _ | answer _ _ | oscillator _ _ _ | setsr _ | ctrl _ | status _ => rfl

theorem exec_numOsc : t.osc.others.length = s.osc.others.length := by
  refine exec_leaves h (·.osc.others.length) (by simp) fun he => ?_
  cases he with
  | oscillator _ _ _ => simp
  | setsr _ => simp
  | deq => simp
  | tick => simp
  | runperiod _ => simp
  | error _ _ | answer _ _ | ctrl _ | status _ | drops _ => rfl

/-- `ERR_INFO` is written with an error response alone (R42, R262). -/
theorem exec_errInfo (hne : t.errInfo ≠ s.errInfo) :
    i.port = .host ∧ ∃ x, t.hostResp = some x ∧ x.resp ≠ .ok := by
  cases hp : i.port with
  | producer =>
    obtain ⟨e, -, hx⟩ := exec_producer hp s
    cases hx.symm.trans h
    exact absurd (by simp) hne
  | host =>
    refine ⟨rfl, ?_⟩
    cases exec_host_effect hp h with
    | error _ e => exact ⟨_, rfl, by cases e <;> decide⟩
    | deq => exact absurd (by simp) hne
    | tick => exact absurd (by simp) hne
    | runperiod _ => exact absurd (by simp) hne
    | answer _ _ | oscillator _ _ _ | setsr _ | ctrl _ | status _ | drops _ => exact absurd rfl hne

/-- What a command does to the sticky bits: sets the one of its error or of a drop, clears those `WRCSR STATUS`
names, or nothing (R41, R64, R233, R262). -/
theorem exec_sticky :
    t.sticky = s.sticky ∨
    (∃ v, i = .wrcsr 0x02#8 v ∧ t.sticky = s.sticky &&& ~~~(v.extractLsb' 0 5)) ∨
    (i.port = .producer ∧ t.prodResp = some .dropped ∧ t.sticky = s.sticky ||| OVF) ∨
    (∃ e, i.port = .host ∧ t.hostResp = some ⟨respOfError e, 0#128⟩ ∧ t.sticky = s.sticky ||| stickyOfError e) := by
  cases hp : i.port with
  | producer =>
    obtain ⟨e, -, hx⟩ := exec_producer hp s
    cases hx.symm.trans h
    rcases enqueue_cases e s with ⟨-, hx⟩ | ⟨-, hx⟩ <;> rw [hx]
    · exact Or.inl rfl
    · exact Or.inr (Or.inr (Or.inl ⟨rfl, rfl, rfl⟩))
  | host =>
    cases exec_host_effect hp h with
    | error _ e => exact Or.inr (Or.inr (Or.inr ⟨e, rfl, rfl, rfl⟩))
    | status v => exact Or.inr (Or.inl ⟨v, rfl, rfl⟩)
    | deq => exact Or.inl (by simp)
    | tick => exact Or.inl (by simp)
    | runperiod _ => exact Or.inl (by simp)
    | answer _ _ | oscillator _ _ _ | setsr _ | ctrl _ | drops _ => exact Or.inl rfl

end

/-- The place of each sticky bit (R41). -/
theorem stickyBit_index {b : BitVec 5} {j : Nat} (h : b.getLsbD j = true) :
    (b = OVF → j = 0) ∧ (b = ILL → j = 1) ∧ (b = BIDX → j = 2) ∧ (b = BVAL → j = 3) := by
  have hj : j < 5 := by
    by_contra hj
    rw [BitVec.getLsbD_of_ge b j (by omega)] at h
    cases h
  revert h
  interval_cases j <;> revert b <;> decide

/-- A sticky bit is cleared by `WRCSR STATUS` alone. -/
theorem exec_clears_sticky {i : Instr} {s t : State} (h : exec i s = .next t) {j : Nat}
    (h1 : s.sticky.getLsbD j = true) (h0 : t.sticky.getLsbD j = false) : ∃ v, i = .wrcsr 0x02#8 v := by
  rcases exec_sticky h with ht | ⟨v, hi, -⟩ | ⟨-, -, ht⟩ | ⟨e, -, -, ht⟩
  · rw [ht, h1] at h0; cases h0
  · exact ⟨v, hi⟩
  · simp [ht, h1] at h0
  · simp [ht, h1] at h0

/-- A sticky bit is set by a drop or by the error it stands for. -/
theorem exec_sets_sticky {i : Instr} {s t : State} (h : exec i s = .next t) {j : Nat}
    (h0 : s.sticky.getLsbD j = false) (h1 : t.sticky.getLsbD j = true) :
    (j = 0 ∧ i.port = .producer ∧ t.prodResp = some .dropped) ∨
    (j = 1 ∧ i.port = .host ∧ t.hostResp = some ⟨.illegal, 0#128⟩) ∨
    (j = 2 ∧ i.port = .host ∧ t.hostResp = some ⟨.badIndex, 0#128⟩) ∨
    (j = 3 ∧ i.port = .host ∧ t.hostResp = some ⟨.badValue, 0#128⟩) := by
  rcases exec_sticky h with ht | ⟨v, -, ht⟩ | ⟨hp, hr, ht⟩ | ⟨e, hp, hr, ht⟩
  · rw [ht, h0] at h1; cases h1
  · simp [ht, h0] at h1
  · rw [ht, BitVec.getLsbD_or, h0, Bool.false_or] at h1
    exact Or.inl ⟨(stickyBit_index h1).1 rfl, hp, hr⟩
  · rw [ht, BitVec.getLsbD_or, h0, Bool.false_or] at h1
    obtain ⟨-, hill, hidx, hval⟩ := stickyBit_index h1
    cases e with
    | illegal => exact Or.inr (Or.inl ⟨hill rfl, hp, hr⟩)
    | badIndex => exact Or.inr (Or.inr (Or.inl ⟨hidx rfl, hp, hr⟩))
    | badValue => exact Or.inr (Or.inr (Or.inr ⟨hval rfl, hp, hr⟩))

/-- Each field of an oscillator is written by the commands of its index that set it. -/
theorem OscEffect.fields {sr : F64} {k : Nat} {v v' : Osc} {i : Instr} (h : OscEffect sr k v i v') :
    ((∀ o m, i = .setmode o m → o.toNat ≠ k) → v'.mode = v.mode) ∧
    ((∀ o x, i = .setfreq o x → o.toNat ≠ k) → v'.freq = v.freq) ∧
    ((∀ o x, i = .setpitch o x → o.toNat ≠ k) → v'.pitch = v.pitch) ∧
    ((∀ o x, i = .setfreq o x → o.toNat ≠ k) → (∀ o x, i = .setpitch o x → o.toNat ≠ k) →
      v'.inc = v.inc ∧ ((∀ x, i ≠ .setsr x) → v'.stale = v.stale)) ∧
    ((∀ o, i = .mute o → o.toNat ≠ k) → (∀ o, i = .unmute o → o.toNat ≠ k) → v'.muted = v.muted) ∧
    ((∀ o b, i = .usenaive o b → o.toNat ≠ k) → v'.naive = v.naive) ∧
    ((∀ o, i = .next o → o.toNat ≠ k) → v'.phase = v.phase ∧ v'.last = v.last) := by
  cases h with
  | same h => subst h; simp
  | stale hi h => subst hi h; simp
  | command ho hc =>
    subst ho
    cases hc <;> simp [updateInc]

/-- Settles O50, register by register. -/
theorem whoWritesEachRegister : Obligations.WhoWritesEachRegister := by
  intro i s t h
  refine ⟨exec_sr h, fun k v hv => (exec_oscEffect h hv).imp fun v' hv' => ⟨hv'.1, hv'.2.fields⟩,
    fun htick hrun => ?_, fun hdeq htick hrun => exec_fifo h ?_, (exec_surroundings h).sout, exec_seq h, exec_ctrl h,
    exec_drops h, exec_errInfo h, fun j => exec_clears_sticky h, fun j => exec_sets_sticky h, exec_numOsc h,
    (exec_surroundings h).fifoDepth⟩
  · simpa [controllerState] using exec_controllerState h htick hrun
  · cases i with
    | deq => exact absurd rfl hdeq
    | tick => exact absurd rfl htick
    | runperiod n => exact absurd rfl (hrun n)
    | _ => rfl

end Sys2Proof.Machine
end

/-! ## The agents (R48, R61, R66, R70, R72, R181, R187, R236 to R238, R291, R292) -/
section

namespace Sys2Proof.Machine

/-! ### What a step starts -/

/-- Settles O5. -/
theorem stepRunsTheDecodedCommand : Obligations.StepRunsTheDecodedCommand := by
  refine ⟨fun s rest r ps i hs hq hp hd => ?_, fun s rest r ps i hs hpen hp hd => ?_⟩
  · rw [step_startsHost hs hq hp, runHost, hd]
  · rw [step_startsProducer hs hpen hp, runProducer, hd]

/-- Settles O6. -/
theorem placedWordRunsNext : Obligations.PlacedWordRunsNext := by
  intro s nbits w i hport hd
  rw [decodeTableWord, hport] at hd
  rw [State.withFetchWord, hport]
  cases hdec : decodeHost (tableRequest (w % 2 ^ nbits)) with
  | error d => simp [decodeOn, hdec] at hd
  | ok j =>
    have hij : j = i := by simpa [decodeOn, hdec] using hd
    refine (step_startsHost rfl rfl rfl).trans ?_
    rw [runHost, hdec, hij]
    rfl

/-- An entry whose agent is not enabled is passed (notes/assumptions/1.md). -/
theorem step_of_not_enabled {s : State} {m : Move} {rest : List Move} (hs : s.sched = m :: rest)
    (h : enabled m { s with sched := rest } = false) : step s = .next { s with sched := rest } :=
  (step_cons hs).trans (runMove_of_not_enabled h)

/-- Settles O13. -/
theorem disabledAgentsHold : Obligations.DisabledAgentsHold := by
  refine ⟨fun s rest hs hpen => ?_, fun s rest hs hp => ?_, fun s rest hs hq hp => ?_,
    fun s rest n e y hs hq hn hy => ?_, fun s rest hs hout => ?_⟩ <;> refine step_of_not_enabled hs ?_
  · simp [enabled, hpen]
  · simp [enabled, hp]
  · simp [enabled, hq, hp]
  · simp [enabled, hq, hn, hy]
  · simp [enabled, hout]

/-- Settles O14. -/
theorem synchroniserSinkAndPortSteps : Obligations.SynchroniserSinkAndPortSteps := by
  intro s rest
  refine ⟨fun hs h => ?_, fun hs h => ?_, fun hs h => ?_, fun hs h => ?_, fun y hs h => ?_, fun r hs => step_cons hs,
    fun r hs => step_cons hs⟩
  · exact (step_cons hs).trans (by rw [runMove, syncW, if_pos h])
  · exact step_of_not_enabled hs (by simpa [enabled] using h)
  · exact (step_cons hs).trans (by rw [runMove, syncR, if_pos h])
  · exact step_of_not_enabled hs (by simp [enabled, h])
  · exact (step_cons hs).trans (by simp only [runMove, sinkMove, h])

/-- Settles O15. -/
theorem producerNeverWaitsOnTheFifo : Obligations.ProducerNeverWaitsOnTheFifo := by
  intro s rest r ps hs hpen hp
  rw [step_startsProducer hs hpen hp, runProducer]
  cases hd : decodeProducer r with
  | error d => exact ⟨_, .illegal, rfl, rfl, rfl, (nomatch ·)⟩
  | ok i =>
    obtain ⟨e, -, hx⟩ := decodeProducer_pushes hd
    rcases enqueue_cases e { s with sched := rest, prodPort := ps } with ⟨-, he⟩ | ⟨hfull, he⟩
    · exact ⟨_, .ok, (hx _).trans (by rw [he]), rfl, rfl, (nomatch ·)⟩
    · exact ⟨_, .dropped, (hx _).trans (by rw [he]), rfl, rfl, fun _ => hfull⟩

/-! ### The producer side (R48, R70, R181) -/

/-- The entries of the producer side. -/
def ofProducerSide (m : Move) : Prop := m = .producer ∨ m = .syncW ∨ m = .syncR ∨ ∃ r, m = .presentProducer r

/-- `s` with the registers of the producer side of `u`. -/
def withProducerSide (u s : State) : State :=
  { s with
    qe := u.qe, wvis := u.wvis, rfree := u.rfree, sticky := u.sticky, drops := u.drops, prodPort := u.prodPort
    prodResp := u.prodResp }

/-- A push does the same whatever the consumer side. -/
theorem enqueue_withProducerSide (e : EventWord) {u s : State} (hd : s.fifoDepth = u.fifoDepth) :
    enqueue e (withProducerSide u s) = withProducerSide (enqueue e u) s := by
  rcases enqueue_cases e u with ⟨hroom, hu⟩ | ⟨hfull, hu⟩ <;>
    rcases enqueue_cases e (withProducerSide u s) with ⟨hroom', hs⟩ | ⟨hfull', hs⟩ <;> rw [hu, hs]
  · rfl
  · change s.fifoDepth ≤ u.qe.length + u.rfree at hfull'
    omega
  · change u.qe.length + u.rfree < s.fifoDepth at hroom'
    omega
  · rfl

/-- An entry of the producer side reads and writes that side alone, but for `PEN` and the depth: on a state with
the same two and the producer side of `s` it does what it does on `s`. -/
theorem runMove_withProducerSide {m : Move} (hm : ofProducerSide m) {s u t : State} (h : runMove m s = .next u)
    (hpen : t.ctrl.pen = s.ctrl.pen) (hd : t.fifoDepth = s.fifoDepth) :
    runMove m (withProducerSide s t) = .next (withProducerSide u t) := by
  rcases hm with rfl | rfl | rfl | ⟨r, rfl⟩
  · rcases producerMove_cases s with ⟨hx, hno⟩ | ⟨r, ps, hp, hport, hx⟩
    · cases hx.symm.trans h
      rcases hno with hno | hno
      · exact producerMove_held (s := withProducerSide s t) (hpen.trans hno)
      · exact producerMove_nothing (s := withProducerSide s t) hno
    · refine (producerMove_start (s := withProducerSide s t) (hpen.trans hp) hport).trans ?_
      rcases hx with ⟨d, hdec, hx⟩ | ⟨i, e, hdec, he, hx⟩ <;> cases hx.symm.trans h
      · rw [runProducer, hdec]
        rfl
      · obtain ⟨e', he', hexec⟩ := decodeProducer_pushes hdec
        cases he.symm.trans he'
        rw [runProducer, hdec]
        exact (hexec _).trans (congrArg _ (enqueue_withProducerSide e (u := { s with prodPort := ps }) hd))
  · cases h
    by_cases hw : s.wvis < s.qe.length <;> simp only [runMove, syncW, withProducerSide, hw, if_true, if_false]
  · cases h
    by_cases hr : 0 < s.rfree <;> simp only [runMove, syncR, withProducerSide, hr, if_true, if_false]
  · cases h
    rfl

/-- R48: an entry of the producer side writes that side alone. -/
theorem runMove_producerSide_frame {m : Move} (hm : ofProducerSide m) {s u : State} (h : runMove m s = .next u) :
    u = withProducerSide u s :=
  Host.Outcome.next.inj (h.symm.trans (runMove_withProducerSide hm h (t := s) rfl rfl))

/-- The producer side sets no sticky bit but `OVF` and `PILL` (R48). -/
theorem runMove_producerSide_sticky {m : Move} (hm : ofProducerSide m) {s u : State} (h : runMove m s = .next u)
    {j : Nat} (hj : j = 1 ∨ j = 2 ∨ j = 3) : u.sticky.getLsbD j = s.sticky.getLsbD j := by
  have hovf : OVF.getLsbD j = false := by rcases hj with rfl | rfl | rfl <;> rfl
  have hpill : PILL.getLsbD j = false := by rcases hj with rfl | rfl | rfl <;> rfl
  rcases hm with rfl | rfl | rfl | ⟨r, rfl⟩
  · rcases producerMove_cases s with ⟨hx, -⟩ | ⟨r, ps, -, -, ⟨d, -, hx⟩ | ⟨i, e, -, -, hx⟩⟩ <;> cases hx.symm.trans h
    · rfl
    · simp [raiseProducer, BitVec.getLsbD_or, hpill]
    · rcases enqueue_cases e { s with prodPort := ps } with ⟨-, he⟩ | ⟨-, he⟩ <;> rw [he]
      simp [BitVec.getLsbD_or, hovf]
  · cases h
    simp
  · cases h
    simp
  · cases h
    rfl

/-- Settles O16. -/
theorem producerSideLeavesConsumerState : Obligations.ProducerSideLeavesConsumerState := by
  intro s t m rest hm hs h
  have hx := (step_cons hs).symm.trans h
  rw [runMove_producerSide_frame hm hx]
  exact ⟨rfl, rfl, rfl, rfl, rfl, rfl, rfl, rfl, rfl, rfl, rfl, rfl, rfl, rfl, rfl,
    fun j hj => runMove_producerSide_sticky hm hx hj⟩

/-- Two blocks with the same queue, `RFREE`, `DROPS` and producer port and answer, and the same sticky bits where
they were the same in `a` and `b` (R181). -/
def SameProducer (a b s s' : State) : Prop :=
  s.prodPort = s'.prodPort ∧ s.qe = s'.qe ∧ s.rfree = s'.rfree ∧ s.drops = s'.drops ∧ s.prodResp = s'.prodResp ∧
    ∀ j, a.sticky.getLsbD j = b.sticky.getLsbD j → s.sticky.getLsbD j = s'.sticky.getLsbD j

theorem SameProducer.raise {a b s s' : State} (h : SameProducer a b s s') :
    SameProducer a b (raiseProducer s) (raiseProducer s') := by
  obtain ⟨hp, hq, hr, hdr, -, hst⟩ := h
  exact ⟨hp, hq, hr, hdr, rfl, fun j hj => by simp [raiseProducer, BitVec.getLsbD_or, hst j hj]⟩

theorem SameProducer.enqueue {a b s s' : State} (h : SameProducer a b s s') (hd : s.fifoDepth = s'.fifoDepth)
    (e : EventWord) : SameProducer a b (enqueue e s) (enqueue e s') := by
  obtain ⟨hp, hq, hr, hdr, -, hst⟩ := h
  have hlen : s.qe.length = s'.qe.length := congrArg _ hq
  rcases enqueue_cases e s with ⟨hroom, hx⟩ | ⟨hfull, hx⟩ <;>
    rcases enqueue_cases e s' with ⟨hroom', hx'⟩ | ⟨hfull', hx'⟩ <;> rw [hx, hx']
  · exact ⟨hp, congrArg (· ++ [e]) hq, hr, hdr, rfl, hst⟩
  · omega
  · omega
  · exact ⟨hp, hq, hr, congrArg saturatingSucc hdr, rfl, fun j hj => by simp [BitVec.getLsbD_or, hst j hj]⟩

/-- The step of `PROD` on two blocks that agree on what it reads. -/
theorem SameProducer.producerMove {s s' t t' : State} (h : SameProducer s s' s s')
    (hd : s.fifoDepth = s'.fifoDepth) (hpen : s.ctrl.pen = s'.ctrl.pen) (ht : producerMove s = .next t)
    (ht' : producerMove s' = .next t') : SameProducer s s' t t' := by
  obtain ⟨hp, hrest⟩ := h
  rcases producerMove_cases s with ⟨hx, hno⟩ | ⟨r, ps, hpn, hport, hx⟩
  · cases hx.symm.trans ht
    have hx' : Machine.producerMove s' = .next s' :=
      hno.elim (fun hno => producerMove_held (hpen.symm.trans hno)) fun hno => producerMove_nothing (hp.symm.trans hno)
    cases hx'.symm.trans ht'
    exact ⟨hp, hrest⟩
  · rw [producerMove_start (hpen.symm.trans hpn) (hp.symm.trans hport), runProducer] at ht'
    have hbase : SameProducer s s' { s with prodPort := ps } { s' with prodPort := ps } := ⟨rfl, hrest⟩
    rcases hx with ⟨d, hdec, hx⟩ | ⟨i, e, hdec, he, hx⟩ <;> cases hx.symm.trans ht <;> rw [hdec] at ht'
    · cases ht'
      exact hbase.raise
    · obtain ⟨e', he', hexec⟩ := decodeProducer_pushes hdec
      cases he.symm.trans he'
      cases (hexec _).symm.trans ht'
      exact hbase.enqueue hd e

/-- Settles O17. -/
theorem producerReadsNoConsumerState : Obligations.ProducerReadsNoConsumerState := by
  intro s s' t t' rest rest' hs hs' hp hpen hq hr hd hdr hresp h h'
  have hsame : SameProducer { s with sched := rest } { s' with sched := rest' } { s with sched := rest }
      { s' with sched := rest' } := ⟨hp, hq, hr, hdr, hresp, fun _ hj => hj⟩
  obtain ⟨hp, hq, hr, hdr, hresp, hst⟩ :=
    hsame.producerMove hd hpen ((step_cons hs).symm.trans h) ((step_cons hs').symm.trans h')
  exact ⟨hp, hq, hr, hdr, hresp, fun j _ => hst j⟩

/-! ### Render steps and the producer side (R70, R236) -/

/-- A busy sequencer takes the step its effect names. -/
theorem RenderEffect.renderStep {s t : State} (h : RenderEffect s t) : renderStep s = .next t := by
  cases h with
  | couple hq => simp only [Machine.renderStep, hq]
  | wait hq hn hy => simp only [Machine.renderStep, hq, if_neg hn, sampleStep, hy]
  | sample hq hn hs hp => simp only [Machine.renderStep, hq, if_neg hn, sampleStep, hs, nextSample, hp]
  | finish hq => simp only [Machine.renderStep, hq, if_true, okHost]

theorem RenderEffect.busy {s t : State} (h : RenderEffect s t) : s.seq ≠ .idle := by
  cases h <;> simp [*]

/-- A render step reads and writes nothing of the producer side. -/
theorem RenderEffect.withProducerSide {s t : State} (h : RenderEffect s t) (u : State) :
    RenderEffect (withProducerSide u s) (withProducerSide u t) := by
  cases h with
  | couple hq =>
    convert RenderEffect.couple (s := Machine.withProducerSide u s) hq using 1
    cases ha : s.ctrl.auto <;> simp [Machine.withProducerSide, ha]
  | wait hq hn hy => exact .wait (s := Machine.withProducerSide u s) hq hn hy
  | sample hq hn hs hp => exact .sample (s := Machine.withProducerSide u s) hq hn hs hp
  | finish hq => exact .finish (s := Machine.withProducerSide u s) hq

/-- A render step leaves the producer side, `CTRL` and the depth. -/
theorem RenderEffect.leaves {s t : State} (h : RenderEffect s t) :
    Machine.withProducerSide s t = t ∧ t.ctrl = s.ctrl ∧ t.fifoDepth = s.fifoDepth := by
  cases h with
  | couple => cases ha : s.ctrl.auto <;> simp [Machine.withProducerSide]
  | _ => exact ⟨rfl, rfl, rfl⟩

/-- Settles O18: both orders lead to the render step's state with the producer side of the other step's. -/
theorem renderAndProducerStepsCommute : Obligations.RenderAndProducerStepsCommute := by
  intro s t u m hm hbusy ht hu
  have hb : s.seq ≠ .idle := by simpa [busy] using hbusy
  have heff : RenderEffect s t := renderStep_effect hb ((hostMove_busy hb).symm.trans ht)
  obtain ⟨hside, hctrl, hdepth⟩ := heff.leaves
  refine ⟨withProducerSide u t, ?_, ?_⟩
  · rw [← hside, runMove_withProducerSide hm hu (congrArg _ hctrl) hdepth]
    rfl
  · have heff' := heff.withProducerSide u
    rw [← runMove_producerSide_frame hm hu] at heff'
    exact (hostMove_busy heff'.busy).trans heff'.renderStep

end Sys2Proof.Machine
end

/-! ## Reset and the commands, one by one (R133 to R140, R182 to R203, R231 to R233, R268, R291, R292) -/
section

namespace Sys2Proof.Machine

/-! ### Reset (R291, R292) -/

theorem reset_eq_literals : Osc.reset =
    { mode := .square, freq := 0x407B800000000000#64, pitch := 0#64, phase := 0#64, inc := 0x3FB00C6938F15E29#64,
      muted := false, naive := false, last := 0#64, stale := false } := by
  have hinc : incrementOf SR_RESET A4_HZ PZERO = 0x3FB00C6938F15E29#64 := by
    rw [incrementOf, effectiveFreq, show deviation PZERO = PZERO from deviationOfPitch.2.1]
    decide +kernel
  rw [Osc.reset, hinc]
  rfl

/-- Settles O19. -/
theorem resetLeavesTheListedValues : Obligations.ResetLeavesTheListedValues := by
  have hctrl : ctrlWord ⟨true, true, 0#5⟩ = 0x0000000000000003#64 := by decide
  have hirq : (0#5 &&& 0#5 != 0#5) = false := by decide
  exact ⟨fun extra depth => ⟨rfl, numOsc_resetWith extra depth, fun i v h => (isOsc_resetWith h).trans reset_eq_literals,
    rfl, rfl, rfl, rfl, rfl, rfl, rfl, rfl, hctrl, rfl, rfl, rfl, rfl, rfl, hirq⟩, rfl, by decide, by decide⟩

/-- Settles O20. -/
theorem resetStepFromAnyState : Obligations.ResetStepFromAnyState := fun s _ hs =>
  ⟨step_cons hs, rfl, rfl, rfl, rfl, rfl, rfl, numOsc_resetWith s.osc.others.length s.fifoDepth⟩

/-! ### Oscillator commands (R133 to R140) -/

/-- Settles O21. -/
theorem setmodeStoresTheMode : Obligations.SetmodeStoresTheMode := fun _ o w =>
  ⟨modeOfCode (w.extractLsb' 0 2), decodeHost_formatI o 0x01#8 w rfl, modeCode_modeOfCode _,
    fun _ hv => onOscillator_of_isOsc hv _ _, fun h => onOscillator_of_badIndex h _ _⟩

/-- Settles O22. -/
theorem setfreqAndSetpitchRecomputeTheIncrement : Obligations.SetfreqAndSetpitchRecomputeTheIncrement := fun _ o w =>
  ⟨decodeHost_formatI o 0x02#8 w rfl, decodeHost_formatI o 0x03#8 w rfl,
    fun _ _ hv => ⟨onOscillator_of_isOsc hv _ _, onOscillator_of_isOsc hv _ _⟩,
    fun _ h => ⟨onOscillator_of_badIndex h _ _, onOscillator_of_badIndex h _ _⟩⟩

/-- Settles O23. -/
theorem flagCommandsWriteTheirFlag : Obligations.FlagCommandsWriteTheirFlag := by
  intro s o w
  refine ⟨decodeHost_formatI o 0x04#8 w rfl, decodeHost_formatI o 0x05#8 w rfl, ?_,
    fun v hv => ⟨onOscillator_of_isOsc hv _ _, onOscillator_of_isOsc hv _ _, fun b => onOscillator_of_isOsc hv _ _⟩,
    fun h => ⟨onOscillator_of_badIndex h _ _, onOscillator_of_badIndex h _ _, fun b => onOscillator_of_badIndex h _ _⟩⟩
  exact decodeHost_formatI o 0x06#8 w rfl

/-- Settles O24. -/
theorem setsrMarksEveryInstanceStale : Obligations.SetsrMarksEveryInstanceStale := by
  intro s w
  refine ⟨decodeHost_formatN 0x08#8 w rfl, fun x h1 h2 => ?_, fun x hno => ?_⟩
  · rcases execSetsr_cases x s with ⟨-, hx⟩ | ⟨hr, -⟩
    · exact ⟨_, hx, mapOsc_others_length _ _, fun i v hv => by rw [getOsc_mapOsc, hv]; rfl⟩
    · rw [(acceptableRate_iff x).2 ⟨h1, h2⟩] at hr
      cases hr
  · rcases execSetsr_cases x s with ⟨hr, -⟩ | ⟨-, hx⟩
    · exact absurd ((acceptableRate_iff x).1 hr) hno
    · exact hx

/-- Settles O25: a phase and an increment in range are advanced with at most one round of the loop
(`advancePhase_inRange`). -/
theorem nextSamplesThenAdvances : Obligations.NextSamplesThenAdvances := by
  intro s o w
  refine ⟨decodeHost_formatI o 0x07#8 w rfl, fun v hv hp hi => ?_, fun h => onOscillator_of_badIndex h _ _⟩
  obtain ⟨p, hadv, rfl, -⟩ := advancePhase_inRange hp hi
  refine (onOscillator_of_isOsc hv _ _).trans ?_
  simp only [nextSample, hadv]
  rfl

/-! ### Event controller commands (R182, R183, R188, R189, R195 to R200) -/

/-- Settles O32. -/
theorem producerCommandsPushOrDrop : Obligations.ProducerCommandsPushOrDrop := by
  intro s w i e
  refine ⟨decodeProducer_enq w, decodeProducer_rawin w, fun hi => ?_⟩
  have hx : exec i s = .next (enqueue e s) := by
    rcases hi with ⟨tag, key, x, rfl, rfl⟩ | ⟨r, rfl, rfl⟩ <;> rfl
  rcases enqueue_cases e s with ⟨hroom, he⟩ | ⟨hfull, he⟩
  · exact ⟨fun _ => by rw [hx, he], fun h => absurd hroom (by omega)⟩
  · exact ⟨fun h => absurd hfull (by omega), fun _ => by rw [hx, he]; rfl⟩

/-- Settles O35. -/
theorem deqPopsTheOldestVisibleWord : Obligations.DeqPopsTheOldestVisibleWord := by
  intro s w
  refine ⟨decodeHost_formatN 0x10#8 w rfl, fun k e q hw hq => ?_, fun hw => ?_⟩
  · change okHost (fifoPop s).1 (fifoPop s).2 = _
    rw [fifoPop_of_visible hw hq]
    rfl
  · change okHost (fifoPop s).1 (fifoPop s).2 = _
    rw [fifoPop_of_empty hw]
    rfl

theorem tickBody_of_visible {s : State} {k : Nat} {e : EventWord} {q : List EventWord} (hw : s.wvis = k + 1)
    (hq : s.qe = e :: q) : tickBody s =
      (e, applyEvent e { s with cNote := 0xFF#8, qe := q, wvis := k, rfree := s.rfree + 1 }) := by
  rw [tickBody, fifoPop_of_visible (s := clearNote s) hw hq]
  rfl

theorem tickBody_of_empty {s : State} (hw : s.wvis = 0) : tickBody s = (EMPTY_WORD, { s with cNote := 0xFF#8 }) := by
  rw [tickBody, fifoPop_of_empty (s := clearNote s) hw]
  rfl

/-- A `TICK` that pops `e` applies it and answers it. -/
theorem exec_tick_of_visible {s : State} {k : Nat} {e : EventWord} {q : List EventWord} (hw : s.wvis = k + 1)
    (hq : s.qe = e :: q) : exec .tick s =
      okHost e (applyEvent e { s with cNote := 0xFF#8, qe := q, wvis := k, rfree := s.rfree + 1 }) := by
  change okHost (tickBody s).1 (tickBody s).2 = _
  rw [tickBody_of_visible hw hq]

/-- Settles O36, by the cases of `applyEvent`. -/
theorem tickAppliesOneEvent : Obligations.TickAppliesOneEvent := by
  intro s w
  refine ⟨decodeHost_formatN 0x11#8 w rfl, fun hw => ?_, fun k e q hw hq => ?_⟩
  · change okHost (tickBody s).1 (tickBody s).2 = _
    rw [tickBody_of_empty hw]
    rfl
  · rw [exec_tick_of_visible hw hq]
    rcases applyEvent_cases e { s with cNote := 0xFF#8, qe := q, wvis := k, rfree := s.rfree + 1 } with
      ⟨ht, hv, hx⟩ | ⟨ht, hv, hx⟩ | ⟨ht, hx⟩ | ⟨ht, hx⟩ | ⟨h1, h2, h3, hx⟩ <;> rw [hx]
    · simp [ht, hv, okHost, respondHost, setHeld]
    · simp [ht, hv, okHost, respondHost]
    · simp [ht, okHost, respondHost, clearHeld, SILENT, PZERO]
    · simp [ht, okHost, respondHost]
    · simp [h1, h2, h3, okHost, respondHost]

theorem getLsbD_setHeld (key : BitVec 7) (h : BitVec 128) {n : Nat} (hn : n < 128) :
    (setHeld key h).getLsbD n = if key.toNat = n then true else h.getLsbD n := by
  simp only [setHeld, BitVec.getLsbD_or, BitVec.getLsbD_shiftLeft, BitVec.getLsbD_one]
  split
  · simp; omega
  · have : ¬ (n - key.toNat = 0 ∧ key.toNat ≤ n) := by omega
    simp; omega

theorem getLsbD_clearHeld (key : BitVec 7) (h : BitVec 128) {n : Nat} (hn : n < 128) :
    (clearHeld key h).getLsbD n = if key.toNat = n then false else h.getLsbD n := by
  simp only [clearHeld, BitVec.getLsbD_and, BitVec.getLsbD_not, BitVec.getLsbD_shiftLeft, BitVec.getLsbD_one]
  split
  · simp; omega
  · simp; omega

/-- Settles O37, by the cases of `applyEvent`. -/
theorem heldBitOfEachNote : Obligations.HeldBitOfEachNote := by
  intro s t k e q n hw hq h hn
  cases (exec_tick_of_visible hw hq).symm.trans h
  rcases applyEvent_cases e { s with cNote := 0xFF#8, qe := q, wvis := k, rfree := s.rfree + 1 } with
    ⟨ht, hv, hx⟩ | ⟨ht, hv, hx⟩ | ⟨ht, hx⟩ | ⟨ht, hx⟩ | ⟨h1, h2, -, hx⟩ <;> rw [hx]
  · simp [ht, hv, getLsbD_setHeld _ _ hn]
  · simp [ht, hv]
  · simp [ht, getLsbD_clearHeld _ _ hn]
  · simp [ht]
  · simp [h1, h2]

/-- Settles O39. -/
theorem noteheldAnswersTheBit : Obligations.NoteheldAnswersTheBit := by
  intro s n w
  refine ⟨decodeHost_formatI n 0x12#8 w rfl, fun hn => ?_, fun hn => ?_⟩ <;>
    rcases execNoteheld_cases n s with ⟨hn', hx⟩ | ⟨hn', hx⟩
  · rw [hx]
    cases s.held.getLsbD n.toNat <;> rfl
  · omega
  · omega
  · exact hx

/-- The 64-bit results are zero-extended (R94). -/
theorem resultOf64_eq_append (x : BitVec 64) : resultOf64 x = 0#64 ++ x := (BitVec.setWidth_eq_append (by decide)).trans rfl

/-- Settles O40. -/
theorem nopAndAccessorsOnlyAnswer : Obligations.NopAndAccessorsOnlyAnswer := by
  intro s w
  simp only [← resultOf64_eq_append]
  exact ⟨decodeHost_formatN 0x00#8 w rfl, rfl, decodeHost_formatN 0x13#8 w rfl, decodeHost_formatN 0x14#8 w rfl,
    decodeHost_formatN 0x15#8 w rfl, decodeHost_formatN 0x16#8 w rfl, rfl, rfl, rfl, rfl⟩

/-! ### System commands and the registers (R40, R41, R44, R46, R232, R233) -/

/-- `RDREG` of a register of an oscillator that exists answers it. -/
theorem exec_rdreg {s : State} {sel o : BitVec 8} {v : Osc} (r : Selector) (hr : selectorOfCode sel = some r)
    (hok : perOscillator r = true ∨ o = 0#8) (hv : IsOsc s o.toNat v) :
    exec (.rdreg sel o) s = okHost (registerValue r v s) s := by
  rcases execRdreg_cases sel o s with ⟨hno, -⟩ | ⟨r', v', hr', -, hv', hx⟩ | ⟨-, -, -, hbad, -⟩
  · rw [readableSelector, hr] at hno
    rcases hok with h | h <;> simp [h] at hno
  · cases hr.symm.trans hr'
    cases hv.symm.trans hv'
    exact hx
  · exact absurd hv.index_lt (by omega)

/-- `RDREG` of a selector that is not readable with its index is `ILLEGAL`. -/
theorem exec_rdreg_illegal {s : State} {sel o : BitVec 8} (h : readableSelector sel o = false) :
    exec (.rdreg sel o) s = failHost .illegal (cmdOf (.rdreg sel o)) s := by
  rcases execRdreg_cases sel o s with ⟨-, hx⟩ | ⟨r, v, hr, hok, -, -⟩ | ⟨r, hr, hper, -, -⟩
  · exact hx
  · rw [readableSelector, hr] at h
    rcases hok with hok | hok <;> simp [hok] at h
  · rw [readableSelector, hr] at h
    simp [hper] at h

/-- `RDREG` of a per-oscillator register beyond the oscillators is `BAD_INDEX`. -/
theorem exec_rdreg_badIndex {s : State} {sel o : BitVec 8} (h : sel.toNat ∈ oscSelectors)
    (ho : numOsc s ≤ o.toNat) : exec (.rdreg sel o) s = failHost .badIndex (cmdOf (.rdreg sel o)) s := by
  rcases execRdreg_cases sel o s with ⟨hno, -⟩ | ⟨-, v, -, -, hv, -⟩ | ⟨-, -, -, -, hx⟩
  · rw [mem_oscSelectors_iff] at h
    rw [readableSelector] at hno
    cases hr : selectorOfCode sel with
    | none => simp [hr] at h
    | some r => simp_all
  · exact absurd hv.index_lt (by omega)
  · exact hx

theorem setWidth_oscFlags (v : Osc) : (oscFlags v).setWidth 128 =
    0#125 ++ BitVec.ofBool v.stale ++ BitVec.ofBool v.naive ++ BitVec.ofBool v.muted := by
  rw [oscFlags]
  generalize v.stale = a
  generalize v.naive = b
  generalize v.muted = c
  revert a b c
  decide

/-- Settles O41: the error cases by `exec_rdreg_illegal` and `exec_rdreg_badIndex`, each register by `exec_rdreg`. -/
theorem rdregAnswersEverySelector : Obligations.RdregAnswersEverySelector := by
  intro s w sel o
  have h0 : IsOsc s (0#8).toNat s.osc.first := rfl
  simp only [← resultOf64_eq_append]
  refine ⟨decodeHost_rdreg sel o w, fun hg ho => exec_rdreg_illegal ?_, fun hg ho => exec_rdreg_illegal ?_,
    fun h ho => exec_rdreg_badIndex h ho, exec_rdreg .sr rfl (.inr rfl) h0, exec_rdreg .ctrl rfl (.inr rfl) h0,
    exec_rdreg .status rfl (.inr rfl) h0, (exec_rdreg .drops rfl (.inr rfl) h0).trans ?_,
    exec_rdreg .fifoLevel rfl (.inr rfl) h0, exec_rdreg .errInfo rfl (.inr rfl) h0,
    exec_rdreg .params rfl (.inr rfl) h0, exec_rdreg .held rfl (.inr rfl) h0, exec_rdreg .cFreq rfl (.inr rfl) h0,
    exec_rdreg .cVel rfl (.inr rfl) h0, exec_rdreg .cBend rfl (.inr rfl) h0, exec_rdreg .cNote rfl (.inr rfl) h0,
    fun v hv => ⟨(exec_rdreg .oMode rfl (.inl rfl) hv).trans ?_, exec_rdreg .oFreq rfl (.inl rfl) hv,
      exec_rdreg .oPitch rfl (.inl rfl) hv, exec_rdreg .oPhase rfl (.inl rfl) hv, exec_rdreg .oInc rfl (.inl rfl) hv,
      (exec_rdreg .oFlags rfl (.inl rfl) hv).trans ?_, exec_rdreg .oLast rfl (.inl rfl) hv⟩⟩
  · exact (readableSelector_eq_false_iff sel o).2 (.inl (by simp [hg, ho]))
  · exact (readableSelector_eq_false_iff sel o).2 (.inr ⟨hg, ho⟩)
  · rw [registerValue, BitVec.setWidth_eq_append (by decide)]
    rfl
  · rw [registerValue, BitVec.setWidth_eq_append (by decide)]
    rfl
  · rw [registerValue, setWidth_oscFlags]
    rfl

/-- Settles O42. -/
theorem wrcsrWritesThreeRegisters : Obligations.WrcsrWritesThreeRegisters := by
  intro s sel v w
  refine ⟨decodeHost_wrcsr sel w, rfl, rfl, rfl, fun h1 h2 h3 => ?_⟩
  rcases execWrcsr_cases sel v s with ⟨h, -⟩ | ⟨h, -⟩ | ⟨h, -⟩ | ⟨-, hx⟩
  · exact absurd h h1
  · exact absurd h h2
  · exact absurd h h3
  · exact hx

/-- Some oscillator is stale exactly when `STALEANY` shows it (R41). -/
theorem staleAny_iff (s : State) : staleAny s = true ↔ ∃ i v, IsOsc s i v ∧ v.stale = true := by
  simp only [staleAny, Bool.or_eq_true, List.any_eq_true]
  constructor
  · rintro (h | ⟨v, hv, h⟩)
    · exact ⟨0, _, rfl, h⟩
    · obtain ⟨k, hk⟩ := List.mem_iff_getElem?.1 hv
      exact ⟨k + 1, v, hk, h⟩
  · rintro ⟨i, v, hv, h⟩
    cases i with
    | zero => cases hv; exact .inl h
    | succ k => exact .inr ⟨v, List.mem_of_getElem? hv, h⟩

theorem legalDepth_le {d : Nat} (h : Config.legalDepth d = true) : d ≤ 2 ^ 16 := by
  simp only [Config.legalDepth, List.any_eq_true, List.mem_range, beq_iff_eq] at h
  obtain ⟨k, hk, rfl⟩ := h
  exact Nat.pow_le_pow_right (by decide) (by omega)

theorem ctrlWord_ctrlOfWord (v : BitVec 64) : ctrlWord (ctrlOfWord v) = v &&& 0x1F03#64 := by
  refine BitVec.eq_of_getLsbD_eq fun i hi => ?_
  simp only [ctrlWord, ctrlOfWord, BitVec.getLsbD_append, BitVec.getLsbD_and]
  interval_cases i <;> simp

/-- The fields of `STATUS` (R41). -/
theorem getLsbD_statusWord (s : State) (j : Nat) : (statusWord s).getLsbD j =
    if j < 5 then s.sticky.getLsbD j else if j = 8 then statusEmpty s else if j = 9 then statusFull s
    else if j = 10 then staleAny s else false := by
  simp only [statusWord, BitVec.getLsbD_append, BitVec.getLsbD_ofBool, BitVec.getLsbD_zero]
  rcases lt_or_ge j 11 with h | h
  · interval_cases j <;> simp only [Nat.reduceLT, Nat.reduceSub, Nat.reduceEqDiff, reduceIte, decide_true,
      Bool.true_and]
  · rw [if_neg (by omega), if_neg (by omega), if_neg (by omega), if_neg (by omega), if_neg (by omega),
      if_neg (by omega), if_neg (by omega), if_neg (by omega), if_neg (by omega)]

/-- The fields of `PARAMS` (R44). -/
theorem paramsWord_fields (s : State) : (paramsWord s).extractLsb' 0 16 = BitVec.ofNat 16 (numOsc s) ∧
    (paramsWord s).extractLsb' 16 32 = BitVec.ofNat 32 s.fifoDepth ∧ (paramsWord s).extractLsb' 48 16 = 0#16 := by
  refine ⟨?_, ?_, ?_⟩ <;> refine BitVec.eq_of_getLsbD_eq fun i hi => ?_ <;>
    simp only [paramsWord, BitVec.getLsbD_extractLsb', BitVec.getLsbD_append, hi]
  · simp only [Nat.zero_add, hi, decide_true, Bool.true_and, if_true]
  · simp [hi]
  · simp [show ¬ 48 + i < 16 by omega, show ¬ 48 + i - 16 < 32 by omega]

/-- Settles O43. -/
theorem controlAndStatusBits : Obligations.ControlAndStatusBits := by
  refine ⟨ctrlWord_ctrlOfWord, fun s => ⟨fun j hj => ?_, ?_, ?_, ?_, fun j hj h5 h8 h9 h10 => ?_⟩, fun s ⟨hd, hn⟩ => ?_⟩
  · rw [getLsbD_statusWord, if_pos hj]
  · rw [getLsbD_statusWord]
    simp [statusEmpty]
  · rw [getLsbD_statusWord]
    simp [statusFull]
  · rw [getLsbD_statusWord]
    simp [staleAny_iff]
  · rw [getLsbD_statusWord, if_neg h5, if_neg h8, if_neg h9, if_neg h10]
  · obtain ⟨hosc, hdepth, hzero⟩ := paramsWord_fields s
    have hle := legalDepth_le hd
    rw [hosc, hdepth]
    exact ⟨Nat.mod_eq_of_lt (by omega), Nat.mod_eq_of_lt (by omega), hzero⟩

/-- Settles O44. -/
theorem irqIsTheEnabledStickyBits : Obligations.IrqIsTheEnabledStickyBits := by
  refine ⟨fun s => ?_, fun s t h => ?_⟩
  · rw [irq]
    generalize s.sticky = b
    generalize s.ctrl.ie = e
    revert b e
    decide
  · cases h
    change (s.sticky &&& ~~~0x1F#5 &&& s.ctrl.ie != 0#5) = false
    simp

end Sys2Proof.Machine
end

/-! ## The render period (R234 to R238, R305) -/
section

namespace Sys2Proof.Machine

/-- Settles O45. -/
theorem runperiodBeginsWithTheTick : Obligations.RunperiodBeginsWithTheTick := fun s w =>
  ⟨decodeHost_formatN 0x20#8 w rfl, fun _ => ⟨(tickBody s).2, (tickBody s).1, rfl, rfl, rfl⟩⟩

/-- A step of `HOST` while a period is in progress is the sequencer's. -/
theorem step_of_renderEffect {s t : State} {rest : List Move} (hs : s.sched = .host :: rest)
    (h : RenderEffect { s with sched := rest } t) : step s = .next t :=
  (step_cons hs).trans ((hostMove_busy h.busy).trans h.renderStep)

/-- Settles O46. -/
theorem couplingStep : Obligations.CouplingStep := by
  intro s rest n e hs hq
  have h := step_of_renderEffect hs (.couple hq)
  refine ⟨fun ha hf => h.trans ?_, fun ha hf => h.trans ?_, fun ha => h.trans ?_⟩
  · simp [ha, couple, coupledOsc, hf, updateInc]
  · simp [ha, couple, coupledOsc, hf, updateInc]
  · simp [ha]

/-- Settles O47. -/
theorem sampleStepAndEndOfPeriod : Obligations.SampleStepAndEndOfPeriod := by
  intro s rest n e hs hq
  refine ⟨fun hn hout hp hi => ?_, fun hn => ?_⟩
  · obtain ⟨p, hadv, -, -⟩ := advancePhase_inRange hp hi
    refine ⟨{ s.osc.first with last := lastAfterSample s.osc.first, phase := p }, ?_,
      step_of_renderEffect hs (.sample hq hn hout hadv)⟩
    rw [nextSample, hadv]
  · subst hn
    exact step_of_renderEffect hs (.finish hq)

/-! ### A whole period (R305) -/

theorem run_next {M : Host.Core} {k : Nat} {s u : M.State} (h : M.step s = .next u) :
    M.run (k + 1) s = M.run k u := by
  rw [Host.Core.run, h]

theorem run_step {k : Nat} {s u : State} (h : step s = .next u) :
    Host.Core.run core (k + 1) s = Host.Core.run core k u := run_next (M := core) h

/-- The first of a row of samples, and the row after it. -/
theorem renderSamples_succ {n : Nat} {o v : Osc} {ys : List F64} (h : renderSamples (n + 1) o = some (ys, v)) :
    ∃ y o' ys', nextSample o = some (y, o') ∧ renderSamples n o' = some (ys', v) ∧ ys = y :: ys' := by
  rw [renderSamples] at h
  split at h
  · cases h
  · split at h
    · cases h
    · cases h
      exact ⟨_, _, _, ‹_›, ‹_›, rfl⟩

theorem step_sink {s : State} {rest : List Move} {y : F64} (hs : s.sched = .sink :: rest) (hy : s.sout = some y) :
    step s = .next { s with sched := rest, sout := none, sinkLog := s.sinkLog ++ [y] } :=
  (step_cons hs).trans (by simp only [runMove, sinkMove, hy])

/-- `s` with `l` scheduled, after one sample of its period that the sink took at once: the sample `y`, oscillator
0 then `o`, and `m` samples left. -/
def afterSample (s : State) (l : List Move) (y : F64) (o : Osc) (m : BitVec 32) (e : EventWord) : State :=
  { s with
    sched := l, seq := .samples m e, sout := none, sinkLog := s.sinkLog ++ [y], osc := { s.osc with first := o } }

/-- A sample step and the sink's. -/
theorem run_host_sink {s : State} {l : List Move} {m : BitVec 32} {e : EventWord} {y : F64} {o : Osc}
    (hs : s.sched = .host :: .sink :: l) (hq : s.seq = .samples m e) (hm : m ≠ 0#32) (hout : s.sout = none)
    (hy : nextSample s.osc.first = some (y, o)) (k : Nat) :
    Host.Core.run core (k + 2) s = Host.Core.run core k (afterSample s l y o (m - 1#32) e) := by
  rcases nextSample_cases s.osc.first with ⟨p, hadv, hx⟩ | ⟨-, hx⟩ <;> cases hx.symm.trans hy
  have hhost := step_of_renderEffect hs (.sample hq hm hout hadv)
  rw [run_step hhost, run_step (step_sink rfl rfl)]
  rfl

/-- The sample steps of a period, the sink taking each sample at once, and its end. -/
theorem run_sampleMoves {rest : List Move} {e : EventWord} {v : Osc} (n : Nat) :
    ∀ {s : State} {m : BitVec 32} {ys : List F64}, m.toNat = n → s.seq = .samples m e → s.sout = none →
      s.sched = sampleMoves n ++ .host :: rest → renderSamples n s.osc.first = some (ys, v) →
      ys.length = n ∧ Host.Core.run core (2 * n + 1) s = .next { s with
        sched := rest, seq := .idle, sout := none, sinkLog := s.sinkLog ++ ys, osc := { s.osc with first := v }
        hostResp := some ⟨.ok, e⟩ } := by
  induction n with
  | zero =>
    intro s m ys hm hq hout hs hr
    cases hr
    obtain rfl : m = 0#32 := BitVec.eq_of_toNat_eq hm
    refine ⟨rfl, (run_step (step_of_renderEffect hs (.finish hq))).trans ?_⟩
    rw [List.append_nil, ← hout]
    rfl
  | succ n ih =>
    intro s m ys hm hq hout hs hr
    obtain ⟨y, o', ys', hy, hr', rfl⟩ := renderSamples_succ hr
    have hm0 : m ≠ 0#32 := by rintro rfl; cases hm
    have hm1 : (m - 1#32).toNat = n := by
      rw [BitVec.toNat_sub_of_le (by rw [BitVec.le_def, hm]; simp), hm]
      rfl
    obtain ⟨hlen, hrun⟩ :=
      ih (s := afterSample s (sampleMoves n ++ .host :: rest) y o' (m - 1#32) e) hm1 rfl rfl rfl hr'
    refine ⟨congrArg (· + 1) hlen, (run_host_sink hs hq hm0 hout hy (2 * n + 1)).trans (hrun.trans ?_)⟩
    simp only [afterSample, List.append_assoc, List.singleton_append]

theorem applyEvent_frame (e : EventWord) (s : State) (l : List Move) (ps : List Request) :
    applyEvent e { s with sched := l, hostPort := ps } = { applyEvent e s with sched := l, hostPort := ps } := by
  unfold applyEvent
  cases eventKindOfTag (eventTag e) with
  | noteOn =>
    simp only [applyNoteOn]
    split <;> rfl
  | _ => rfl

theorem fifoPop_frame (s : State) (l : List Move) (ps : List Request) : fifoPop { s with sched := l, hostPort := ps } =
    ((fifoPop s).1, { (fifoPop s).2 with sched := l, hostPort := ps }) := by
  cases hw : s.wvis <;> cases hq : s.qe <;> simp only [fifoPop, hw, hq]

/-- A `TICK` neither reads nor writes the schedule and the host port. -/
theorem tickBody_frame (s : State) (l : List Move) (ps : List Request) : tickBody { s with sched := l, hostPort := ps } =
    ((tickBody s).1, { (tickBody s).2 with sched := l, hostPort := ps }) := by
  rw [tickBody, show clearNote { s with sched := l, hostPort := ps } = { clearNote s with sched := l, hostPort := ps }
    from rfl, fifoPop_frame, applyEvent_frame]
  rfl

/-- The coupling, where `AUTO = 1`, is on oscillator 0 alone (R235). -/
theorem coupled_eq (s : State) : (if s.ctrl.auto then couple s else s) = { s with
    osc := { s.osc with first :=
      if s.ctrl.auto then coupledOsc s.sr s.cFreq s.cBend s.osc.first else s.osc.first } } := by
  split <;> rfl

/-- Oscillator 0 as the sample steps of the period that `s` starts find it (R234, R235). -/
def periodOsc (s : State) : Osc :=
  if s.ctrl.auto then coupledOsc s.sr (tickBody s).2.cFreq (tickBody s).2.cBend s.osc.first else s.osc.first

/-- The first two steps of a period: the `TICK`, then the coupling (R234, R235). -/
theorem run_runperiod_begin {s : State} {n : BitVec 32} {ps : List Request} {l : List Move} (hq : s.seq = .idle)
    (hp : s.hostPort = encode (.runperiod n) :: ps) (hs : s.sched = .host :: .host :: l) (k : Nat) :
    Host.Core.run core (k + 2) s = Host.Core.run core k { (tickBody s).2 with
      sched := l, hostPort := ps, hostResp := none, seq := .samples n (tickBody s).1
      osc := { s.osc with first := periodOsc s } } := by
  have hdec : decodeHost (encode (.runperiod n)) = .ok (.runperiod n) := decodeOfEncodeIsTheCommand (.runperiod n)
  have htick : step s = .next { (tickBody s).2 with
      sched := .host :: l, hostPort := ps, seq := .couple n (tickBody s).1, hostResp := none } := by
    rw [step_startsHost hs hq hp, runHost, hdec]
    change Host.Outcome.next _ = _
    rw [tickBody_frame]
  have hcouple := step_of_renderEffect (s := { (tickBody s).2 with
      sched := .host :: l, hostPort := ps, seq := .couple n (tickBody s).1, hostResp := none }) rfl (.couple rfl)
  rw [run_step htick, run_step hcouple, coupled_eq]
  simp [periodOsc]

/-- Settles O48: the `TICK` and the coupling are one step each, and `run_sampleMoves` is the rest. -/
theorem runperiodEmitsExactlyNSamples : Obligations.RunperiodEmitsExactlyNSamples := by
  intro s n ps rest ys v hq hout hp hs hr
  obtain ⟨hlen, hrun⟩ := run_sampleMoves n.toNat (s := { (tickBody s).2 with
      sched := sampleMoves n.toNat ++ .host :: rest, hostPort := ps, hostResp := none, seq := .samples n (tickBody s).1
      osc := { s.osc with first := periodOsc s } })
    rfl rfl ((tickBody_sout s).trans hout) rfl hr
  refine ⟨hlen, ?_⟩
  rw [show 2 + 2 * n.toNat + 1 = 2 * n.toNat + 1 + 2 by omega, run_runperiod_begin hq hp hs, hrun]
  congr 1
  rw [← (tickBody_sout s).trans hout, ← (tickBody_seq s).trans hq, ← tickBody_sinkLog s]

end Sys2Proof.Machine
end

/-! ## Visibility and fairness (R66, R237, R297, R298) -/
section

namespace Sys2Proof.Machine

/-! ### The latencies are real (R297, R298) -/

/-- The state after reset with `q` in the queue, none of it visible, and `n` slots waiting for release. -/
def hiddenState (q : List EventWord) (n : Nat) : State := { State.reset with qe := q, rfree := n }

theorem inv_hiddenState {q : List EventWord} {n : Nat} (hw : ∀ e ∈ q, canonicalWord e) (hn : q.length + n ≤ 64) :
    Inv (hiddenState q n) := by
  have h : Inv State.reset := resetMeetsTheInvariant 0 64 (by decide) (by decide)
  exact ⟨h.config, ⟨Nat.zero_le _, (Nat.le_add_left n q.length).trans hn, hn⟩, hw, h.rate, h.phases, h.incs, h.voice,
    h.note, h.errInfo⟩

/-- A queued word that no `SYNC_W` has shown is not seen by `TICK` (R297). -/
theorem exists_hidden_word : ∃ s t : State, Inv s ∧ s.qe ≠ [] ∧ exec .tick s = .next t ∧
    t.hostResp = some ⟨.ok, 0#128⟩ ∧ t.qe = s.qe :=
  ⟨hiddenState [0x3#128] 0, _, inv_hiddenState (by simp [canonicalWord]) (by decide), by decide, rfl, rfl, rfl⟩

/-- A slot that no `SYNC_R` has released is not free for a push (R298). -/
theorem exists_dropped_word : ∃ s t : State, ∃ x : F64, Inv s ∧ s.wvis < s.fifoDepth ∧
    exec (.penq 3#3 0#7 x) s = .next t ∧ t.prodResp = some .dropped :=
  ⟨hiddenState [] 64, _, PZERO, inv_hiddenState (by simp) (by decide), by decide, rfl, rfl⟩

/-! ### What one step does to hidden words and freed slots -/

section
variable {s t : State} {accepted popped : List EventWord}

/-- But for `SYNC_W`, a step hides the words it accepts and shows none. -/
theorem FifoStep.hiddenWords_eq (h : FifoStep s t accepted popped) (hb : fifoBounded s)
    (hw : ∀ rest, s.sched ≠ .syncW :: rest) : hiddenWords t = hiddenWords s ++ accepted := by
  rcases h with ⟨hqe, hwvis, -⟩ | ⟨e, -, hqe, hwvis, -⟩ | ⟨e, hsqe, hswvis, -⟩ | ⟨⟨rest, hs⟩, -⟩ |
    ⟨-, hqe, hwvis, -⟩
  · simp [hiddenWords, hqe, hwvis]
  · rw [hiddenWords, hqe, hwvis, List.drop_append_of_le_length hb.1, hiddenWords]
  · simp [hiddenWords, hsqe, hswvis]
  · exact absurd hs (hw rest)
  · simp [hiddenWords, hqe, hwvis]

/-- But for `SYNC_R`, a step frees the slots of the words it pops and releases none. -/
theorem FifoStep.rfree_eq (h : FifoStep s t accepted popped) (hr : ∀ rest, s.sched ≠ .syncR :: rest) :
    t.rfree = s.rfree + popped.length := by
  rcases h with ⟨-, -, hfree⟩ | ⟨e, -, -, -, hfree⟩ | ⟨e, -, -, hfree⟩ | ⟨-, -, -, -, hfree⟩ | ⟨⟨rest, hs⟩, -⟩
  · exact hfree
  · exact hfree
  · exact hfree
  · exact hfree
  · exact absurd hs (hr rest)

end

/-! ### What fairness brings about (R66, R237) -/

section
variable {x : Execution}

theorem Execution.fifoStep {k : Nat} (hr : x.moves k ≠ .reset) :
    FifoStep (x.scheduled k) (x.states (k + 1)) (acceptsNow (x.scheduled k)) (popsNow (x.scheduled k)) :=
  step_fifo (x.step_scheduled k) fun _ h => hr (List.cons.inj h).1

theorem Execution.fifoBounded_succ {k : Nat} (h : fifoBounded (x.states k)) : fifoBounded (x.states (k + 1)) :=
  fifoBoundsAreKept (x.scheduled k) _ h (x.step_scheduled k)

theorem resetFrom_add {k n m : Nat} (h : resetFrom x (k + n) m) : resetFrom x k (n + m) := by
  obtain ⟨j, hj, hm⟩ := h
  exact ⟨n + j, by omega, by rwa [← Nat.add_assoc]⟩

/-- While a condition that keeps a weakly fair agent enabled lasts, and every step but the agent's and reset keeps
it, the agent's step comes, with the condition still true, unless reset comes first. -/
theorem Execution.weaklyFair.reaches {m : Move} (h : x.weaklyFair m) (k : Nat) {P : Nat → Prop} (h0 : P 0)
    (hen : ∀ n, P n → enabled m (x.states (k + n)) = true)
    (hstep : ∀ n, P n → x.moves (k + n) ≠ m → x.moves (k + n) ≠ .reset → P (n + 1)) :
    ∃ n, resetFrom x k n ∨ (x.moves (k + n) = m ∧ P n) := by
  obtain ⟨n, hn, hbefore⟩ := h.first k
  by_cases hreset : resetFrom x k n
  · exact ⟨n, .inl hreset⟩
  have hP : ∀ j, j ≤ n → P j := by
    intro j
    induction j with
    | zero => exact fun _ => h0
    | succ j ih => exact fun hj => hstep j (ih (by omega)) (hbefore j hj).1 fun hr => hreset ⟨j, hj, hr⟩
  refine ⟨n, .inr ⟨hn.resolve_right fun hoff => ?_, hP n le_rfl⟩⟩
  rw [hen n (hP n le_rfl)] at hoff
  cases hoff

/-- A step of `SYNC_W` shows the oldest hidden word. -/
theorem Execution.hiddenWords_syncW {k : Nat} (hm : x.moves k = .syncW) :
    hiddenWords (x.states (k + 1)) = (hiddenWords (x.states k)).tail := by
  have h := x.runMove_eq k
  rw [hm] at h
  rw [← Host.Outcome.next.inj h, syncW, hiddenWords, hiddenWords]
  split
  · simp
  · rename_i hno
    simp only at hno
    simp [List.drop_eq_nil_of_le (Nat.not_lt.1 hno)]

/-- Words hidden before become visible: by some step only `new` and what was accepted since is hidden, if `new` was
hidden behind the others. By induction on those others, each shown by one step of `SYNC_W`. -/
theorem exists_old_words_visible (hf : x.weaklyFair .syncW) (old : List EventWord) :
    ∀ (k : Nat) (new : List EventWord), fifoBounded (x.states k) → hiddenWords (x.states k) = old ++ new →
      ∃ n, resetFrom x k n ∨ hiddenWords (x.states (k + n)) <:+ new ++ acceptedFrom x k n := by
  induction old with
  | nil => exact fun k new _ h => ⟨0, .inr (by simp [h, acceptedFrom])⟩
  | cons e old ih =>
    intro k new hb h
    obtain ⟨n, hr | ⟨hm, hbn, hn⟩⟩ := hf.reaches k
      (P := fun n => fifoBounded (x.states (k + n)) ∧
        hiddenWords (x.states (k + n)) = e :: old ++ new ++ acceptedFrom x k n)
      ⟨hb, by simp [h, acceptedFrom]⟩
      (fun n ⟨_, hn⟩ => by
        have hpos := congrArg List.length hn
        simp only [hiddenWords, List.length_drop, List.length_append, List.length_cons] at hpos
        exact decide_eq_true (by omega))
      (fun n ⟨hbn, hn⟩ hw hr => ⟨Execution.fifoBounded_succ hbn, by
        have hstep := (Execution.fifoStep hr).hiddenWords_eq hbn fun _ h => hw (List.cons.inj h).1
        rw [← Nat.add_assoc, hstep, acceptedFrom, ← List.append_assoc]
        exact congrArg (· ++ _) hn⟩)
    · exact ⟨n, .inl hr⟩
    · have hacc : acceptedFrom x k (n + 1) = acceptedFrom x k n := by
        rw [acceptedFrom, acceptsNow_of_not_producer (by simp [Execution.scheduled, hm]), List.append_nil]
      obtain ⟨n', hn'⟩ := ih (k + (n + 1)) (new ++ acceptedFrom x k (n + 1))
        (Execution.fifoBounded_succ hbn)
        ((Execution.hiddenWords_syncW hm).trans (by rw [hn, hacc]; simp))
      refine ⟨n + 1 + n', hn'.imp resetFrom_add fun hs => ?_⟩
      rwa [acceptedFrom_add, ← List.append_assoc, ← Nat.add_assoc]

/-- Freed slots are released: by some step at most `rest` more than were freed since wait, if `c` more than `rest`
waited. By induction on `c`, one step of `SYNC_R` for each. -/
theorem exists_freed_slots_released (hf : x.weaklyFair .syncR) (c : Nat) :
    ∀ k rest : Nat, (x.states k).rfree ≤ c + rest →
      ∃ n, resetFrom x k n ∨ (x.states (k + n)).rfree ≤ rest + (poppedFrom x k n).length := by
  induction c with
  | zero => exact fun k rest h => ⟨0, .inr (by simpa [poppedFrom] using h)⟩
  | succ c ih =>
    intro k rest h
    by_cases hpos : (x.states k).rfree = 0
    · exact ⟨0, .inr (by simp [hpos])⟩
    obtain ⟨n, hr | ⟨hm, hn⟩⟩ := hf.reaches k
      (P := fun n => (x.states (k + n)).rfree = (x.states k).rfree + (poppedFrom x k n).length) rfl
      (fun n hn => decide_eq_true (by omega))
      (fun n hn hm hr => by
        have hstep := (Execution.fifoStep hr).rfree_eq fun _ h => hm (List.cons.inj h).1
        rw [← Nat.add_assoc, hstep, poppedFrom, List.length_append, ← Nat.add_assoc]
        exact congrArg (· + _) hn)
    · exact ⟨n, .inl hr⟩
    · have hrel : (x.states (k + n + 1)).rfree = (x.states (k + n)).rfree - 1 := by
        have hrun := x.runMove_eq (k + n)
        rw [hm] at hrun
        rw [← Host.Outcome.next.inj hrun, syncR, if_pos (show 0 < (x.states (k + n)).rfree by omega)]
      have hlen : (poppedFrom x k n).length ≤ (poppedFrom x k (n + 1)).length := by simp [poppedFrom]
      obtain ⟨n', hn'⟩ := ih (k + (n + 1)) (rest + (poppedFrom x k (n + 1)).length)
        (show (x.states (k + n + 1)).rfree ≤ _ by omega)
      refine ⟨n + 1 + n', hn'.imp resetFrom_add fun hs => ?_⟩
      rw [poppedFrom_add, List.length_append, ← Nat.add_assoc k, ← Nat.add_assoc rest]
      exact hs

/-- A held sample is taken. -/
theorem exists_sample_taken (hf : x.weaklyFair .sink) {k : Nat} {y : F64} (hy : (x.states k).sout = some y) :
    ∃ n, resetFrom x k n ∨ (x.states (k + n)).sinkLog = (x.states k).sinkLog ++ [y] := by
  obtain ⟨n, hr | ⟨hm, hout, hlog⟩⟩ := hf.reaches k
    (P := fun n => (x.states (k + n)).sout = some y ∧ (x.states (k + n)).sinkLog = (x.states k).sinkLog) ⟨hy, rfl⟩
    (fun n ⟨hn, _⟩ => by simp [enabled, hn])
    (fun n ⟨hout, hlog⟩ hm hr =>
      have ⟨hout', hlog'⟩ := runMove_held_sample (x.runMove_eq (k + n)) hout hm hr
      ⟨hout', hlog'.trans hlog⟩)
  · exact ⟨n, .inl hr⟩
  · refine ⟨n + 1, .inr ?_⟩
    have hrun := x.runMove_eq (k + n)
    rw [hm] at hrun
    change (x.states (k + n + 1)).sinkLog = _
    rw [← Host.Outcome.next.inj hrun, ← hlog]
    simp only [sinkMove, hout]

end

/-- Settles O58. -/
theorem visibilityLatencies : Obligations.VisibilityLatencies := by
  refine ⟨exists_hidden_word, exists_dropped_word, fun x k ⟨hw, hr, hs⟩ => ⟨fun hb => ?_, ?_, fun y hy => ?_⟩⟩
  · simpa using exists_old_words_visible hw (hiddenWords (x.states k)) k [] hb (by simp)
  · simpa using exists_freed_slots_released hr (x.states k).rfree k 0 le_rfl
  · exact exists_sample_taken hs hy

end Sys2Proof.Machine
end
